-- ==== Sys2Proof/Word.lean ====
section
/-! DEFINITION. The two word types of the machine: 8-bit registers and bytes (R20, R60), 16-bit addresses and
program counter (R25, R60). -/

namespace Sys2Proof

/-- A register or a memory byte, bit 0 least significant (R11). -/
abbrev Byte := BitVec 8

/-- A bus address, a video-memory address or the program counter (R25, R45, R60). -/
abbrev Word := BitVec 16

end Sys2Proof
end

