-- ==== Sys2Proof/Config.lean ====
section
/-! DEFINITION. What the spec leaves as configuration of the machine (R10) and gives no value for. Both constants
have no body, so nothing can be proved from a value of theirs. -/

namespace Sys2Proof

/-- A colour triple, 8 bits each of red, green and blue (R286). -/
structure Rgb where
  red : Byte
  green : Byte
  blue : Byte
  deriving DecidableEq, Repr, Inhabited

/-- `PALETTE_RGB` (R10, R286): the 64-entry colour table, whose values the spec does not give (log 9). -/
opaque Config.paletteRgb : BitVec 6 → Rgb

/-- `PPU_STEP_RATIO` less one (R10, R262): the spec says only that the ratio is a positive integer (log 10). -/
opaque Config.ppuStepRatioPred : Nat

/-- `PPU_STEP_RATIO`, the document's N: any positive integer (R10, R262). -/
def Config.ppuStepRatio : Nat := Config.ppuStepRatioPred + 1

end Sys2Proof
end

