-- ==== Sys2Proof/Syntax.lean ====
section
/-! DEFINITION. Instructions as syntax: the mnemonic classes, the addressing modes, the operand forms and the ONE
instruction type. A row of spec/opcode_table.json is a mnemonic with one mode; the mnemonic is the constructor of
`Instr`, the mode is the constructor of its `Operand`. -/

namespace Sys2Proof

/-- The mnemonic class of a descriptor: the 56 classes with a body (R112) and `ILLEGAL`, which has none (R122). -/
inductive Mnemonic where
  | lda | ldx | ldy | sta | stx | sty | tax | tay | txa | tya | tsx | txs
  | adc | sbc | and | ora | eor | cmp | cpx | cpy | bit
  | asl | lsr | rol | ror | inc | dec | inx | iny | dex | dey
  | pha | php | pla | plp | clc | sec | cli | sei | cld | sed | clv
  | jmp | jsr | rts | bcc | bcs | beq | bne | bmi | bpl | bvc | bvs
  | brk | rti | nop
  | illegal
  deriving DecidableEq, Repr

/-- The 13 addressing-mode tags (R105 to R118). -/
inductive Mode where
  | imp | acc | imm | zp | zpx | zpy | abs | abx | aby | izx | izy | ind | rel
  deriving DecidableEq, Repr

/-- The operand of an instruction that goes through `Resolve`, one form per mode with an operand other than REL:
`d` is the byte after the opcode, `a` the little-endian word after it (R103). -/
inductive Operand where
  /-- accumulator (R106) -/
  | acc
  /-- immediate `#v` (R107) -/
  | imm (v : Byte)
  /-- zero page `d` (R108) -/
  | zp (d : Byte)
  /-- zero page `d,X` (R109) -/
  | zpx (d : Byte)
  /-- zero page `d,Y` (R110) -/
  | zpy (d : Byte)
  /-- absolute `a` (R111) -/
  | abs (a : Word)
  /-- absolute `a,X` (R113) -/
  | abx (a : Word)
  /-- absolute `a,Y` (R114) -/
  | aby (a : Word)
  /-- indexed indirect `(d,X)` (R115) -/
  | izx (d : Byte)
  /-- indirect indexed `(d),Y` (R116) -/
  | izy (d : Byte)
  /-- absolute indirect `(a)` (R117) -/
  | ind (a : Word)
  deriving DecidableEq, Repr

/-- The mode an operand form belongs to. -/
def Operand.mode : Operand → Mode
  | .acc => .acc
  | .imm _ => .imm
  | .zp _ => .zp
  | .zpx _ => .zpx
  | .zpy _ => .zpy
  | .abs _ => .abs
  | .abx _ => .abx
  | .aby _ => .aby
  | .izx _ => .izx
  | .izy _ => .izy
  | .ind _ => .ind

/-- The instructions of the machine (R112, R122). A branch carries its offset byte (R118), JSR its one absolute
address, an illegal opcode the byte itself. -/
inductive Instr where
  | lda (o : Operand) | ldx (o : Operand) | ldy (o : Operand)
  | sta (o : Operand) | stx (o : Operand) | sty (o : Operand)
  | tax | tay | txa | tya | tsx | txs
  | adc (o : Operand) | sbc (o : Operand) | and (o : Operand) | ora (o : Operand) | eor (o : Operand)
  | cmp (o : Operand) | cpx (o : Operand) | cpy (o : Operand) | bit (o : Operand)
  | asl (o : Operand) | lsr (o : Operand) | rol (o : Operand) | ror (o : Operand)
  | inc (o : Operand) | dec (o : Operand)
  | inx | iny | dex | dey
  | pha | php | pla | plp | clc | sec | cli | sei | cld | sed | clv
  | jmp (o : Operand) | jsr (a : Word) | rts
  | bcc (d : Byte) | bcs (d : Byte) | beq (d : Byte) | bne (d : Byte)
  | bmi (d : Byte) | bpl (d : Byte) | bvc (d : Byte) | bvs (d : Byte)
  | brk | rti | nop
  | illegal (opcode : Byte)
  deriving DecidableEq, Repr

/-- The mnemonic class of an instruction. -/
def Instr.mnemonic : Instr → Mnemonic
  | .lda _ => .lda | .ldx _ => .ldx | .ldy _ => .ldy
  | .sta _ => .sta | .stx _ => .stx | .sty _ => .sty
  | .tax => .tax | .tay => .tay | .txa => .txa | .tya => .tya | .tsx => .tsx | .txs => .txs
  | .adc _ => .adc | .sbc _ => .sbc | .and _ => .and | .ora _ => .ora | .eor _ => .eor
  | .cmp _ => .cmp | .cpx _ => .cpx | .cpy _ => .cpy | .bit _ => .bit
  | .asl _ => .asl | .lsr _ => .lsr | .rol _ => .rol | .ror _ => .ror
  | .inc _ => .inc | .dec _ => .dec
  | .inx => .inx | .iny => .iny | .dex => .dex | .dey => .dey
  | .pha => .pha | .php => .php | .pla => .pla | .plp => .plp
  | .clc => .clc | .sec => .sec | .cli => .cli | .sei => .sei | .cld => .cld | .sed => .sed | .clv => .clv
  | .jmp _ => .jmp | .jsr _ => .jsr | .rts => .rts
  | .bcc _ => .bcc | .bcs _ => .bcs | .beq _ => .beq | .bne _ => .bne
  | .bmi _ => .bmi | .bpl _ => .bpl | .bvc _ => .bvc | .bvs _ => .bvs
  | .brk => .brk | .rti => .rti | .nop => .nop
  | .illegal _ => .illegal

/-- The operand of an instruction that has one (`JSR a` is absolute, R221); `none` for IMP and REL forms. -/
def Instr.operand? : Instr → Option Operand
  | .lda o | .ldx o | .ldy o | .sta o | .stx o | .sty o => some o
  | .adc o | .sbc o | .and o | .ora o | .eor o | .cmp o | .cpx o | .cpy o | .bit o => some o
  | .asl o | .lsr o | .rol o | .ror o | .inc o | .dec o | .jmp o => some o
  | .jsr a => some (.abs a)
  | .tax | .tay | .txa | .tya | .tsx | .txs | .inx | .iny | .dex | .dey => none
  | .pha | .php | .pla | .plp | .clc | .sec | .cli | .sei | .cld | .sed | .clv => none
  | .rts | .brk | .rti | .nop | .illegal _ => none
  | .bcc _ | .bcs _ | .beq _ | .bne _ | .bmi _ | .bpl _ | .bvc _ | .bvs _ => none

/-- The offset byte of a branch; `none` for every other instruction. -/
def Instr.offset? : Instr → Option Byte
  | .bcc d | .bcs d | .beq d | .bne d | .bmi d | .bpl d | .bvc d | .bvs d => some d
  | .lda _ | .ldx _ | .ldy _ | .sta _ | .stx _ | .sty _ => none
  | .adc _ | .sbc _ | .and _ | .ora _ | .eor _ | .cmp _ | .cpx _ | .cpy _ | .bit _ => none
  | .asl _ | .lsr _ | .rol _ | .ror _ | .inc _ | .dec _ | .jmp _ | .jsr _ => none
  | .tax | .tay | .txa | .tya | .tsx | .txs | .inx | .iny | .dex | .dey => none
  | .pha | .php | .pla | .plp | .clc | .sec | .cli | .sei | .cld | .sed | .clv => none
  | .rts | .brk | .rti | .nop | .illegal _ => none

/-- The addressing mode of an instruction: its operand's, REL for a branch, IMP otherwise. -/
def Instr.mode (i : Instr) : Mode :=
  match i.operand?, i.offset? with
  | some o, _ => o.mode
  | none, some _ => .rel
  | none, none => .imp

end Sys2Proof
end

