-- ==== Sys2Proof/Decode.lean ====
section
/-! DEFINITION. The opcode map as data (R120, R124), decoding bytes to an instruction (R100, R103), and after it the
encoder, written from the other table of the spec (R112). -/

namespace Sys2Proof

/-! ## Byte order -/

/-- The word with high byte `hi` and low byte `lo`: `{hi, lo}` (R12, R76). -/
def wordOf (hi lo : Byte) : Word := hi ++ lo

/-- `a[7:0]` (R12). -/
def loByte (a : Word) : Byte := a.setWidth 8

/-- `a[15:8]` (R12). -/
def hiByte (a : Word) : Byte := (a >>> 8).setWidth 8

/-! ## Descriptors -/

/-- The descriptor of an opcode byte (R124). `cycles` is informative: nothing reads it (R335); an illegal byte has
none. -/
structure Descriptor where
  cls : Mnemonic
  mode : Mode
  cycles : Option Nat
  deriving DecidableEq, Repr

namespace Grid

/-- An entry of R120's grid with a body. -/
def op (c : Mnemonic) (m : Mode) (cycles : Nat) : Descriptor := ⟨c, m, some cycles⟩

/-- A `-` entry of R120's grid: class ILLEGAL (R122); its mode is never used. -/
def no : Descriptor := ⟨.illegal, .imp, none⟩

/-- R120's grid, one row per high nibble, sixteen columns by low nibble. -/
def row : Nat → List Descriptor
  | 0 => [op .brk .imp 7, op .ora .izx 6, no, no, no, op .ora .zp 3, op .asl .zp 5, no,
         op .php .imp 3, op .ora .imm 2, op .asl .acc 2, no, no, op .ora .abs 4, op .asl .abs 6, no]
  | 1 => [op .bpl .rel 2, op .ora .izy 5, no, no, no, op .ora .zpx 4, op .asl .zpx 6, no,
         op .clc .imp 2, op .ora .aby 4, no, no, no, op .ora .abx 4, op .asl .abx 7, no]
  | 2 => [op .jsr .abs 6, op .and .izx 6, no, no, op .bit .zp 3, op .and .zp 3, op .rol .zp 5, no,
         op .plp .imp 4, op .and .imm 2, op .rol .acc 2, no, op .bit .abs 4, op .and .abs 4, op .rol .abs 6, no]
  | 3 => [op .bmi .rel 2, op .and .izy 5, no, no, no, op .and .zpx 4, op .rol .zpx 6, no,
         op .sec .imp 2, op .and .aby 4, no, no, no, op .and .abx 4, op .rol .abx 7, no]
  | 4 => [op .rti .imp 6, op .eor .izx 6, no, no, no, op .eor .zp 3, op .lsr .zp 5, no,
         op .pha .imp 3, op .eor .imm 2, op .lsr .acc 2, no, op .jmp .abs 3, op .eor .abs 4, op .lsr .abs 6, no]
  | 5 => [op .bvc .rel 2, op .eor .izy 5, no, no, no, op .eor .zpx 4, op .lsr .zpx 6, no,
         op .cli .imp 2, op .eor .aby 4, no, no, no, op .eor .abx 4, op .lsr .abx 7, no]
  | 6 => [op .rts .imp 6, op .adc .izx 6, no, no, no, op .adc .zp 3, op .ror .zp 5, no,
         op .pla .imp 4, op .adc .imm 2, op .ror .acc 2, no, op .jmp .ind 5, op .adc .abs 4, op .ror .abs 6, no]
  | 7 => [op .bvs .rel 2, op .adc .izy 5, no, no, no, op .adc .zpx 4, op .ror .zpx 6, no,
         op .sei .imp 2, op .adc .aby 4, no, no, no, op .adc .abx 4, op .ror .abx 7, no]
  | 8 => [no, op .sta .izx 6, no, no, op .sty .zp 3, op .sta .zp 3, op .stx .zp 3, no,
         op .dey .imp 2, no, op .txa .imp 2, no, op .sty .abs 4, op .sta .abs 4, op .stx .abs 4, no]
  | 9 => [op .bcc .rel 2, op .sta .izy 6, no, no, op .sty .zpx 4, op .sta .zpx 4, op .stx .zpy 4, no,
         op .tya .imp 2, op .sta .aby 5, op .txs .imp 2, no, no, op .sta .abx 5, no, no]
  | 10 => [op .ldy .imm 2, op .lda .izx 6, op .ldx .imm 2, no, op .ldy .zp 3, op .lda .zp 3, op .ldx .zp 3, no,
         op .tay .imp 2, op .lda .imm 2, op .tax .imp 2, no, op .ldy .abs 4, op .lda .abs 4, op .ldx .abs 4, no]
  | 11 => [op .bcs .rel 2, op .lda .izy 5, no, no, op .ldy .zpx 4, op .lda .zpx 4, op .ldx .zpy 4, no,
         op .clv .imp 2, op .lda .aby 4, op .tsx .imp 2, no, op .ldy .abx 4, op .lda .abx 4, op .ldx .aby 4, no]
  | 12 => [op .cpy .imm 2, op .cmp .izx 6, no, no, op .cpy .zp 3, op .cmp .zp 3, op .dec .zp 5, no,
         op .iny .imp 2, op .cmp .imm 2, op .dex .imp 2, no, op .cpy .abs 4, op .cmp .abs 4, op .dec .abs 6, no]
  | 13 => [op .bne .rel 2, op .cmp .izy 5, no, no, no, op .cmp .zpx 4, op .dec .zpx 6, no,
         op .cld .imp 2, op .cmp .aby 4, no, no, no, op .cmp .abx 4, op .dec .abx 7, no]
  | 14 => [op .cpx .imm 2, op .sbc .izx 6, no, no, op .cpx .zp 3, op .sbc .zp 3, op .inc .zp 5, no,
         op .inx .imp 2, op .sbc .imm 2, op .nop .imp 2, no, op .cpx .abs 4, op .sbc .abs 4, op .inc .abs 6, no]
  | _ => [op .beq .rel 2, op .sbc .izy 5, no, no, no, op .sbc .zpx 4, op .inc .zpx 6, no,
         op .sed .imp 2, op .sbc .aby 4, no, no, no, op .sbc .abx 4, op .inc .abx 7, no]

end Grid

/-- `Descriptor(opcode)`: total on the 256 byte values (R124). -/
def descriptor (b : Byte) : Descriptor := (Grid.row (b.toNat / 16)).getD (b.toNat % 16) Grid.no

/-- The length of an instruction by its mode (R104). -/
def Mode.length : Mode → Nat
  | .imp | .acc => 1
  | .imm | .zp | .zpx | .zpy | .izx | .izy | .rel => 2
  | .abs | .abx | .aby | .ind => 3

/-- The descriptor's `length` field (R104, R124). -/
def Descriptor.length (d : Descriptor) : Nat := d.mode.length

/-- The length of an instruction in bytes (R104). -/
def Instr.length (i : Instr) : Nat := i.mode.length

/-! ## From bytes to instructions -/

/-- The operand of a mode, read from the byte after the opcode (`b1`) and the one after that (`b2`): `d8` is `b1`,
`a16` is `{b2, b1}` (R103). IMP and REL have no `Operand`; no class that takes one is paired with them. -/
def operandOf (m : Mode) (b1 b2 : Byte) : Operand :=
  match m with
  | .imm => .imm b1
  | .zp => .zp b1
  | .zpx => .zpx b1
  | .zpy => .zpy b1
  | .izx => .izx b1
  | .izy => .izy b1
  | .abs => .abs (wordOf b2 b1)
  | .abx => .abx (wordOf b2 b1)
  | .aby => .aby (wordOf b2 b1)
  | .ind => .ind (wordOf b2 b1)
  | .acc | .imp | .rel => .acc

/-- The instruction of a descriptor, its opcode byte and its operand bytes (R100). -/
def assemble (d : Descriptor) (opcode b1 b2 : Byte) : Instr :=
  let o := operandOf d.mode b1 b2
  match d.cls with
  | .lda => .lda o | .ldx => .ldx o | .ldy => .ldy o
  | .sta => .sta o | .stx => .stx o | .sty => .sty o
  | .tax => .tax | .tay => .tay | .txa => .txa | .tya => .tya | .tsx => .tsx | .txs => .txs
  | .adc => .adc o | .sbc => .sbc o | .and => .and o | .ora => .ora o | .eor => .eor o
  | .cmp => .cmp o | .cpx => .cpx o | .cpy => .cpy o | .bit => .bit o
  | .asl => .asl o | .lsr => .lsr o | .rol => .rol o | .ror => .ror o
  | .inc => .inc o | .dec => .dec o
  | .inx => .inx | .iny => .iny | .dex => .dex | .dey => .dey
  | .pha => .pha | .php => .php | .pla => .pla | .plp => .plp
  | .clc => .clc | .sec => .sec | .cli => .cli | .sei => .sei | .cld => .cld | .sed => .sed | .clv => .clv
  | .jmp => .jmp o | .jsr => .jsr (wordOf b2 b1) | .rts => .rts
  | .bcc => .bcc b1 | .bcs => .bcs b1 | .beq => .beq b1 | .bne => .bne b1
  | .bmi => .bmi b1 | .bpl => .bpl b1 | .bvc => .bvc b1 | .bvs => .bvs b1
  | .brk => .brk | .rti => .rti | .nop => .nop
  | .illegal => .illegal opcode

/-- Why a list of bytes is no instruction. An illegal opcode is none of these: it decodes to `Instr.illegal`. -/
inductive DecodeError where
  /-- there is no opcode byte -/
  | noOpcode
  /-- the list ends before the operand bytes of this opcode -/
  | missingOperand (opcode : Byte)
  deriving DecidableEq, Repr

/-- Decode the instruction at the head of a list of bytes, in memory order; the answer holds the bytes after it.
The length comes from the first byte alone (R104). -/
def decode : List Byte → Except DecodeError (Instr × List Byte)
  | [] => .error .noOpcode
  | b :: rest =>
    let d := descriptor b
    match d.length, rest with
    | 1, _ => .ok (assemble d b 0 0, rest)
    | 2, b1 :: rest' => .ok (assemble d b b1 0, rest')
    | 3, b1 :: b2 :: rest' => .ok (assemble d b b1 b2, rest')
    | _, _ => .error (.missingOperand b)

/-- The instruction the decoder reads from a table word: bit 0 of `w` is the least significant bit of the first
byte, the second byte is bits 15 to 8, the third bits 23 to 16, and every bit from `nbits` up is 0. -/
def decodeTableWord (nbits w : Nat) : Option Instr :=
  let v := w % 2 ^ nbits
  match decode [BitVec.ofNat 8 v, BitVec.ofNat 8 (v / 256), BitVec.ofNat 8 (v / 65536)] with
  | .ok (i, _) => some i
  | .error _ => none

/-! ## The encoder -/

/-- R112's table: for each mnemonic its modes and their opcode bytes. -/
def opcodes : Mnemonic → List (Mode × Byte)
  | .lda => [(.imm, 0xA9), (.zp, 0xA5), (.zpx, 0xB5), (.abs, 0xAD), (.abx, 0xBD), (.aby, 0xB9), (.izx, 0xA1), (.izy, 0xB1)]
  | .ldx => [(.imm, 0xA2), (.zp, 0xA6), (.zpy, 0xB6), (.abs, 0xAE), (.aby, 0xBE)]
  | .ldy => [(.imm, 0xA0), (.zp, 0xA4), (.zpx, 0xB4), (.abs, 0xAC), (.abx, 0xBC)]
  | .sta => [(.zp, 0x85), (.zpx, 0x95), (.abs, 0x8D), (.abx, 0x9D), (.aby, 0x99), (.izx, 0x81), (.izy, 0x91)]
  | .stx => [(.zp, 0x86), (.zpy, 0x96), (.abs, 0x8E)]
  | .sty => [(.zp, 0x84), (.zpx, 0x94), (.abs, 0x8C)]
  | .tax => [(.imp, 0xAA)]
  | .tay => [(.imp, 0xA8)]
  | .txa => [(.imp, 0x8A)]
  | .tya => [(.imp, 0x98)]
  | .tsx => [(.imp, 0xBA)]
  | .txs => [(.imp, 0x9A)]
  | .adc => [(.imm, 0x69), (.zp, 0x65), (.zpx, 0x75), (.abs, 0x6D), (.abx, 0x7D), (.aby, 0x79), (.izx, 0x61), (.izy, 0x71)]
  | .sbc => [(.imm, 0xE9), (.zp, 0xE5), (.zpx, 0xF5), (.abs, 0xED), (.abx, 0xFD), (.aby, 0xF9), (.izx, 0xE1), (.izy, 0xF1)]
  | .and => [(.imm, 0x29), (.zp, 0x25), (.zpx, 0x35), (.abs, 0x2D), (.abx, 0x3D), (.aby, 0x39), (.izx, 0x21), (.izy, 0x31)]
  | .ora => [(.imm, 0x09), (.zp, 0x05), (.zpx, 0x15), (.abs, 0x0D), (.abx, 0x1D), (.aby, 0x19), (.izx, 0x01), (.izy, 0x11)]
  | .eor => [(.imm, 0x49), (.zp, 0x45), (.zpx, 0x55), (.abs, 0x4D), (.abx, 0x5D), (.aby, 0x59), (.izx, 0x41), (.izy, 0x51)]
  | .cmp => [(.imm, 0xC9), (.zp, 0xC5), (.zpx, 0xD5), (.abs, 0xCD), (.abx, 0xDD), (.aby, 0xD9), (.izx, 0xC1), (.izy, 0xD1)]
  | .cpx => [(.imm, 0xE0), (.zp, 0xE4), (.abs, 0xEC)]
  | .cpy => [(.imm, 0xC0), (.zp, 0xC4), (.abs, 0xCC)]
  | .bit => [(.zp, 0x24), (.abs, 0x2C)]
  | .asl => [(.acc, 0x0A), (.zp, 0x06), (.zpx, 0x16), (.abs, 0x0E), (.abx, 0x1E)]
  | .lsr => [(.acc, 0x4A), (.zp, 0x46), (.zpx, 0x56), (.abs, 0x4E), (.abx, 0x5E)]
  | .rol => [(.acc, 0x2A), (.zp, 0x26), (.zpx, 0x36), (.abs, 0x2E), (.abx, 0x3E)]
  | .ror => [(.acc, 0x6A), (.zp, 0x66), (.zpx, 0x76), (.abs, 0x6E), (.abx, 0x7E)]
  | .inc => [(.zp, 0xE6), (.zpx, 0xF6), (.abs, 0xEE), (.abx, 0xFE)]
  | .dec => [(.zp, 0xC6), (.zpx, 0xD6), (.abs, 0xCE), (.abx, 0xDE)]
  | .inx => [(.imp, 0xE8)]
  | .iny => [(.imp, 0xC8)]
  | .dex => [(.imp, 0xCA)]
  | .dey => [(.imp, 0x88)]
  | .pha => [(.imp, 0x48)]
  | .php => [(.imp, 0x08)]
  | .pla => [(.imp, 0x68)]
  | .plp => [(.imp, 0x28)]
  | .clc => [(.imp, 0x18)]
  | .sec => [(.imp, 0x38)]
  | .cli => [(.imp, 0x58)]
  | .sei => [(.imp, 0x78)]
  | .cld => [(.imp, 0xD8)]
  | .sed => [(.imp, 0xF8)]
  | .clv => [(.imp, 0xB8)]
  | .jmp => [(.abs, 0x4C), (.ind, 0x6C)]
  | .jsr => [(.abs, 0x20)]
  | .rts => [(.imp, 0x60)]
  | .bcc => [(.rel, 0x90)]
  | .bcs => [(.rel, 0xB0)]
  | .beq => [(.rel, 0xF0)]
  | .bne => [(.rel, 0xD0)]
  | .bmi => [(.rel, 0x30)]
  | .bpl => [(.rel, 0x10)]
  | .bvc => [(.rel, 0x50)]
  | .bvs => [(.rel, 0x70)]
  | .brk => [(.imp, 0x00)]
  | .rti => [(.imp, 0x40)]
  | .nop => [(.imp, 0xEA)]
  | .illegal => []

/-- The opcode byte of a mnemonic in a mode, if the combination exists (R112). -/
def opcodeOf (c : Mnemonic) (m : Mode) : Option Byte := (opcodes c).lookup m

/-- The bytes after the opcode, in memory order (R103). -/
def Operand.bytes : Operand → List Byte
  | .acc => []
  | .imm d | .zp d | .zpx d | .zpy d | .izx d | .izy d => [d]
  | .abs a | .abx a | .aby a | .ind a => [loByte a, hiByte a]

/-- The operand bytes of an instruction, in memory order (R103). -/
def Instr.operandBytes (i : Instr) : List Byte :=
  match i.operand?, i.offset? with
  | some o, _ => o.bytes
  | none, some d => [d]
  | none, none => []

/-- The opcode byte of an instruction; `none` for a combination of mnemonic and mode that does not exist. -/
def Instr.opcode? : Instr → Option Byte
  | .illegal b => some b
  | i => opcodeOf i.mnemonic i.mode

/-- The bytes of an instruction in memory order; empty for one that does not exist. -/
def encode (i : Instr) : List Byte :=
  match i.opcode? with
  | some b => b :: i.operandBytes
  | none => []

end Sys2Proof
end

