-- ==== Sys2Proof/Machine/State.lean ====
section
/-! DEFINITION. Everything the spec gives the machine, as plain data, grouped by owner (10_state.md, head): the CPU's
register file, the bus's memories, the PPU, what the host holds, and the fault. INVENTORY.md lists each piece. -/

namespace Sys2Proof.Machine

/-- A byte array: (index, byte) pairs, indexes strictly rising, no pair for a byte 0x00. An index that is not listed
reads as 0x00 (log 2, log 3). -/
abbrev Memory := List Host.Cell

/-- The canonical form of a byte array of `size` bytes. -/
abbrev Memory.wf (size : Nat) (m : Memory) : Prop :=
  m.Pairwise (fun c d => c.1 < d.1) ∧ (∀ c ∈ m, c.1 < size ∧ c.2 ≠ 0)

/-- The CPU's six registers (R20, R21, R22, R25, R53). -/
structure Cpu where
  /-- accumulator -/
  a : Byte
  /-- index register X -/
  x : Byte
  /-- index register Y -/
  y : Byte
  /-- stack pointer: offset into 0x0100 to 0x01FF (R21) -/
  sp : Byte
  /-- status, `N V R B D I Z C` from bit 7 to bit 0 (R22) -/
  p : Byte
  /-- program counter (R25) -/
  pc : Word
  deriving DecidableEq, Repr

/-- `PRG_BANKS`: one or two banks of 16384 bytes (R10, R70). -/
inductive PrgBanks where
  | one | two
  deriving DecidableEq, Repr

/-- The number of bytes of program ROM (R10, R38). -/
def PrgBanks.size : PrgBanks → Nat
  | .one => 16384
  | .two => 32768

/-- The bus's storage (R38). Each array is indexed as R60 indexes it. -/
structure Bus where
  /-- work RAM, 2048 bytes -/
  wram : Memory
  /-- extended RAM, 8160 bytes -/
  xram : Memory
  /-- battery-backed RAM, 8192 bytes -/
  sram : Memory
  /-- program ROM, a launch parameter nothing writes (R10, R71) -/
  prg : Memory
  /-- the number of ROM banks, a launch parameter -/
  prgBanks : PrgBanks
  deriving DecidableEq, Repr

/-- The picture processing unit (R40 to R48). -/
structure Ppu where
  /-- `CTRL`, port 0x2000 (R40) -/
  ctrl : Byte
  /-- `MASK`, port 0x2001 (R40) -/
  mask : Byte
  /-- `STATUS`, port 0x2002; bit 7 is the vertical-blank flag (R40) -/
  status : Byte
  /-- video memory, 65536 bytes (R41) -/
  vram : Memory
  /-- sprite memory, 256 bytes (R42) -/
  oam : Memory
  /-- the OAM cursor (R43) -/
  oamAddr : Byte
  /-- horizontal scroll (R44) -/
  scrollX : Byte
  /-- vertical scroll (R44) -/
  scrollY : Byte
  /-- the current video-memory address (R45) -/
  vramAddr : Word
  /-- the write toggle: `false` is 0, "first write" (R46) -/
  w : Bool
  /-- the "draw now" output (R47) -/
  drawNow : Bool
  /-- the values written to port 0x4014, oldest first (R48) -/
  oamdmaReq : List Byte
  deriving DecidableEq, Repr

/-- `OAMDMA_MODE`: `stub` is the normative machine, `copy` the extension of R282 (R10, R281). -/
inductive OamDmaMode where
  | stub | copy
  deriving DecidableEq, Repr

/-- One agent operation (R9, R258, R260): what the schedule is made of. -/
inductive Turn where
  /-- the host calls `Step` -/
  | cpu
  /-- the host calls `PpuStep` (R262) -/
  | ppuStep
  /-- the host calls `RenderFrame`, then clears `draw_now` (R260) -/
  | renderFrame
  /-- the host checks `draw_now` and renders only if it is 1 (R263) -/
  | present
  /-- a warm `Reset` (R51); that it is a turn of the host is the model's (log 19) -/
  | reset
  deriving DecidableEq, Repr

/-- A pixel buffer: rows from top to bottom, each from left to right (R289). -/
abbrev Frame := List (List Rgb)

/-- What the host holds (R9, R260): the model's own fields but for `oamDmaMode` (log 7, log 8, log 11). -/
structure HostSide where
  /-- the agent operations still to come, the next one first; when it is empty every step is a CPU step -/
  schedule : List Turn
  /-- the launch's `OAMDMA_MODE` (R10) -/
  oamDmaMode : OamDmaMode
  /-- the pixel buffer of the latest `RenderFrame`; empty before the first -/
  frame : Frame
  deriving DecidableEq, Repr

/-- The record of the one exception: the opcode byte and the address it was fetched from (R49, R250). -/
structure UnimplementedInstruction where
  opcode : Byte
  pc : Word
  deriving DecidableEq, Repr

/-- The machine's state. -/
structure State where
  cpu : Cpu
  bus : Bus
  ppu : Ppu
  host : HostSide
  /-- `none`, or the terminal exception once it has been raised (R49) -/
  fault : Option UnimplementedInstruction
  deriving DecidableEq, Repr

/-- Why the machine stops. -/
inductive Fault where
  /-- Raised by `step` alone, on a state whose `fault` is set: the CPU has no further step (R49, R251). Safe: the spec
  gives such a state no successor (log 6). -/
  | unimplementedInstruction (opcode : Byte) (pc : Word)
  deriving DecidableEq, Repr

/-- Why the model gives no meaning. -/
inductive Refusal where
  /-- Answered by an arm of `exec` whose instruction has no meaning yet: none is left. Safe. -/
  | notModelled (mnemonic : String)
  /-- Answered by a store, read-modify-write or jump meaning for an operand form that has no effective address
  (`acc`, `imm`) where it needs one. No such instruction is well-formed and none is ever decoded (log 13). Safe. -/
  | noEffectiveAddress
  deriving DecidableEq, Repr

/-- The answer of a meaning or a step. -/
abbrev Result := Host.Outcome State Fault Refusal

/-- The machine right after power-on and `Reset` (R50, R320): PC is the word at 0xFFFC, I is 1, `w`, `draw_now`,
`oamdma_req` and `fault` as R50 says. Every other value is the all-zero `POWER_ON` record and an empty cartridge
(log 1 to log 5), so the word at 0xFFFC is 0x0000. -/
def State.reset : State where
  cpu := { a := 0, x := 0, y := 0, sp := 0, p := 0x04, pc := 0 }
  bus := { wram := [], xram := [], sram := [], prg := [], prgBanks := .one }
  ppu :=
    { ctrl := 0, mask := 0, status := 0, vram := [], oam := [], oamAddr := 0, scrollX := 0, scrollY := 0,
      vramAddr := 0, w := false, drawNow := false, oamdmaReq := [] }
  host := { schedule := [], oamDmaMode := .stub, frame := [] }
  fault := none

end Sys2Proof.Machine
end

