-- ==== Sys2Proof/Machine/Flags.lean ====
section
/-! DEFINITION. The status register's flags (R22), `SetNZ` (R36), and every flag computation of the instructions:
the 9-bit additions of ADC and SBC (R160, R161), compares (R165 to R167), BIT (R168), shifts and rotates (R180 to
R183). Each is a function of bytes; the meanings put the results into the state. -/

namespace Sys2Proof.Machine

/-- The eight bits of `P` (R22). -/
inductive Flag where
  | n | v | r | b | d | i | z | c
  deriving DecidableEq, Repr

/-- The bit of `P` a flag is (R22). -/
def Flag.bit : Flag → Nat
  | .n => 7
  | .v => 6
  | .r => 5
  | .b => 4
  | .d => 3
  | .i => 2
  | .z => 1
  | .c => 0

/-- `P.f`. -/
def getFlag (f : Flag) (p : Byte) : Bool := p.getLsbD f.bit

/-- `P.f <- v`. -/
def putFlag (f : Flag) (v : Bool) (p : Byte) : Byte :=
  let mask : Byte := 1 <<< f.bit
  if v then p ||| mask else p &&& ~~~mask

/-- `SetNZ(v)` on `P` (R36). -/
def putNZ (v : Byte) (p : Byte) : Byte := putFlag .z (v == 0) (putFlag .n (v.getLsbD 7) p)

/-- The outcome of an 8-bit addition or subtraction. -/
structure Sum where
  res : Byte
  carry : Bool
  overflow : Bool
  deriving DecidableEq, Repr

/-- ADC's 9-bit addition with its carry and two's-complement overflow (R160). -/
def addWithCarry (a m : Byte) (c : Bool) : Sum :=
  let sum : Nat := a.toNat + m.toNat + c.toNat
  let res : Byte := BitVec.ofNat 8 sum
  { res := res
    carry := decide (sum > 0xFF)
    overflow := (~~~(a ^^^ m) &&& (a ^^^ res) &&& 0x80) != 0 }

/-- SBC: the addition of the operand's one's complement (R161). -/
def subWithCarry (a m : Byte) (c : Bool) : Sum := addWithCarry a (m ^^^ 0xFF) c

/-- The flags of ADC and SBC: N, V, Z, C from the sum (R160, R161). -/
def putSum (q : Sum) (p : Byte) : Byte := putNZ q.res (putFlag .v q.overflow (putFlag .c q.carry p))

/-- The flags of a compare: C is the unsigned `reg >= m`, N and Z come from the difference (R165). -/
def putCompare (reg m : Byte) (p : Byte) : Byte := putNZ (reg - m) (putFlag .c (decide (m.toNat ≤ reg.toNat)) p)

/-- The flags of BIT: N and V are bits 7 and 6 of the operand, Z is `(A & M) == 0` (R168). -/
def putBit (a m : Byte) (p : Byte) : Byte :=
  putFlag .z ((a &&& m) == 0) (putFlag .v (m.getLsbD 6) (putFlag .n (m.getLsbD 7) p))

/-- The outcome of a shift or rotate: the byte and the bit shifted out. -/
structure Shifted where
  res : Byte
  carry : Bool
  deriving DecidableEq, Repr

/-- ASL (R180); the carry-in is not used. -/
def shiftLeft (m : Byte) (_ : Bool) : Shifted := { res := m <<< 1, carry := m.getLsbD 7 }

/-- LSR (R181); the carry-in is not used. -/
def shiftRight (m : Byte) (_ : Bool) : Shifted := { res := m >>> 1, carry := m.getLsbD 0 }

/-- ROL: `{m[6:0], c}` (R182). -/
def rotateLeft (m : Byte) (c : Bool) : Shifted :=
  { res := m.extractLsb' 0 7 ++ BitVec.ofBool c, carry := m.getLsbD 7 }

/-- ROR: `{c, m[7:1]}` (R183). -/
def rotateRight (m : Byte) (c : Bool) : Shifted :=
  { res := BitVec.ofBool c ++ m.extractLsb' 1 7, carry := m.getLsbD 0 }

/-- The flags of a shift or rotate: N, Z from the result, C the bit shifted out (R180 to R183). -/
def putShifted (q : Shifted) (p : Byte) : Byte := putNZ q.res (putFlag .c q.carry p)

end Sys2Proof.Machine
end

