-- ==== Sys2Proof/Machine/Memory.lean ====
section
/-! DEFINITION. Reading and writing a byte array in canonical form. -/

namespace Sys2Proof.Machine

/-- The byte at an index: 0x00 where nothing is listed (log 2, log 3). -/
def Memory.read : Memory → Nat → Byte
  | [], _ => 0
  | (k, v) :: rest, i => if k = i then v else Memory.read rest i

/-- Take away what is listed at an index, so that it reads as 0x00. -/
def Memory.erase (m : Memory) (i : Nat) : Memory := m.filter fun c => c.1 != i

/-- List a byte at an index that is not listed, in front of the first greater one. -/
def Memory.insert : Memory → Nat → Byte → Memory
  | [], i, v => [(i, v)]
  | (k, u) :: rest, i, v => if k < i then (k, u) :: Memory.insert rest i v else (i, v) :: (k, u) :: rest

/-- Put a byte at an index, keeping the canonical form: writing 0x00 takes the entry away. -/
def Memory.write (m : Memory) (i : Nat) (v : Byte) : Memory :=
  if v = 0 then m.erase i else (m.erase i).insert i v

/-- The array whose bytes from index `i` on are the list's. -/
def Memory.ofBytesFrom : Nat → List Byte → Memory
  | _, [] => []
  | i, b :: rest => if b = 0 then Memory.ofBytesFrom (i + 1) rest else (i, b) :: Memory.ofBytesFrom (i + 1) rest

/-- The array with the list's bytes from index `i` on, every other byte as it was. -/
def Memory.overlay : Memory → Nat → List Byte → Memory
  | m, _, [] => m
  | m, i, b :: rest => Memory.overlay (Memory.write m i b) (i + 1) rest

end Sys2Proof.Machine
end

