-- ==== Sys2Proof/Machine/Ppu.lean ====
section
/-! DEFINITION. The nine PPU ports (R270 to R281) and the host's `PpuStep` on the PPU (R262). -/

namespace Sys2Proof.Machine

/-- The nine bus addresses that reach the PPU (R280). -/
inductive Port where
  /-- 0x2000 -/
  | ctrl
  /-- 0x2001 -/
  | mask
  /-- 0x2002 -/
  | status
  /-- 0x2003 -/
  | oamAddr
  /-- 0x2004 -/
  | oamData
  /-- 0x2005 -/
  | scroll
  /-- 0x2006 -/
  | vramAddr
  /-- 0x2007 -/
  | vramData
  /-- 0x4014 -/
  | oamDma
  deriving DecidableEq, Repr

/-- `PpuPortRead`: the byte returned and the PPU after it (R272, R274, R277; R278 for the write-only ports). -/
def portRead (p : Port) (u : Ppu) : Byte × Ppu :=
  match p with
  | .status => (u.status, { u with status := u.status &&& 0x7F, w := false })
  | .oamData => (u.oam.read u.oamAddr.toNat, u)
  | .vramData => (u.vram.read u.vramAddr.toNat, { u with vramAddr := u.vramAddr + 1 })
  | .ctrl => (0, u)
  | .mask => (0, u)
  | .oamAddr => (0, u)
  | .scroll => (0, u)
  | .vramAddr => (0, u)
  | .oamDma => (0, u)

/-- `PpuPortWrite` (R270, R271, R273 to R277, R281; R278 for the read-only port). -/
def portWrite (p : Port) (v : Byte) (u : Ppu) : Ppu :=
  match p with
  | .ctrl => { u with ctrl := v }
  | .mask => { u with mask := v }
  | .status => u
  | .oamAddr => { u with oamAddr := v }
  | .oamData => { u with oam := u.oam.write u.oamAddr.toNat v, oamAddr := u.oamAddr + 1 }
  | .scroll => if u.w then { u with scrollY := v, w := false } else { u with scrollX := v, w := true }
  | .vramAddr =>
    if u.w then { u with vramAddr := wordOf (hiByte u.vramAddr) v, w := false }
    else { u with vramAddr := wordOf v (loByte u.vramAddr), w := true }
  | .vramData => { u with vram := u.vram.write u.vramAddr.toNat v, vramAddr := u.vramAddr + 1 }
  | .oamDma => { u with oamdmaReq := u.oamdmaReq ++ [v] }

/-- `PpuStep`: `STATUS[7] <- 1; draw_now <- 1` (R262). -/
def ppuStepped (u : Ppu) : Ppu := { u with status := u.status ||| 0x80, drawNow := true }

end Sys2Proof.Machine
end

