-- ==== Sys2Proof/Machine/Ops.lean ====
section
/-! DEFINITION. The named operations over registers and memory: register and flag writes, the bus's routing and its
byte and word accesses (20_memory.md), instruction fetch (R101, R102, R100), the stack (R30 to R33), raising the one
exception (R250, R251) and the return beside it (R241), and placing an instruction where the machine fetches. -/

namespace Sys2Proof.Machine

/-! ## Registers -/

/-- `A <- v` -/
def State.setA (v : Byte) (s : State) : State := { s with cpu := { s.cpu with a := v } }

/-- `X <- v` -/
def State.setX (v : Byte) (s : State) : State := { s with cpu := { s.cpu with x := v } }

/-- `Y <- v` -/
def State.setY (v : Byte) (s : State) : State := { s with cpu := { s.cpu with y := v } }

/-- `SP <- v` -/
def State.setSp (v : Byte) (s : State) : State := { s with cpu := { s.cpu with sp := v } }

/-- `P <- v` -/
def State.setP (v : Byte) (s : State) : State := { s with cpu := { s.cpu with p := v } }

/-- `PC <- v` -/
def State.setPc (v : Word) (s : State) : State := { s with cpu := { s.cpu with pc := v } }

/-- The PPU replaced. -/
def State.setPpu (u : Ppu) (s : State) : State := { s with ppu := u }

/-- `P.f <- v` (R22) -/
def State.setFlag (f : Flag) (v : Bool) (s : State) : State := s.setP (putFlag f v s.cpu.p)

/-- `SetNZ(v)` (R36) -/
def State.setNZ (v : Byte) (s : State) : State := s.setP (putNZ v s.cpu.p)

/-- `P.f` -/
def State.flag (f : Flag) (s : State) : Bool := getFlag f s.cpu.p

/-! ## The bus -/

/-- `zext_16` of a byte (R12). -/
def zext (b : Byte) : Word := b.setWidth 16

/-- `sext_16` of a byte (R12, R13). -/
def sext (b : Byte) : Word := b.signExtend 16

/-- What an address is routed to: an index into one of the four arrays, a PPU port, or nothing (R60). -/
inductive Target where
  | wram (i : Nat)
  | xram (i : Nat)
  | sram (i : Nat)
  | prg (i : Nat)
  | port (p : Port)
  | unused
  deriving DecidableEq, Repr

/-- The index into `PRG` of an address from 0x8000 up: one bank is mirrored (R70). -/
def prgIndex (k : PrgBanks) (n : Nat) : Nat :=
  match k with
  | .one => if n < 0xC000 then n - 0x8000 else n - 0xC000
  | .two => n - 0x8000

/-- The routing table (R60, R63 to R71). -/
def route (k : PrgBanks) (a : Word) : Target :=
  let n := a.toNat
  if n < 0x0800 then .wram n
  else if n < 0x2000 then .unused
  else if n < 0x2008 then
    match n - 0x2000 with
    | 0 => .port .ctrl
    | 1 => .port .mask
    | 2 => .port .status
    | 3 => .port .oamAddr
    | 4 => .port .oamData
    | 5 => .port .scroll
    | 6 => .port .vramAddr
    | _ => .port .vramData
  else if n < 0x4014 then .unused
  else if n = 0x4014 then .port .oamDma
  else if n < 0x4020 then .unused
  else if n < 0x6000 then .xram (n - 0x4020)
  else if n < 0x8000 then .sram (n - 0x6000)
  else .prg (prgIndex k n)

/-- `MemRead(addr, 1)`: the byte and the state after the access, which differs only if `addr` is a port (R61, R78). -/
def memRead (a : Word) (s : State) : Byte × State :=
  match route s.bus.prgBanks a with
  | .wram i => (s.bus.wram.read i, s)
  | .xram i => (s.bus.xram.read i, s)
  | .sram i => (s.bus.sram.read i, s)
  | .prg i => (s.bus.prg.read i, s)
  | .port p => ((portRead p s.ppu).1, s.setPpu (portRead p s.ppu).2)
  | .unused => (0, s)

/-- `MemWrite(addr, 1, v)` (R62): program ROM and unused addresses discard (R71, R72). -/
def memWrite (a : Word) (v : Byte) (s : State) : State :=
  match route s.bus.prgBanks a with
  | .wram i => { s with bus := { s.bus with wram := s.bus.wram.write i v } }
  | .xram i => { s with bus := { s.bus with xram := s.bus.xram.write i v } }
  | .sram i => { s with bus := { s.bus with sram := s.bus.sram.write i v } }
  | .port p => s.setPpu (portWrite p v s.ppu)
  | .prg _ => s
  | .unused => s

/-- The byte a read of this address would give, with no access made. -/
def peek (a : Word) (s : State) : Byte := (memRead a s).1

/-- `MemRead(addr, 2)`: low byte first, `addr + 1` modulo 65536 (R74). -/
def memReadWord (a : Word) (s : State) : Word × State :=
  let lo := memRead a s
  let hi := memRead (a + 1) lo.2
  (wordOf hi.1 lo.1, hi.2)

/-- `MemWrite(addr, 2, v)`: low byte first (R75). No instruction uses it. -/
def memWriteWord (a : Word) (v : Word) (s : State) : State := memWrite (a + 1) (hiByte v) (memWrite a (loByte v) s)

/-! ## Instruction fetch -/

/-- `Fetch8()` (R101). -/
def fetch8 (s : State) : Byte × State :=
  let b := memRead s.cpu.pc s
  (b.1, b.2.setPc (s.cpu.pc + 1))

/-- Fetch and decode the instruction at PC: the opcode, then `length - 1` operand bytes, each an ordinary bus read, PC
moving past each (R100 to R104). The state answered is the one the semantic body runs in (R25). -/
def fetchInstr (s : State) : Instr × State :=
  let op := fetch8 s
  let d := descriptor op.1
  match d.length with
  | 1 => (assemble d op.1 0 0, op.2)
  | 2 =>
    let b1 := fetch8 op.2
    (assemble d op.1 b1.1 0, b1.2)
  | _ =>
    let b1 := fetch8 op.2
    let b2 := fetch8 b1.2
    (assemble d op.1 b1.1 b2.1, b2.2)

/-- The opcode byte `Step` returns (R14, R100): the one it fetches (log 12). -/
def executedOpcode (s : State) : Byte := (fetch8 s).1

/-! ## The stack, growing upward -/

/-- The bus address of the slot SP designates: `{0x01, SP}` (R21). -/
def stackSlot (sp : Byte) : Word := wordOf 0x01 sp

/-- `Push8(v)`: write, then increment (R30). -/
def push8 (v : Byte) (s : State) : State := (memWrite (stackSlot s.cpu.sp) v s).setSp (s.cpu.sp + 1)

/-- `Pop8()`: decrement, then read (R31). -/
def pop8 (s : State) : Byte × State :=
  let t := s.setSp (s.cpu.sp - 1)
  memRead (stackSlot t.cpu.sp) t

/-- `Push16(v)`: low byte first (R32). -/
def push16 (v : Word) (s : State) : State := push8 (hiByte v) (push8 (loByte v) s)

/-- `Pop16()`: high byte first (R33). -/
def pop16 (s : State) : Word × State :=
  let hi := pop8 s
  let lo := pop8 hi.2
  (wordOf hi.1 lo.1, lo.2)

/-! ## The exception and the return -/

/-- `raise UnimplementedInstruction(opcode, pc0)`: PC goes back to the opcode's address, the fault is recorded, nothing
else changes (R100, R250, R251). `s` is the state after the opcode fetch, so `pc0` is its PC less one. -/
def raiseUnimplemented (opcode : Byte) (s : State) : State :=
  let pc0 := s.cpu.pc - 1
  { s.setPc pc0 with fault := some { opcode := opcode, pc := pc0 } }

/-- `P <- Pop8(); PC <- Pop16()`: all eight bits of P, PC with no adjustment (R241, R257). -/
def trapReturn (s : State) : State :=
  let p := pop8 s
  let t := pop16 (p.2.setP p.1)
  t.2.setPc t.1

/-! ## Placing an instruction where the machine fetches -/

/-- An instruction byte put at this address stays there: it is RAM or ROM (R60). -/
def holdsCode (k : PrgBanks) (a : Word) : Bool :=
  match route k a with
  | .wram _ | .xram _ | .sram _ | .prg _ => true
  | .port _ | .unused => false

/-- Put a byte behind an address from outside the machine, ROM included; nothing at a port or an unused address. -/
def poke (a : Word) (v : Byte) (s : State) : State :=
  match route s.bus.prgBanks a with
  | .prg i => { s with bus := { s.bus with prg := s.bus.prg.write i v } }
  | .wram _ | .xram _ | .sram _ => memWrite a v s
  | .port _ | .unused => s

/-- Place three instruction bytes at PC, the longest instruction there is; where PC does not designate three bytes of
RAM or ROM, PC goes to work RAM at 0x0000 first (log 14). -/
def placeAtPc (b0 b1 b2 : Byte) (s : State) : State :=
  let k := s.bus.prgBanks
  let pc := s.cpu.pc
  let t := if holdsCode k pc && holdsCode k (pc + 1) && holdsCode k (pc + 2) then s else s.setPc 0
  poke (t.cpu.pc + 2) b2 (poke (t.cpu.pc + 1) b1 (poke t.cpu.pc b0 t))

/-- Place the instruction of a table word (`decodeTableWord`'s numbering) so that the very next step fetches and runs
it: the bytes at PC, no recorded fault, and the CPU's turn (log 14). -/
def placeTableWord (nbits w : Nat) (s : State) : State :=
  let v := w % 2 ^ nbits
  let t := { s with fault := none, host := { s.host with schedule := [] } }
  placeAtPc (BitVec.ofNat 8 v) (BitVec.ofNat 8 (v / 256)) (BitVec.ofNat 8 (v / 65536)) t

end Sys2Proof.Machine
end

