-- ==== Sys2Proof/Machine/Operands.lean ====
section
/-! DEFINITION. The addressing modes (`Resolve`, R105 to R118), `Load` and `Store` (R119), and the operand shapes the
meanings are made of. The instruction bytes have been fetched already: what remains of a mode is its index addition
and its pointer reads. -/

namespace Sys2Proof.Machine

/-- What a mode produces for an instruction with an operand: `acc`, `imm(v)` or `ea(addr)` (R106 to R117). -/
inductive Resolved where
  | acc
  | imm (v : Byte)
  | ea (a : Word)
  deriving DecidableEq, Repr

/-- The pointer in page zero at `p`, its high byte at `(p + 1) mod 256` (R115, R116). -/
def zeroPagePointer (p : Byte) (s : State) : Word × State :=
  let lo := memRead (zext p) s
  let hi := memRead (zext (p + 1)) lo.2
  (wordOf hi.1 lo.1, hi.2)

/-- `Resolve(mode)` (R106 to R117). -/
def resolve (o : Operand) (s : State) : Resolved × State :=
  match o with
  | .acc => (.acc, s)
  | .imm v => (.imm v, s)
  | .zp d => (.ea (zext d), s)
  | .zpx d => (.ea (zext (d + s.cpu.x)), s)
  | .zpy d => (.ea (zext (d + s.cpu.y)), s)
  | .abs a => (.ea a, s)
  | .abx a => (.ea (a + zext s.cpu.x), s)
  | .aby a => (.ea (a + zext s.cpu.y), s)
  | .izx d =>
    let q := zeroPagePointer (d + s.cpu.x) s
    (.ea q.1, q.2)
  | .izy d =>
    let q := zeroPagePointer d s
    (.ea (q.1 + zext s.cpu.y), q.2)
  | .ind a =>
    let q := memReadWord a s
    (.ea q.1, q.2)

/-- The effective address of an operand, if its form has one. -/
def effectiveAddress? (o : Operand) (s : State) : Option Word :=
  match (resolve o s).1 with
  | .ea a => some a
  | .acc => none
  | .imm _ => none

/-- `Load(opnd)` (R119). -/
def load (r : Resolved) (s : State) : Byte × State :=
  match r with
  | .acc => (s.cpu.a, s)
  | .imm v => (v, s)
  | .ea a => memRead a s

/-- `Store(opnd, v)` (R119): never used with `imm`, which has no place to store to. -/
def store (r : Resolved) (v : Byte) (s : State) : Option State :=
  match r with
  | .acc => some (s.setA v)
  | .ea a => some (memWrite a v s)
  | .imm _ => none

/-- `Load(Resolve(mode))`: the operand's value and the state after every access it makes (R86, R119). -/
def readOperand (o : Operand) (s : State) : Byte × State :=
  let r := resolve o s
  load r.1 r.2

/-- A store instruction: resolve, then one write and no read of the effective address (R119, R143). -/
def storeByte (o : Operand) (v : Byte) (s : State) : Result :=
  let r := resolve o s
  match r.1 with
  | .ea a => .next (memWrite a v r.2)
  | .acc => .refused .noEffectiveAddress
  | .imm _ => .refused .noEffectiveAddress

/-- A read-modify-write: resolve, one read, one write, then the flags (R119). `f` gives, from the operand and `P`, the
byte stored and the new `P`. -/
def modify (o : Operand) (f : Byte → Byte → Byte × Byte) (s : State) : Result :=
  let r := resolve o s
  let m := load r.1 r.2
  let q := f m.1 m.2.cpu.p
  match store r.1 q.1 m.2 with
  | some t => .next (t.setP q.2)
  | none => .refused .noEffectiveAddress

/-- A shift or rotate as a read-modify-write function (R180 to R183). -/
def shifting (g : Byte → Bool → Shifted) (m p : Byte) : Byte × Byte :=
  let q := g m (getFlag .c p)
  (q.res, putShifted q p)

end Sys2Proof.Machine
end

