-- ==== Sys2Proof/Machine/Arith.lean ====
section
/-! DEFINITION. Arithmetic, logic, compare and bit-test instructions (41_arithmetic_logic.md). `P.D` is read by none of
them (R160). -/

namespace Sys2Proof.Machine

/-- ADC: the 9-bit sum of A, the operand and C; flags N, V, Z, C (R160). -/
def execAdc (o : Operand) (s : State) : Result :=
  let r := readOperand o s
  let q := addWithCarry r.2.cpu.a r.1 (r.2.flag .c)
  .next ((r.2.setA q.res).setP (putSum q r.2.cpu.p))

/-- SBC: `A - M - (1 - C)`, computed as the addition of `M ^ 0xFF`; flags N, V, Z, C (R161). -/
def execSbc (o : Operand) (s : State) : Result :=
  let r := readOperand o s
  let q := subWithCarry r.2.cpu.a r.1 (r.2.flag .c)
  .next ((r.2.setA q.res).setP (putSum q r.2.cpu.p))

/-- AND: `A <- A & Load(opnd); SetNZ(A)` (R162). -/
def execAnd (o : Operand) (s : State) : Result :=
  let r := readOperand o s
  let v := r.2.cpu.a &&& r.1
  .next ((r.2.setA v).setNZ v)

/-- ORA: `A <- A | Load(opnd); SetNZ(A)` (R163). -/
def execOra (o : Operand) (s : State) : Result :=
  let r := readOperand o s
  let v := r.2.cpu.a ||| r.1
  .next ((r.2.setA v).setNZ v)

/-- EOR: `A <- A ^ Load(opnd); SetNZ(A)` (R164). -/
def execEor (o : Operand) (s : State) : Result :=
  let r := readOperand o s
  let v := r.2.cpu.a ^^^ r.1
  .next ((r.2.setA v).setNZ v)

/-- CMP: N, Z from `A - M`, C is the unsigned `A >= M`; no register changes (R165). -/
def execCmp (o : Operand) (s : State) : Result :=
  let r := readOperand o s
  .next (r.2.setP (putCompare r.2.cpu.a r.1 r.2.cpu.p))

/-- CPX: N, Z from `X - M`, C is the unsigned `X >= M`; no register changes (R166). -/
def execCpx (o : Operand) (s : State) : Result :=
  let r := readOperand o s
  .next (r.2.setP (putCompare r.2.cpu.x r.1 r.2.cpu.p))

/-- CPY: N, Z from `Y - M`, C is the unsigned `Y >= M`; no register changes (R167). -/
def execCpy (o : Operand) (s : State) : Result :=
  let r := readOperand o s
  .next (r.2.setP (putCompare r.2.cpu.y r.1 r.2.cpu.p))

/-- BIT: N and V are bits 7 and 6 of the operand, Z is `(A & M) == 0` (R168). -/
def execBit (o : Operand) (s : State) : Result :=
  let r := readOperand o s
  .next (r.2.setP (putBit r.2.cpu.a r.1 r.2.cpu.p))

end Sys2Proof.Machine
end

