-- ==== Sys2Proof/Machine/Control.lean ====
section
/-! DEFINITION. Control-transfer instructions (44_control_transfer.md). PC in the state a meaning gets is `pc0 + length`
(R25). -/

namespace Sys2Proof.Machine

/-- JMP: `PC <- addr` (R220). -/
def execJmp (o : Operand) (s : State) : Result :=
  let r := resolve o s
  match r.1 with
  | .ea a => .next (r.2.setPc a)
  | .acc => .refused .noEffectiveAddress
  | .imm _ => .refused .noEffectiveAddress

/-- JSR: `Push16(PC); PC <- addr`, PC at the push being `pc0 + 3` (R221). -/
def execJsr (a : Word) (s : State) : Result := .next ((push16 s.cpu.pc s).setPc a)

/-- RTS: `t <- Pop16(); PC <- (t + 1) mod 65536` (R222). -/
def execRts (s : State) : Result :=
  let r := pop16 s
  .next (r.2.setPc (r.1 + 1))

/-- The pattern of the eight branches: if the condition holds, `PC <- (PC + sext_16(d)) mod 65536` (R118, R223). -/
def branchIf (taken : Bool) (d : Byte) (s : State) : State := if taken then s.setPc (s.cpu.pc + sext d) else s

/-- BCC: branch if `P.C == 0` (R223). -/
def execBcc (d : Byte) (s : State) : Result := .next (branchIf (!s.flag .c) d s)

/-- BCS: branch if `P.C == 1` (R224). -/
def execBcs (d : Byte) (s : State) : Result := .next (branchIf (s.flag .c) d s)

/-- BEQ: branch if `P.Z == 1` (R225). -/
def execBeq (d : Byte) (s : State) : Result := .next (branchIf (s.flag .z) d s)

/-- BNE: branch if `P.Z == 0` (R226). -/
def execBne (d : Byte) (s : State) : Result := .next (branchIf (!s.flag .z) d s)

/-- BMI: branch if `P.N == 1` (R227). -/
def execBmi (d : Byte) (s : State) : Result := .next (branchIf (s.flag .n) d s)

/-- BPL: branch if `P.N == 0` (R228). -/
def execBpl (d : Byte) (s : State) : Result := .next (branchIf (!s.flag .n) d s)

/-- BVC: branch if `P.V == 0` (R229). -/
def execBvc (d : Byte) (s : State) : Result := .next (branchIf (!s.flag .v) d s)

/-- BVS: branch if `P.V == 1` (R230). -/
def execBvs (d : Byte) (s : State) : Result := .next (branchIf (s.flag .v) d s)

end Sys2Proof.Machine
end

