-- ==== Sys2Proof/Machine/LoadStore.lean ====
section
/-! DEFINITION. Load, store and register-transfer instructions (40_load_store_transfer.md). The state a meaning gets is the
one the semantic body runs in: PC already points past the instruction (R25). -/

namespace Sys2Proof.Machine

/-- LDA: `v <- Load(opnd); A <- v; SetNZ(v)` (R140). -/
def execLda (o : Operand) (s : State) : Result :=
  let r := readOperand o s
  .next ((r.2.setA r.1).setNZ r.1)

/-- LDX: `v <- Load(opnd); X <- v; SetNZ(v)` (R141). -/
def execLdx (o : Operand) (s : State) : Result :=
  let r := readOperand o s
  .next ((r.2.setX r.1).setNZ r.1)

/-- LDY: `v <- Load(opnd); Y <- v; SetNZ(v)` (R142). -/
def execLdy (o : Operand) (s : State) : Result :=
  let r := readOperand o s
  .next ((r.2.setY r.1).setNZ r.1)

/-- STA: `MemWrite(addr, 1, A)`, no read of the address, no flag (R143). -/
def execSta (o : Operand) (s : State) : Result := storeByte o s.cpu.a s

/-- STX: `MemWrite(addr, 1, X)`, no read of the address, no flag (R144). -/
def execStx (o : Operand) (s : State) : Result := storeByte o s.cpu.x s

/-- STY: `MemWrite(addr, 1, Y)`, no read of the address, no flag (R145). -/
def execSty (o : Operand) (s : State) : Result := storeByte o s.cpu.y s

/-- TAX: `X <- A; SetNZ(X)` (R146). -/
def execTax (s : State) : Result := .next ((s.setX s.cpu.a).setNZ s.cpu.a)

/-- TAY: `Y <- A; SetNZ(Y)` (R147). -/
def execTay (s : State) : Result := .next ((s.setY s.cpu.a).setNZ s.cpu.a)

/-- TXA: `A <- X; SetNZ(A)` (R148). -/
def execTxa (s : State) : Result := .next ((s.setA s.cpu.x).setNZ s.cpu.x)

/-- TYA: `A <- Y; SetNZ(A)` (R149). -/
def execTya (s : State) : Result := .next ((s.setA s.cpu.y).setNZ s.cpu.y)

/-- TSX: `X <- SP; SetNZ(X)` (R150). -/
def execTsx (s : State) : Result := .next ((s.setX s.cpu.sp).setNZ s.cpu.sp)

/-- TXS: `SP <- X`; the one transfer that sets no flag (R151). -/
def execTxs (s : State) : Result := .next (s.setSp s.cpu.x)

end Sys2Proof.Machine
end

