-- ==== Sys2Proof/Machine/Shift.lean ====
section
/-! DEFINITION. Shift, rotate, increment and decrement instructions (42_shift_incdec.md). -/

namespace Sys2Proof.Machine

/-- ASL: `res <- (m << 1)[7:0]; P.C <- m[7]`; `Store(opnd, res); SetNZ(res)` (R180). -/
def execAsl (o : Operand) (s : State) : Result := modify o (shifting shiftLeft) s

/-- LSR: `res <- m >> 1; P.C <- m[0]`; `Store(opnd, res); SetNZ(res)` (R181). -/
def execLsr (o : Operand) (s : State) : Result := modify o (shifting shiftRight) s

/-- ROL: `res <- {m[6:0], c}; P.C <- m[7]`; `Store(opnd, res); SetNZ(res)` (R182). -/
def execRol (o : Operand) (s : State) : Result := modify o (shifting rotateLeft) s

/-- ROR: `res <- {c, m[7:1]}; P.C <- m[0]`; `Store(opnd, res); SetNZ(res)` (R183). -/
def execRor (o : Operand) (s : State) : Result := modify o (shifting rotateRight) s

/-- INC: `res <- (m + 1) mod 256; Store(opnd, res); SetNZ(res)`; C and V unchanged (R184). -/
def execInc (o : Operand) (s : State) : Result := modify o (fun m p => (m + 1, putNZ (m + 1) p)) s

/-- DEC: `res <- (m - 1) mod 256; Store(opnd, res); SetNZ(res)`; C and V unchanged (R185). -/
def execDec (o : Operand) (s : State) : Result := modify o (fun m p => (m - 1, putNZ (m - 1) p)) s

/-- INX: `X <- (X + 1) mod 256; SetNZ(X)` (R186). -/
def execInx (s : State) : Result :=
  let v := s.cpu.x + 1
  .next ((s.setX v).setNZ v)

/-- INY: `Y <- (Y + 1) mod 256; SetNZ(Y)` (R187). -/
def execIny (s : State) : Result :=
  let v := s.cpu.y + 1
  .next ((s.setY v).setNZ v)

/-- DEX: `X <- (X - 1) mod 256; SetNZ(X)` (R188). -/
def execDex (s : State) : Result :=
  let v := s.cpu.x - 1
  .next ((s.setX v).setNZ v)

/-- DEY: `Y <- (Y - 1) mod 256; SetNZ(Y)` (R189). -/
def execDey (s : State) : Result :=
  let v := s.cpu.y - 1
  .next ((s.setY v).setNZ v)

end Sys2Proof.Machine
end

