-- ==== Sys2Proof/Machine/Stack.lean ====
section
/-! DEFINITION. Stack and flag instructions (43_stack_flags.md). -/

namespace Sys2Proof.Machine

/-- PHA: `Push8(A)` (R200). -/
def execPha (s : State) : Result := .next (push8 s.cpu.a s)

/-- PHP: `Push8(P)`, all eight bits as stored (R201). -/
def execPhp (s : State) : Result := .next (push8 s.cpu.p s)

/-- PLA: `A <- Pop8(); SetNZ(A)` (R202). -/
def execPla (s : State) : Result :=
  let r := pop8 s
  .next ((r.2.setA r.1).setNZ r.1)

/-- PLP: `P <- Pop8()`, all eight bits (R203). -/
def execPlp (s : State) : Result :=
  let r := pop8 s
  .next (r.2.setP r.1)

/-- CLC: `P.C <- 0` (R204). -/
def execClc (s : State) : Result := .next (s.setFlag .c false)

/-- SEC: `P.C <- 1` (R205). -/
def execSec (s : State) : Result := .next (s.setFlag .c true)

/-- CLI: `P.I <- 0` (R206). -/
def execCli (s : State) : Result := .next (s.setFlag .i false)

/-- SEI: `P.I <- 1` (R207). -/
def execSei (s : State) : Result := .next (s.setFlag .i true)

/-- CLD: `P.D <- 0` (R208). -/
def execCld (s : State) : Result := .next (s.setFlag .d false)

/-- SED: `P.D <- 1` (R209). -/
def execSed (s : State) : Result := .next (s.setFlag .d true)

/-- CLV: `P.V <- 0` (R210). -/
def execClv (s : State) : Result := .next (s.setFlag .v false)

end Sys2Proof.Machine
end

