-- ==== Sys2Proof/Machine/System.lean ====
section
/-! DEFINITION. System instructions (45_system.md) and the opcode bytes with no body (R250). -/

namespace Sys2Proof.Machine

/-- BRK: `P.B <- 1` and nothing else: one byte, no push, no vector (R240, R254). -/
def execBrk (s : State) : Result := .next (s.setFlag .b true)

/-- RTI: `P <- Pop8(); PC <- Pop16()` (R241). -/
def execRti (s : State) : Result := .next (trapReturn s)

/-- NOP: nothing; PC has already advanced (R242). -/
def execNop (s : State) : Result := .next s

/-- An opcode byte with no body takes the one exception: the next state is the faulted one (R250, R251; log 6). -/
def execIllegal (opcode : Byte) (s : State) : Result := .next (raiseUnimplemented opcode s)

end Sys2Proof.Machine
end

