-- ==== Sys2Proof/Machine/Render.lean ====
section
/-! DEFINITION. Palette resolution, tile decode and the frame (R285 to R292). A pixel is worked out as the 6-bit index
into `PALETTE_RGB`; the table is applied last. The loops of R291 and R292 write each pixel on its own, so the frame is
given pixel by pixel, the sprites painted over the background in index order (log 8). -/

namespace Sys2Proof.Machine

/-- `VRAM[a]` (R12, R41). -/
def Ppu.vramAt (u : Ppu) (a : Word) : Byte := u.vram.read a.toNat

/-- `OAM[i]` (R12, R42). -/
def Ppu.oamAt (u : Ppu) (i : Nat) : Byte := u.oam.read i

/-- `PaletteAddr(sel, px)` (R285). -/
def paletteAddr (sel : BitVec 3) (px : BitVec 2) : Word :=
  if px = 0 then 0x3F00 else 0x3F00 + (sel.setWidth 16 * 4 + px.setWidth 16)

/-- The table index of `Colour(sel, px)`: the stored byte masked to 6 bits (R286). -/
def colourIndex (u : Ppu) (sel : BitVec 3) (px : BitVec 2) : BitVec 6 := (u.vramAt (paletteAddr sel px)).setWidth 6

/-- `Colour(sel, px)` (R286). -/
def colour (u : Ppu) (sel : BitVec 3) (px : BitVec 2) : Rgb := Config.paletteRgb (colourIndex u sel px)

/-- `TilePixel(T, r, c)`: row `r`, column `c`, each 0 to 7, column 0 leftmost (R287). -/
def tilePixel (u : Ppu) (tile : Word) (r c : Nat) : BitVec 2 :=
  let lo := u.vramAt (tile + BitVec.ofNat 16 r)
  let hi := u.vramAt (tile + 8 + BitVec.ofNat 16 r)
  BitVec.ofBool (hi.getLsbD (7 - c)) ++ BitVec.ofBool (lo.getLsbD (7 - c))

/-- `BgBase` (R288). -/
def bgBase (u : Ppu) : Word := if u.ctrl.getLsbD 4 then 0x1000 else 0x0000

/-- `SpriteBase` (R288). -/
def spriteBase (u : Ppu) : Word := if u.ctrl.getLsbD 3 then 0x1000 else 0x0000

/-- The base address of tile `n` of a bank (R288). -/
def tileBase (base : Word) (n : Byte) : Word := base + zext n * 16

/-- The background pass at pixel `(x, y)` (R291): name table at 0x2000, 32 entries a row, palette-select 0. -/
def backgroundIndex (u : Ppu) (x y : Nat) : BitVec 6 :=
  let n := u.vramAt (BitVec.ofNat 16 (0x2000 + (y / 8) * 32 + x / 8))
  colourIndex u 0 (tilePixel u (tileBase (bgBase u) n) (y % 8) (x % 8))

/-- What sprite `i` paints at pixel `(x, y)`; `none` where it does not reach (R292). -/
def spriteIndex? (u : Ppu) (i x y : Nat) : Option (BitVec 6) :=
  let sy := (u.oamAt (4 * i)).toNat
  let n := u.oamAt (4 * i + 1)
  let attr := u.oamAt (4 * i + 2)
  let sx := (u.oamAt (4 * i + 3)).toNat
  if sx ≤ x ∧ x < sx + 8 ∧ sy ≤ y ∧ y < sy + 8 then
    some (colourIndex u (4 + (attr.setWidth 2).setWidth 3) (tilePixel u (tileBase (spriteBase u) n) (y - sy) (x - sx)))
  else none

/-- The table index of the pixel `(x, y)`: the background, then the sprites 0 to 63, a later one over an earlier one
(R290, R292). -/
def pixelIndex (u : Ppu) (x y : Nat) : BitVec 6 :=
  (List.range 64).foldl (fun under i => (spriteIndex? u i x y).getD under) (backgroundIndex u x y)

/-- The colour `buf[x, y]` (R289, R290). -/
def pixel (u : Ppu) (x y : Nat) : Rgb := Config.paletteRgb (pixelIndex u x y)

/-- `RenderFrame`: 240 rows of 256 pixels (R289, R290). -/
def renderFrame (u : Ppu) : Frame := (List.range 240).map fun y => (List.range 256).map fun x => pixel u x y

end Sys2Proof.Machine
end

