-- ==== Sys2Proof/Machine/HostOps.lean ====
section
/-! DEFINITION. What the host does to the machine: `Reset` (R320), `PpuStep` (R262), rendering and the `draw_now`
handshake (R260, R263), the OAM DMA copy of the extension (R282), the launch (R321) and the simulator's schedule
(R262). -/

namespace Sys2Proof.Machine

/-- `Reset`: PC from the word at 0xFFFC, `P.I <- 1`, nothing else (R320, R51). -/
def applyReset (s : State) : State :=
  let v := memReadWord 0xFFFC s
  (v.2.setPc v.1).setFlag .i true

/-- `PpuStep` (R262). -/
def ppuStep (s : State) : State := s.setPpu (ppuStepped s.ppu)

/-- `RenderFrame` into the host's buffer, then `draw_now <- 0` (R260, R290). -/
def hostRender (s : State) : State :=
  { s with ppu := { s.ppu with drawNow := false }, host := { s.host with frame := renderFrame s.ppu } }

/-- The host's check of `draw_now` (R263). -/
def hostPresent (s : State) : State := if s.ppu.drawNow then hostRender s else s

/-- One byte of the copy: `OAM[(oam_addr + i) mod 256] <- MemRead({v, i[7:0]}, 1)` (R282). -/
def oamDmaCopyByte (v : Byte) (s : State) (i : Nat) : State :=
  let r := memRead (wordOf v (BitVec.ofNat 8 i)) s
  let u := r.2.ppu
  r.2.setPpu { u with oam := u.oam.write (u.oamAddr + BitVec.ofNat 8 i).toNat r.1 }

/-- The copy of 256 bytes from page `v` (R282). -/
def oamDmaCopy (v : Byte) (s : State) : State := (List.range 256).foldl (oamDmaCopyByte v) s

/-- What the host does after a CPU step and before the next one: nothing in the normative `stub` mode, the copy for
each request the step made in `copy` mode (R281, R282; log 11). -/
def serveOamDma (before after : State) : State :=
  match after.host.oamDmaMode with
  | .stub => after
  | .copy => (after.ppu.oamdmaReq.drop before.ppu.oamdmaReq.length).foldl (fun s v => oamDmaCopy v s) after

/-! ## Launch -/

/-- `POWER_ON`: the initial value of every element the document does not initialise (R10, R50). -/
structure PowerOn where
  a : Byte
  x : Byte
  y : Byte
  sp : Byte
  p : Byte
  wram : Memory
  xram : Memory
  sram : Memory
  vram : Memory
  oam : Memory
  ctrl : Byte
  mask : Byte
  status : Byte
  oamAddr : Byte
  scrollX : Byte
  scrollY : Byte
  vramAddr : Word
  deriving DecidableEq, Repr

/-- The simulator's default, all zero (R50, 92_eei_decisions.md D2). -/
def PowerOn.zero : PowerOn :=
  { a := 0, x := 0, y := 0, sp := 0, p := 0, wram := [], xram := [], sram := [], vram := [], oam := [], ctrl := 0,
    mask := 0, status := 0, oamAddr := 0, scrollX := 0, scrollY := 0, vramAddr := 0 }

/-- The record's arrays are arrays of the sizes of R38, R41 and R42. -/
abbrev PowerOn.wf (q : PowerOn) : Prop :=
  q.wram.wf 2048 ∧ q.xram.wf 8160 ∧ q.sram.wf 8192 ∧ q.vram.wf 65536 ∧ q.oam.wf 256

/-- What the host gives at launch (R10, R261). -/
structure Launch where
  prgBanks : Nat
  prg : List Byte
  chr : List Byte
  powerOn : PowerOn
  oamDmaMode : OamDmaMode
  schedule : List Turn
  deriving DecidableEq, Repr

/-- Why a launch is refused. -/
inductive LaunchRefusal where
  /-- `PRG_BANKS` is neither 1 nor 2 (R70, R325) -/
  | prgBanks
  /-- `PRG` is not `PRG_BANKS * 16384` bytes long (R10, R261) -/
  | prgLength
  /-- `CHR` is longer than 8192 bytes (R10) -/
  | chrLength
  deriving DecidableEq, Repr

/-- The state power-on builds, before `Reset`: PC is set by `Reset` (R50, R321 step 2). -/
def powerOnState (k : PrgBanks) (l : Launch) : State :=
  let q := l.powerOn
  { cpu := { a := q.a, x := q.x, y := q.y, sp := q.sp, p := q.p, pc := 0 }
    bus := { wram := q.wram, xram := q.xram, sram := q.sram, prg := Memory.ofBytesFrom 0 l.prg, prgBanks := k }
    ppu :=
      { ctrl := q.ctrl, mask := q.mask, status := q.status, vram := q.vram.overlay 0 l.chr, oam := q.oam,
        oamAddr := q.oamAddr, scrollX := q.scrollX, scrollY := q.scrollY, vramAddr := q.vramAddr, w := false,
        drawNow := false, oamdmaReq := [] }
    host := { schedule := l.schedule, oamDmaMode := l.oamDmaMode, frame := [] }
    fault := none }

/-- The bank count of a launch (R70). -/
def bankCount? : Nat → Option PrgBanks
  | 1 => some .one
  | 2 => some .two
  | _ => none

/-- The launch sequence up to the first `Step` (R321). -/
def launch (l : Launch) : Except LaunchRefusal State :=
  match bankCount? l.prgBanks with
  | none => .error .prgBanks
  | some k =>
    if l.prg.length ≠ k.size then .error .prgLength
    else if 8192 < l.chr.length then .error .chrLength
    else .ok (applyReset (powerOnState k l))

/-- The deterministic simulator's schedule for `n` CPU steps: a `PpuStep` after every `ratio`-th one (R262). The
machine's ratio is `Config.ppuStepRatio`. -/
def simulatorSchedule (ratio n : Nat) : List Turn :=
  (List.range n).flatMap fun k => if (k + 1) % ratio = 0 then [.cpu, .ppuStep] else [.cpu]

end Sys2Proof.Machine
end

