-- ==== Sys2Proof/Machine/Turn.lean ====
section
/-! DEFINITION. The agent operations a step is made of: the CPU's `Step` (R100) and the host's (R260). -/

namespace Sys2Proof.Machine

/-- `Step` (R100): fetch and decode at PC, then the instruction's meaning in the state after the fetch. -/
def cpuStep (s : State) : Result := exec (fetchInstr s).1 (fetchInstr s).2

/-- A CPU step and what the host does before the next one (R282; nothing in the normative mode). -/
def cpuTurn (s : State) : Result :=
  match cpuStep s with
  | .next t => .next (serveOamDma s t)
  | .fault r => .fault r
  | .refused r => .refused r

/-- One agent operation (R9, R260). -/
def runTurn (t : Turn) (s : State) : Result :=
  match t with
  | .cpu => cpuTurn s
  | .ppuStep => .next (ppuStep s)
  | .renderFrame => .next (hostRender s)
  | .present => .next (hostPresent s)
  | .reset => .next (applyReset s)

/-- The state with another schedule. -/
def State.withSchedule (l : List Turn) (s : State) : State := { s with host := { s.host with schedule := l } }

end Sys2Proof.Machine
end

