-- ==== Sys2Proof/Machine/Step.lean ====
section
/-! DEFINITION. One step of the machine: one agent operation (R9, R258). The schedule in the state says whose; an empty
schedule means the CPU (log 7). A faulted state has no successor (R251, 92_eei_decisions.md D40). -/

namespace Sys2Proof.Machine

/-- One step of the machine. -/
def step (s : State) : Host.Outcome State Fault Refusal :=
  match s.fault with
  | some f => .fault (.unimplementedInstruction f.opcode f.pc)
  | none =>
    match s.host.schedule with
    | [] => cpuTurn s
    | t :: rest => runTurn t (s.withSchedule rest)

/-- The state in which the very next step fetches and runs the instruction of a table word (log 14). -/
def State.withFetchWord (s : State) (nbits w : Nat) : State := placeTableWord nbits w s

end Sys2Proof.Machine
end

