-- ==== Sys2Proof/Safety.lean ====
section
/-! DEFINITION. The terms claims are stated in: which states are still running, the invariant of the state's data,
and the frames of reads, flags and registers. -/

namespace Sys2Proof.Safety

open Sys2Proof.Machine

/-! ## Running and well-formed states -/

/-- The machine has not faulted: a faulted state is never the final state of a successful run (R251). A claim that a
step "succeeds" says this of its next state, since an illegal opcode's step is a next state too (log 6). -/
abbrev Running (s : State) : Prop := s.fault = none

/-- A pixel buffer of 240 rows of 256 pixels (R289), or none yet. -/
abbrev FrameWf (f : Frame) : Prop := f = [] ∨ (f.length = 240 ∧ ∀ row ∈ f, row.length = 256)

/-- Every memory is in its canonical form and within its size (R38, R41, R42), the frame within R289. -/
abbrev StateWf (s : State) : Prop :=
  s.bus.wram.wf 2048 ∧ s.bus.xram.wf 8160 ∧ s.bus.sram.wf 8192 ∧ s.bus.prg.wf s.bus.prgBanks.size ∧
    s.ppu.vram.wf 65536 ∧ s.ppu.oam.wf 256 ∧ FrameWf s.host.frame

/-! ## Addresses -/

/-- The nine addresses whose accesses may have side effects (R78, R280). -/
def isPort (a : Word) : Bool := decide ((0x2000 ≤ a.toNat ∧ a.toNat ≤ 0x2007) ∨ a.toNat = 0x4014)

/-- The addresses of the three read-write memories (R63, R68, R69). -/
def isRam (a : Word) : Bool := decide (a.toNat < 0x0800 ∨ (0x4020 ≤ a.toNat ∧ a.toNat < 0x8000))

/-- The addresses of program ROM (R70). -/
def isRom (a : Word) : Bool := decide (0x8000 ≤ a.toNat)

/-- The addresses with nothing behind them (R64, R65, R66). -/
def isUnused (a : Word) : Bool :=
  decide ((0x0800 ≤ a.toNat ∧ a.toNat ≤ 0x1FFF) ∨ (0x2008 ≤ a.toNat ∧ a.toNat ≤ 0x4013) ∨
    (0x4015 ≤ a.toNat ∧ a.toNat ≤ 0x401F))

/-! ## Frames -/

/-- The status bits outside the list are unchanged. -/
def KeepsFlags (written : List Flag) (p q : Byte) : Prop := ∀ f, f ∉ written → getFlag f q = getFlag f p

/-- N and Z of `q` are those of the result `v` (R36). -/
def HasNZ (v q : Byte) : Prop := getFlag .n q = v.getLsbD 7 ∧ getFlag .z q = decide (v = 0)

/-- Every byte the bus reads outside the ports is unchanged. -/
def SameBytes (s t : State) : Prop := ∀ b, isPort b = false → peek b t = peek b s

/-- Every byte the bus reads outside the ports is unchanged, but for the one at `a`. -/
def SameBytesExcept (a : Word) (s t : State) : Prop := ∀ b, isPort b = false → b ≠ a → peek b t = peek b s

/-- Video and sprite memory are unchanged. -/
def SameVideo (s t : State) : Prop := t.ppu.vram = s.ppu.vram ∧ t.ppu.oam = s.ppu.oam

/-- What no instruction with a body touches: the host's side and the fault. -/
def SameRest (s t : State) : Prop := t.host = s.host ∧ t.fault = s.fault

/-- Only the CPU's registers may differ. -/
def OnlyCpu (s t : State) : Prop := t.bus = s.bus ∧ t.ppu = s.ppu ∧ SameBytes s t ∧ SameRest s t

/-- Outside the CPU's registers, `t` is what reading the operand leaves: no memory changes, and the PPU changes only as
the port reads of the operand change it. -/
def OnlyReads (o : Operand) (s t : State) : Prop :=
  t.bus = s.bus ∧ t.ppu = (readOperand o s).2.ppu ∧ SameBytes s t ∧ SameVideo s t ∧ SameRest s t ∧
    (o.mode ≠ .ind → (∀ a, effectiveAddress? o s = some a → isPort a = false) → t.ppu = s.ppu)

/-- Outside the CPU's registers, `t` is `u` after one write of `v` to `a`: every byte outside the ports and outside `a`
reads as in `s`; a RAM address holds the byte written; unless `a` is a port the PPU is as in `u`. -/
def OneStore (a : Word) (v : Byte) (s u t : State) : Prop :=
  t.bus = (memWrite a v u).bus ∧ t.ppu = (memWrite a v u).ppu ∧ SameBytesExcept a s t ∧
    (isRam a = true → peek a t = v) ∧ (isRam a = false → t.bus = s.bus) ∧
    (isPort a = false → t.ppu = u.ppu) ∧ SameRest s t

/-! ## Encodings -/

/-- The opcode bytes and modes of a mnemonic are exactly the listed ones. -/
def Encodings (c : Mnemonic) (rows : List (Mode × Byte)) : Prop :=
  ∀ (b : Byte) (m : Mode), ((descriptor b).cls = c ∧ (descriptor b).mode = m) ↔ (m, b) ∈ rows

/-! ## Shapes several instructions share -/

/-- A compare of the register value `reg` with the operand `o`: C is the unsigned `reg >= M`, N and Z come from the
difference modulo 256, nothing else is written. -/
def ComparesWith (i : Instr) (reg : Byte) (o : Operand) (s : State) : Prop :=
  let m := (readOperand o s).1
  ∃ t, exec i s = .next t ∧ t.cpu = { s.cpu with p := t.cpu.p } ∧
    getFlag .c t.cpu.p = decide (m.toNat ≤ reg.toNat) ∧ getFlag .z t.cpu.p = decide (reg = m) ∧
    getFlag .n t.cpu.p = decide (128 ≤ (reg.toNat + 256 - m.toNat) % 256) ∧
    KeepsFlags [.n, .z, .c] s.cpu.p t.cpu.p ∧ OnlyReads o s t

/-- A read-modify-write of the operand `o` whose result is `res` and whose carry out, if it writes C, is `carry`: in the
accumulator form A takes the result, in a memory form there is one write of it to the effective address, in the state
the one read leaves. -/
def ModifiesOperand (i : Instr) (o : Operand) (s : State) (written : List Flag) (res : Byte)
    (carry : Option Bool) : Prop :=
  (o = .acc → ∃ t, exec i s = .next t ∧ t.cpu = { s.cpu with a := res, p := t.cpu.p } ∧ HasNZ res t.cpu.p ∧
    (∀ c, carry = some c → getFlag .c t.cpu.p = c) ∧ KeepsFlags written s.cpu.p t.cpu.p ∧ OnlyCpu s t) ∧
  (∀ a, effectiveAddress? o s = some a → ∃ t, exec i s = .next t ∧ t.cpu = { s.cpu with p := t.cpu.p } ∧
    HasNZ res t.cpu.p ∧ (∀ c, carry = some c → getFlag .c t.cpu.p = c) ∧ KeepsFlags written s.cpu.p t.cpu.p ∧
    OneStore a res s (readOperand o s).2 t)

/-- A push of `v`: the byte goes to `0x0100 + SP`, then SP counts up modulo 256; nothing else changes. -/
def Pushes (i : Instr) (v : Byte) (s : State) : Prop :=
  let slot : Word := 0x0100 + zext s.cpu.sp
  ∃ t, exec i s = .next t ∧ t.cpu = { s.cpu with sp := s.cpu.sp + 1 } ∧ peek slot t = v ∧
    SameBytesExcept slot s t ∧ t.ppu = s.ppu ∧ SameRest s t

/-- An instruction that writes one flag and nothing else. -/
def WritesFlagOnly (i : Instr) (f : Flag) (v : Bool) : Prop :=
  ∀ s : State, ∃ t, exec i s = .next t ∧ t.cpu = { s.cpu with p := t.cpu.p } ∧ getFlag f t.cpu.p = v ∧
    KeepsFlags [f] s.cpu.p t.cpu.p ∧ OnlyCpu s t

/-- A branch that is taken exactly when the flag has this value: the target is PC (`pc0 + 2`) plus the signed offset,
modulo 65536. -/
def BranchesOn (mk : Byte → Instr) (f : Flag) (v : Bool) : Prop :=
  ∀ (d : Byte) (s : State), ∃ t, exec (mk d) s = .next t ∧ t.cpu = { s.cpu with pc := t.cpu.pc } ∧
    (getFlag f s.cpu.p = v → t.cpu.pc = BitVec.ofInt 16 ((s.cpu.pc.toNat : Int) + d.toInt)) ∧
    (getFlag f s.cpu.p ≠ v → t.cpu.pc = s.cpu.pc) ∧ OnlyCpu s t

/-- The state after `n` instruction bytes have been fetched (R101). -/
def afterFetch : Nat → State → State
  | 0, s => s
  | n + 1, s => (fetch8 (afterFetch n s)).2

/-- The bytes three fetches in a row give, port reads and their side effects included. -/
def fetchedBytes (s : State) : List Byte :=
  [(fetch8 s).1, (fetch8 (afterFetch 1 s)).1, (fetch8 (afterFetch 2 s)).1]

/-- None of the `n` bytes from PC on is at a port. -/
def PlainFetch (s : State) (n : Nat) : Prop := ∀ k, k < n → isPort (s.cpu.pc + BitVec.ofNat 16 k) = false

/-! ## Turns and schedules -/

/-- It is the CPU's turn in the running state `s`, and `u` is the state it steps in: the schedule is empty and `u` is
`s`, or a CPU turn is at its head and `u` is `s` without it (log 7). -/
abbrev CpusTurn (s u : State) : Prop :=
  Running s ∧ ((s.host.schedule = [] ∧ u = s) ∨ ∃ rest, s.host.schedule = .cpu :: rest ∧ u = s.withSchedule rest)

/-- A run without end under an open schedule: `turn n` is the agent operation the host takes in `run n`, any operation
at any point (R258, R262). -/
abbrev RunsUnder (turn : Nat → Turn) (run : Nat → State) : Prop :=
  ∀ n, step ((run n).withSchedule [turn n]) = .next (run (n + 1))

/-- THE FAIRNESS ASSUMPTION R339 asks a model to state: under the open schedule, after every point of the run the host
takes another `PpuStep` turn. A claim that a loop polling the vertical-blank flag ends under the open schedule takes
this as a hypothesis; nothing in the model grants it (log 21). -/
abbrev VblankFair (turn : Nat → Turn) : Prop := ∀ n, ∃ m, n ≤ m ∧ turn m = .ppuStep

/-- R23: the instructions that write each flag. -/
def flagWriters : Flag → List Mnemonic
  | .n | .z => [.lda, .ldx, .ldy, .tax, .tay, .txa, .tya, .tsx, .pla, .adc, .sbc, .and, .ora, .eor, .cmp, .cpx, .cpy,
      .bit, .asl, .lsr, .rol, .ror, .inc, .dec, .inx, .iny, .dex, .dey, .plp, .rti]
  | .v => [.adc, .sbc, .bit, .clv, .plp, .rti]
  | .r => [.plp, .rti]
  | .b => [.brk, .plp, .rti]
  | .d => [.sed, .cld, .plp, .rti]
  | .i => [.sei, .cli, .plp, .rti]
  | .c => [.adc, .sbc, .cmp, .cpx, .cpy, .asl, .lsr, .rol, .ror, .sec, .clc, .plp, .rti]

/-- Two states that differ at most in what no CPU instruction can read: the write-only CTRL, MASK and scroll values,
`draw_now`, `oamdma_req`, and what the host holds. -/
def SameToTheCpu (s t : State) : Prop :=
  s.cpu = t.cpu ∧ s.bus = t.bus ∧ s.fault = t.fault ∧ s.ppu.status = t.ppu.status ∧ s.ppu.vram = t.ppu.vram ∧
    s.ppu.oam = t.ppu.oam ∧ s.ppu.oamAddr = t.ppu.oamAddr ∧ s.ppu.vramAddr = t.ppu.vramAddr ∧ s.ppu.w = t.ppu.w

end Sys2Proof.Safety
end

