-- ==== Sys2Proof/Certificates/Slice0/Obligations.lean ====
section
/-! DEFINITION. The statements for the provers, each from the numbered rules its docstring cites. The words they are
said in are Sys2Proof/Safety.lean's. -/

open Sys2Proof Sys2Proof.Machine Sys2Proof.Safety

/-! ## Loads, stores, transfers -/

/-- R140 to R142: LDA, LDX and LDY put the operand's value into their register and set N and Z from it; no other
register, flag, memory byte or PPU memory changes, and the PPU changes only as the operand's own port reads change it. -/
def Obligations.LoadsTakeTheOperand : Prop :=
  Encodings .lda [(.imm, 0xA9), (.zp, 0xA5), (.zpx, 0xB5), (.abs, 0xAD), (.abx, 0xBD), (.aby, 0xB9), (.izx, 0xA1),
    (.izy, 0xB1)] ∧
  Encodings .ldx [(.imm, 0xA2), (.zp, 0xA6), (.zpy, 0xB6), (.abs, 0xAE), (.aby, 0xBE)] ∧
  Encodings .ldy [(.imm, 0xA0), (.zp, 0xA4), (.zpx, 0xB4), (.abs, 0xAC), (.abx, 0xBC)] ∧
  ∀ (o : Operand) (s : State),
    let v := (readOperand o s).1
    (∃ t, exec (.lda o) s = .next t ∧ t.cpu = { s.cpu with a := v, p := t.cpu.p } ∧ HasNZ v t.cpu.p ∧
      KeepsFlags [.n, .z] s.cpu.p t.cpu.p ∧ OnlyReads o s t) ∧
    (∃ t, exec (.ldx o) s = .next t ∧ t.cpu = { s.cpu with x := v, p := t.cpu.p } ∧ HasNZ v t.cpu.p ∧
      KeepsFlags [.n, .z] s.cpu.p t.cpu.p ∧ OnlyReads o s t) ∧
    (∃ t, exec (.ldy o) s = .next t ∧ t.cpu = { s.cpu with y := v, p := t.cpu.p } ∧ HasNZ v t.cpu.p ∧
      KeepsFlags [.n, .z] s.cpu.p t.cpu.p ∧ OnlyReads o s t)

/-- R143 to R145: STA, STX and STY make one write of their register to the effective address, in the state resolving
the operand leaves (no read of the address), and touch no register and no flag. -/
def Obligations.StoresWriteTheRegister : Prop :=
  Encodings .sta [(.zp, 0x85), (.zpx, 0x95), (.abs, 0x8D), (.abx, 0x9D), (.aby, 0x99), (.izx, 0x81), (.izy, 0x91)] ∧
  Encodings .stx [(.zp, 0x86), (.zpy, 0x96), (.abs, 0x8E)] ∧
  Encodings .sty [(.zp, 0x84), (.zpx, 0x94), (.abs, 0x8C)] ∧
  ∀ (o : Operand) (s : State) (a : Word), effectiveAddress? o s = some a →
    (∃ t, exec (.sta o) s = .next t ∧ t.cpu = s.cpu ∧ OneStore a s.cpu.a s (resolve o s).2 t) ∧
    (∃ t, exec (.stx o) s = .next t ∧ t.cpu = s.cpu ∧ OneStore a s.cpu.x s (resolve o s).2 t) ∧
    (∃ t, exec (.sty o) s = .next t ∧ t.cpu = s.cpu ∧ OneStore a s.cpu.y s (resolve o s).2 t)

/-- The model's own stop (log 13): an operand form with no effective address, which no encoding has for these
mnemonics, is refused by name where the instruction needs an address. -/
def Obligations.FormsWithoutAddressAreRefused : Prop :=
  ∀ (o : Operand) (s : State), effectiveAddress? o s = none →
    exec (.sta o) s = .refused .noEffectiveAddress ∧ exec (.stx o) s = .refused .noEffectiveAddress ∧
    exec (.sty o) s = .refused .noEffectiveAddress ∧ exec (.jmp o) s = .refused .noEffectiveAddress ∧
    (o ≠ .acc → exec (.asl o) s = .refused .noEffectiveAddress ∧ exec (.lsr o) s = .refused .noEffectiveAddress ∧
      exec (.rol o) s = .refused .noEffectiveAddress ∧ exec (.ror o) s = .refused .noEffectiveAddress ∧
      exec (.inc o) s = .refused .noEffectiveAddress ∧ exec (.dec o) s = .refused .noEffectiveAddress) ∧
    (Instr.sta o).wf = false ∧ (Instr.stx o).wf = false ∧ (Instr.sty o).wf = false ∧ (Instr.jmp o).wf = false ∧
    (o ≠ .acc → (Instr.asl o).wf = false ∧ (Instr.lsr o).wf = false ∧ (Instr.rol o).wf = false ∧
      (Instr.ror o).wf = false) ∧
    (Instr.inc o).wf = false ∧ (Instr.dec o).wf = false

/-- R146 to R151: the transfers copy one register; all but TXS set N and Z from the value. -/
def Obligations.TransfersCopyOneRegister : Prop :=
  Encodings .tax [(.imp, 0xAA)] ∧ Encodings .tay [(.imp, 0xA8)] ∧ Encodings .txa [(.imp, 0x8A)] ∧
  Encodings .tya [(.imp, 0x98)] ∧ Encodings .tsx [(.imp, 0xBA)] ∧ Encodings .txs [(.imp, 0x9A)] ∧
  ∀ s : State,
    (∃ t, exec .tax s = .next t ∧ t.cpu = { s.cpu with x := s.cpu.a, p := t.cpu.p } ∧ HasNZ s.cpu.a t.cpu.p ∧
      KeepsFlags [.n, .z] s.cpu.p t.cpu.p ∧ OnlyCpu s t) ∧
    (∃ t, exec .tay s = .next t ∧ t.cpu = { s.cpu with y := s.cpu.a, p := t.cpu.p } ∧ HasNZ s.cpu.a t.cpu.p ∧
      KeepsFlags [.n, .z] s.cpu.p t.cpu.p ∧ OnlyCpu s t) ∧
    (∃ t, exec .txa s = .next t ∧ t.cpu = { s.cpu with a := s.cpu.x, p := t.cpu.p } ∧ HasNZ s.cpu.x t.cpu.p ∧
      KeepsFlags [.n, .z] s.cpu.p t.cpu.p ∧ OnlyCpu s t) ∧
    (∃ t, exec .tya s = .next t ∧ t.cpu = { s.cpu with a := s.cpu.y, p := t.cpu.p } ∧ HasNZ s.cpu.y t.cpu.p ∧
      KeepsFlags [.n, .z] s.cpu.p t.cpu.p ∧ OnlyCpu s t) ∧
    (∃ t, exec .tsx s = .next t ∧ t.cpu = { s.cpu with x := s.cpu.sp, p := t.cpu.p } ∧ HasNZ s.cpu.sp t.cpu.p ∧
      KeepsFlags [.n, .z] s.cpu.p t.cpu.p ∧ OnlyCpu s t) ∧
    (∃ t, exec .txs s = .next t ∧ t.cpu = { s.cpu with sp := s.cpu.x } ∧ OnlyCpu s t)

/-! ## Arithmetic, logic, compare, bit test -/

/-- R160: ADC adds A, the operand and C in nine bits, whatever D holds; V is 1 exactly when the signed sum leaves -128
to 127. -/
def Obligations.AdcAddsInNineBits : Prop :=
  Encodings .adc [(.imm, 0x69), (.zp, 0x65), (.zpx, 0x75), (.abs, 0x6D), (.abx, 0x7D), (.aby, 0x79), (.izx, 0x61),
    (.izy, 0x71)] ∧
  ∀ (o : Operand) (s : State),
    let m := (readOperand o s).1
    let a := s.cpu.a
    let c := (getFlag .c s.cpu.p).toNat
    ∃ t, exec (.adc o) s = .next t ∧ t.cpu = { s.cpu with a := t.cpu.a, p := t.cpu.p } ∧
      t.cpu.a.toNat = (a.toNat + m.toNat + c) % 256 ∧
      getFlag .c t.cpu.p = decide (255 < a.toNat + m.toNat + c) ∧
      getFlag .v t.cpu.p = decide (a.toInt + m.toInt + c < -128 ∨ 127 < a.toInt + m.toInt + c) ∧
      HasNZ t.cpu.a t.cpu.p ∧ KeepsFlags [.n, .v, .z, .c] s.cpu.p t.cpu.p ∧ OnlyReads o s t

/-- R161: SBC computes `A - M - (1 - C)` modulo 256, whatever D holds; C is 1 exactly when there is no borrow, V
exactly when the signed difference leaves -128 to 127. -/
def Obligations.SbcSubtractsWithBorrow : Prop :=
  Encodings .sbc [(.imm, 0xE9), (.zp, 0xE5), (.zpx, 0xF5), (.abs, 0xED), (.abx, 0xFD), (.aby, 0xF9), (.izx, 0xE1),
    (.izy, 0xF1)] ∧
  ∀ (o : Operand) (s : State),
    let m := (readOperand o s).1
    let a := s.cpu.a
    let borrow : Int := if getFlag .c s.cpu.p then 0 else 1
    ∃ t, exec (.sbc o) s = .next t ∧ t.cpu = { s.cpu with a := t.cpu.a, p := t.cpu.p } ∧
      (t.cpu.a.toNat : Int) = ((a.toNat : Int) - m.toNat - borrow) % 256 ∧
      getFlag .c t.cpu.p = decide (0 ≤ (a.toNat : Int) - m.toNat - borrow) ∧
      getFlag .v t.cpu.p = decide (a.toInt - m.toInt - borrow < -128 ∨ 127 < a.toInt - m.toInt - borrow) ∧
      HasNZ t.cpu.a t.cpu.p ∧ KeepsFlags [.n, .v, .z, .c] s.cpu.p t.cpu.p ∧ OnlyReads o s t

/-- R162 to R164: AND, ORA and EOR combine A with the operand bit by bit and set N and Z. -/
def Obligations.LogicCombinesBits : Prop :=
  Encodings .and [(.imm, 0x29), (.zp, 0x25), (.zpx, 0x35), (.abs, 0x2D), (.abx, 0x3D), (.aby, 0x39), (.izx, 0x21),
    (.izy, 0x31)] ∧
  Encodings .ora [(.imm, 0x09), (.zp, 0x05), (.zpx, 0x15), (.abs, 0x0D), (.abx, 0x1D), (.aby, 0x19), (.izx, 0x01),
    (.izy, 0x11)] ∧
  Encodings .eor [(.imm, 0x49), (.zp, 0x45), (.zpx, 0x55), (.abs, 0x4D), (.abx, 0x5D), (.aby, 0x59), (.izx, 0x41),
    (.izy, 0x51)] ∧
  ∀ (o : Operand) (s : State),
    let m := (readOperand o s).1
    (∃ t, exec (.and o) s = .next t ∧ t.cpu = { s.cpu with a := t.cpu.a, p := t.cpu.p } ∧
      (∀ i, t.cpu.a.getLsbD i = (s.cpu.a.getLsbD i && m.getLsbD i)) ∧ HasNZ t.cpu.a t.cpu.p ∧
      KeepsFlags [.n, .z] s.cpu.p t.cpu.p ∧ OnlyReads o s t) ∧
    (∃ t, exec (.ora o) s = .next t ∧ t.cpu = { s.cpu with a := t.cpu.a, p := t.cpu.p } ∧
      (∀ i, t.cpu.a.getLsbD i = (s.cpu.a.getLsbD i || m.getLsbD i)) ∧ HasNZ t.cpu.a t.cpu.p ∧
      KeepsFlags [.n, .z] s.cpu.p t.cpu.p ∧ OnlyReads o s t) ∧
    (∃ t, exec (.eor o) s = .next t ∧ t.cpu = { s.cpu with a := t.cpu.a, p := t.cpu.p } ∧
      (∀ i, t.cpu.a.getLsbD i = (s.cpu.a.getLsbD i ^^ m.getLsbD i)) ∧ HasNZ t.cpu.a t.cpu.p ∧
      KeepsFlags [.n, .z] s.cpu.p t.cpu.p ∧ OnlyReads o s t)

/-- R165 to R167: CMP, CPX and CPY set C, N and Z from the unsigned comparison and change no register. -/
def Obligations.ComparesSetFlagsOnly : Prop :=
  Encodings .cmp [(.imm, 0xC9), (.zp, 0xC5), (.zpx, 0xD5), (.abs, 0xCD), (.abx, 0xDD), (.aby, 0xD9), (.izx, 0xC1),
    (.izy, 0xD1)] ∧
  Encodings .cpx [(.imm, 0xE0), (.zp, 0xE4), (.abs, 0xEC)] ∧
  Encodings .cpy [(.imm, 0xC0), (.zp, 0xC4), (.abs, 0xCC)] ∧
  ∀ (o : Operand) (s : State),
    ComparesWith (.cmp o) s.cpu.a o s ∧ ComparesWith (.cpx o) s.cpu.x o s ∧
    ComparesWith (.cpy o) s.cpu.y o s

/-- R168: BIT copies bits 7 and 6 of the operand to N and V, and sets Z when A and the operand share no bit. -/
def Obligations.BitTestsTheOperand : Prop :=
  Encodings .bit [(.zp, 0x24), (.abs, 0x2C)] ∧
  ∀ (o : Operand) (s : State),
    let m := (readOperand o s).1
    ∃ t, exec (.bit o) s = .next t ∧ t.cpu = { s.cpu with p := t.cpu.p } ∧
      getFlag .n t.cpu.p = m.getLsbD 7 ∧ getFlag .v t.cpu.p = m.getLsbD 6 ∧
      getFlag .z t.cpu.p = decide (s.cpu.a &&& m = 0) ∧ KeepsFlags [.n, .v, .z] s.cpu.p t.cpu.p ∧ OnlyReads o s t

/-! ## Shifts, rotates, increments -/

/-- R180 to R183: the four shifts and rotates, in both forms, with the bit shifted out in C and N and Z from the
result; V is kept. -/
def Obligations.ShiftsMoveOneBit : Prop :=
  Encodings .asl [(.acc, 0x0A), (.zp, 0x06), (.zpx, 0x16), (.abs, 0x0E), (.abx, 0x1E)] ∧
  Encodings .lsr [(.acc, 0x4A), (.zp, 0x46), (.zpx, 0x56), (.abs, 0x4E), (.abx, 0x5E)] ∧
  Encodings .rol [(.acc, 0x2A), (.zp, 0x26), (.zpx, 0x36), (.abs, 0x2E), (.abx, 0x3E)] ∧
  Encodings .ror [(.acc, 0x6A), (.zp, 0x66), (.zpx, 0x76), (.abs, 0x6E), (.abx, 0x7E)] ∧
  ∀ (o : Operand) (s : State),
    let m := (readOperand o s).1
    let c := (getFlag .c s.cpu.p).toNat
    ModifiesOperand (.asl o) o s [.n, .z, .c] (BitVec.ofNat 8 (2 * m.toNat)) (some (decide (128 ≤ m.toNat))) ∧
    ModifiesOperand (.lsr o) o s [.n, .z, .c] (BitVec.ofNat 8 (m.toNat / 2)) (some (decide (m.toNat % 2 = 1))) ∧
    ModifiesOperand (.rol o) o s [.n, .z, .c] (BitVec.ofNat 8 (2 * m.toNat + c))
      (some (decide (128 ≤ m.toNat))) ∧
    ModifiesOperand (.ror o) o s [.n, .z, .c] (BitVec.ofNat 8 (128 * c + m.toNat / 2))
      (some (decide (m.toNat % 2 = 1)))

/-- R184, R185: INC and DEC add or take one modulo 256, set N and Z, and leave C and V. -/
def Obligations.IncDecMemory : Prop :=
  Encodings .inc [(.zp, 0xE6), (.zpx, 0xF6), (.abs, 0xEE), (.abx, 0xFE)] ∧
  Encodings .dec [(.zp, 0xC6), (.zpx, 0xD6), (.abs, 0xCE), (.abx, 0xDE)] ∧
  ∀ (o : Operand) (s : State) (a : Word), effectiveAddress? o s = some a →
    let m := (readOperand o s).1
    ModifiesOperand (.inc o) o s [.n, .z] (BitVec.ofNat 8 (m.toNat + 1)) none ∧
    ModifiesOperand (.dec o) o s [.n, .z] (BitVec.ofNat 8 (m.toNat + 255)) none

/-- R186 to R189: INX, INY, DEX and DEY wrap modulo 256 and set N and Z. -/
def Obligations.IndexRegistersCount : Prop :=
  Encodings .inx [(.imp, 0xE8)] ∧ Encodings .iny [(.imp, 0xC8)] ∧ Encodings .dex [(.imp, 0xCA)] ∧
  Encodings .dey [(.imp, 0x88)] ∧
  ∀ s : State,
    (∃ t, exec .inx s = .next t ∧ t.cpu = { s.cpu with x := BitVec.ofNat 8 (s.cpu.x.toNat + 1), p := t.cpu.p } ∧
      HasNZ t.cpu.x t.cpu.p ∧ KeepsFlags [.n, .z] s.cpu.p t.cpu.p ∧ OnlyCpu s t) ∧
    (∃ t, exec .iny s = .next t ∧ t.cpu = { s.cpu with y := BitVec.ofNat 8 (s.cpu.y.toNat + 1), p := t.cpu.p } ∧
      HasNZ t.cpu.y t.cpu.p ∧ KeepsFlags [.n, .z] s.cpu.p t.cpu.p ∧ OnlyCpu s t) ∧
    (∃ t, exec .dex s = .next t ∧ t.cpu = { s.cpu with x := BitVec.ofNat 8 (s.cpu.x.toNat + 255), p := t.cpu.p } ∧
      HasNZ t.cpu.x t.cpu.p ∧ KeepsFlags [.n, .z] s.cpu.p t.cpu.p ∧ OnlyCpu s t) ∧
    (∃ t, exec .dey s = .next t ∧ t.cpu = { s.cpu with y := BitVec.ofNat 8 (s.cpu.y.toNat + 255), p := t.cpu.p } ∧
      HasNZ t.cpu.y t.cpu.p ∧ KeepsFlags [.n, .z] s.cpu.p t.cpu.p ∧ OnlyCpu s t)

/-! ## Stack and flags -/

/-- R200, R201: PHA and PHP push A and all eight bits of P. -/
def Obligations.PushesGrowUpward : Prop :=
  Encodings .pha [(.imp, 0x48)] ∧ Encodings .php [(.imp, 0x08)] ∧
  ∀ s : State, Pushes .pha s.cpu.a s ∧ Pushes .php s.cpu.p s

/-- R202, R203: PLA and PLP count SP down modulo 256 and read the slot it then designates; PLA sets N and Z, PLP loads
all eight bits of P. -/
def Obligations.PullsReadTheSlotBelow : Prop :=
  Encodings .pla [(.imp, 0x68)] ∧ Encodings .plp [(.imp, 0x28)] ∧
  ∀ s : State,
    let v := peek (0x0100 + zext (s.cpu.sp - 1)) s
    (∃ t, exec .pla s = .next t ∧ t.cpu = { s.cpu with a := v, sp := s.cpu.sp - 1, p := t.cpu.p } ∧
      HasNZ v t.cpu.p ∧ KeepsFlags [.n, .z] s.cpu.p t.cpu.p ∧ OnlyCpu s t) ∧
    (∃ t, exec .plp s = .next t ∧ t.cpu = { s.cpu with sp := s.cpu.sp - 1, p := v } ∧ OnlyCpu s t)

/-- R204 to R210: the flag instructions write their one flag. -/
def Obligations.FlagInstructionsWriteOneFlag : Prop :=
  Encodings .clc [(.imp, 0x18)] ∧ Encodings .sec [(.imp, 0x38)] ∧ Encodings .cli [(.imp, 0x58)] ∧
  Encodings .sei [(.imp, 0x78)] ∧ Encodings .cld [(.imp, 0xD8)] ∧ Encodings .sed [(.imp, 0xF8)] ∧
  Encodings .clv [(.imp, 0xB8)] ∧
  WritesFlagOnly .clc .c false ∧ WritesFlagOnly .sec .c true ∧
  WritesFlagOnly .cli .i false ∧ WritesFlagOnly .sei .i true ∧
  WritesFlagOnly .cld .d false ∧ WritesFlagOnly .sed .d true ∧ WritesFlagOnly .clv .v false

/-! ## Control transfer -/

/-- R220: JMP sets PC to its effective address and nothing else, but for what the pointer reads of the indirect form do
at ports; the indirect form's target is the word at its pointer, the high byte at the pointer plus one modulo 65536. -/
def Obligations.JmpGoesToTheAddress : Prop :=
  Encodings .jmp [(.abs, 0x4C), (.ind, 0x6C)] ∧
  ∀ (o : Operand) (s : State) (a : Word), effectiveAddress? o s = some a →
    ∃ t, exec (.jmp o) s = .next t ∧ t.cpu = { s.cpu with pc := a } ∧ t.bus = s.bus ∧ SameBytes s t ∧
      SameVideo s t ∧ SameRest s t ∧
      (∀ d, o = .abs d → a = d ∧ t.ppu = s.ppu) ∧
      (∀ p, o = .ind p → a.toNat = 256 * (peek (p + 1) (memRead p s).2).toNat + (peek p s).toNat ∧
        t.ppu = (memRead (p + 1) (memRead p s).2).2.ppu)

/-- R221: JSR pushes PC (`pc0 + 3` when the body runs), low byte first and upward, and jumps. -/
def Obligations.JsrPushesTheReturnWord : Prop :=
  Encodings .jsr [(.abs, 0x20)] ∧
  ∀ (a : Word) (s : State),
    let slot0 : Word := 0x0100 + zext s.cpu.sp
    let slot1 : Word := 0x0100 + zext (s.cpu.sp + 1)
    ∃ t, exec (.jsr a) s = .next t ∧ t.cpu = { s.cpu with sp := s.cpu.sp + 2, pc := a } ∧
      (peek slot0 t).toNat = s.cpu.pc.toNat % 256 ∧ (peek slot1 t).toNat = s.cpu.pc.toNat / 256 ∧
      (∀ b, isPort b = false → b ≠ slot0 → b ≠ slot1 → peek b t = peek b s) ∧ t.ppu = s.ppu ∧ SameRest s t

/-- R222: RTS pops a word, high byte first, and continues at the word plus one modulo 65536. -/
def Obligations.RtsReturnsPastTheWord : Prop :=
  Encodings .rts [(.imp, 0x60)] ∧
  ∀ s : State,
    let hi := peek (0x0100 + zext (s.cpu.sp - 1)) s
    let lo := peek (0x0100 + zext (s.cpu.sp - 2)) s
    ∃ t, exec .rts s = .next t ∧
      t.cpu = { s.cpu with sp := s.cpu.sp - 2, pc := BitVec.ofNat 16 (256 * hi.toNat + lo.toNat + 1) } ∧ OnlyCpu s t

/-- R222 (derived from R221): a JSR at `pc0` and the RTS it reaches resume at `pc0 + 4`, one byte past the instruction
after the JSR, with SP as before. The state of the JSR has PC `pc0 + 3`. -/
def Obligations.JsrThenRtsSkipsOneByte : Prop :=
  ∀ (a : Word) (s : State), ∃ t u, exec (.jsr a) s = .next t ∧ exec .rts t = .next u ∧
    u.cpu = { s.cpu with pc := s.cpu.pc + 1 } ∧ u.ppu = s.ppu ∧ SameRest s u

/-- R223 to R230: each of the eight branches, on its flag. -/
def Obligations.BranchesTestTheirFlag : Prop :=
  Encodings .bcc [(.rel, 0x90)] ∧ Encodings .bcs [(.rel, 0xB0)] ∧ Encodings .beq [(.rel, 0xF0)] ∧
  Encodings .bne [(.rel, 0xD0)] ∧ Encodings .bmi [(.rel, 0x30)] ∧ Encodings .bpl [(.rel, 0x10)] ∧
  Encodings .bvc [(.rel, 0x50)] ∧ Encodings .bvs [(.rel, 0x70)] ∧
  BranchesOn .bcc .c false ∧ BranchesOn .bcs .c true ∧ BranchesOn .beq .z true ∧
  BranchesOn .bne .z false ∧ BranchesOn .bmi .n true ∧ BranchesOn .bpl .n false ∧
  BranchesOn .bvc .v false ∧ BranchesOn .bvs .v true

/-! ## System -/

/-- R240, R242: BRK sets B and does nothing else (no push, no vector, PC stays past its one byte); NOP does nothing. -/
def Obligations.BrkSetsBreakAndNopNothing : Prop :=
  Encodings .brk [(.imp, 0x00)] ∧ Encodings .nop [(.imp, 0xEA)] ∧ WritesFlagOnly .brk .b true ∧
  ∀ s : State, exec .nop s = .next s

/-- R241: RTI pops P, all eight bits, then PC with no adjustment; SP goes down by three. -/
def Obligations.RtiPopsStatusThenPc : Prop :=
  Encodings .rti [(.imp, 0x40)] ∧
  ∀ s : State,
    let p := peek (0x0100 + zext (s.cpu.sp - 1)) s
    let hi := peek (0x0100 + zext (s.cpu.sp - 2)) s
    let lo := peek (0x0100 + zext (s.cpu.sp - 3)) s
    ∃ t, exec .rti s = .next t ∧
      t.cpu = { s.cpu with sp := s.cpu.sp - 3, p := p, pc := BitVec.ofNat 16 (256 * hi.toNat + lo.toNat) } ∧
      OnlyCpu s t

/-- R250, R251 for the instruction alone: an illegal opcode takes the exception, which is a next state (log 6): the
fault is recorded with the opcode's address, PC goes back to it, and nothing else changes. -/
def Obligations.IllegalInstructionTakesTheException : Prop :=
  ∀ (b : Byte) (s : State), ∃ t, exec (.illegal b) s = .next t ∧ t.fault = some ⟨b, s.cpu.pc - 1⟩ ∧
    t.cpu = { s.cpu with pc := s.cpu.pc - 1 } ∧ t.bus = s.bus ∧ t.ppu = s.ppu ∧ t.host = s.host ∧ SameBytes s t

/-! ## The step -/

/-- R100, R101 (with the model's schedule, log 7, and R282, log 11): on the CPU's turn, whether the schedule is empty or
has a CPU turn at its head, when the bytes the fetch reads decode to `i`, the step is `exec i` in the state after `i`'s
bytes have been fetched, and in `copy` mode what the host then does; in the normative `stub` mode it is `exec i` alone.
The fetch moves PC past the instruction; away from the ports the bytes are those at PC and nothing else changes. -/
def Obligations.StepRunsTheDecodedInstruction : Prop :=
  ∀ (s u : State) (i : Instr) (rest : List Byte), CpusTurn s u → decode (fetchedBytes u) = .ok (i, rest) →
    i.wf = true ∧
    (u.host.oamDmaMode = .stub → step s = exec i (afterFetch i.length u)) ∧
    (∀ t, exec i (afterFetch i.length u) = .next t → step s = .next (serveOamDma u t)) ∧
    (afterFetch i.length u).cpu = { u.cpu with pc := u.cpu.pc + BitVec.ofNat 16 i.length } ∧
    (afterFetch i.length u).bus = u.bus ∧
    (PlainFetch u i.length → afterFetch i.length u = u.setPc (u.cpu.pc + BitVec.ofNat 16 i.length) ∧
      ∀ k, k < i.length → (fetchedBytes u)[k]? = some (peek (u.cpu.pc + BitVec.ofNat 16 k) u))

/-- The model's schedule (log 7): a running machine does the operation at its head and drops it, and the CPU steps where
it is empty; each host operation is the one R260, R262 and R263 describe. That a warm `Reset` (R51) is
an operation of the host at all is the model's (log 19: R260 does not list it). -/
def Obligations.StepTakesTheScheduledTurn : Prop :=
  ∀ (s : State), Running s →
    (s.host.schedule = [] → step s = cpuTurn s) ∧
    (∀ rest, s.host.schedule = .cpu :: rest → step s = cpuTurn (s.withSchedule rest)) ∧
    (∀ rest, s.host.schedule = .ppuStep :: rest → step s = .next (ppuStep (s.withSchedule rest))) ∧
    (∀ rest, s.host.schedule = .renderFrame :: rest → step s = .next (hostRender (s.withSchedule rest))) ∧
    (∀ rest, s.host.schedule = .present :: rest → s.ppu.drawNow = true →
      step s = .next (hostRender (s.withSchedule rest))) ∧
    (∀ rest, s.host.schedule = .present :: rest → s.ppu.drawNow = false → step s = .next (s.withSchedule rest)) ∧
    (∀ rest, s.host.schedule = .reset :: rest → step s = .next (applyReset (s.withSchedule rest)))

/-- R26 for the instructions that do not transfer control: on the CPU's turn (log 7) the step leaves PC at `pc0 + L`
modulo 65536. -/
def Obligations.StepAdvancesPcByTheLength : Prop :=
  ∀ (s u t : State) (i : Instr) (rest : List Byte), CpusTurn s u → decode (fetchedBytes u) = .ok (i, rest) →
    i.mnemonic ∉ [.jmp, .jsr, .rts, .rti, .bcc, .bcs, .beq, .bne, .bmi, .bpl, .bvc, .bvs, .illegal] →
      step s = .next t → t.cpu.pc = s.cpu.pc + BitVec.ofNat 16 i.length

/-- R14, R252 with the model's reading of the fault (log 6): a running machine always has a next state, wherever its PC
points, whatever it executes and whoever moves: no instruction is refused, stuck or blocking, and no access faults. -/
def Obligations.RunningMachineAlwaysSteps : Prop :=
  ∀ s : State, Running s → ∃ t, step s = .next t

/-- R251, 92_eei_decisions.md D40: a faulted state has no successor, and the stop carries the recorded values. -/
def Obligations.FaultedStateHasNoStep : Prop :=
  ∀ (s : State) (f : UnimplementedInstruction), s.fault = some f →
    step s = .fault (.unimplementedInstruction f.opcode f.pc)

/-- R250, R251, R252 together (the fault as a next state: log 6; the CPU's turn, at an empty schedule or at a head CPU
turn: log 7): a CPU step ends faulted exactly when the byte at PC is one of the 105; then `opcode` and `pc` are that
byte and its address, every register and every memory is as it was, the PPU changes only as the opcode fetch changes it,
no operand is fetched, and there is no further step. -/
def Obligations.ExactlyTheIllegalBytesFault : Prop :=
  ∀ s u : State, CpusTurn s u → ∃ t, step s = .next t ∧
    (t.fault ≠ none ↔ executedOpcode u ∈ illegalOpcodes) ∧
    (executedOpcode u ∈ illegalOpcodes →
      executedOpcode u = peek u.cpu.pc u ∧ t.fault = some ⟨peek u.cpu.pc u, u.cpu.pc⟩ ∧ t.cpu = s.cpu ∧
      t.bus = s.bus ∧ t.ppu = (memRead u.cpu.pc u).2.ppu ∧ t.host = u.host ∧
      step t = .fault (.unimplementedInstruction (peek u.cpu.pc u) u.cpu.pc))

/-- R336, R85: at an address with nothing behind it the CPU's step (its turn: log 7) is a BRK: B is set, PC moves one
byte, nothing else. -/
def Obligations.UnusedAddressesRunAsBrk : Prop :=
  ∀ s u : State, CpusTurn s u → isUnused u.cpu.pc = true →
    ∃ t, step s = .next t ∧ t.cpu = { s.cpu with pc := s.cpu.pc + 1, p := t.cpu.p } ∧ getFlag .b t.cpu.p = true ∧
      KeepsFlags [.b] s.cpu.p t.cpu.p ∧ OnlyCpu u t

/-! ## Rules over all instructions -/

/-- R23, column "written by": an instruction that changes a flag is in the flag's list. -/
def Obligations.OnlyListedInstructionsWriteEachFlag : Prop :=
  ∀ (i : Instr) (s t : State) (f : Flag), exec i s = .next t → getFlag f t.cpu.p ≠ getFlag f s.cpu.p →
    i.mnemonic ∈ flagWriters f

/-- R20, R21 and the instruction rules: an instruction that changes A, X, Y or SP is one of those whose rule writes it. -/
def Obligations.OnlyListedInstructionsWriteEachRegister : Prop :=
  ∀ (i : Instr) (s t : State), i.wf = true → exec i s = .next t →
    (t.cpu.a ≠ s.cpu.a → i.mnemonic ∈ [.lda, .txa, .tya, .pla, .adc, .sbc, .and, .ora, .eor] ∨
      i.mode = .acc ∧ i.mnemonic ∈ [.asl, .lsr, .rol, .ror]) ∧
    (t.cpu.x ≠ s.cpu.x → i.mnemonic ∈ [.ldx, .tax, .tsx, .inx, .dex]) ∧
    (t.cpu.y ≠ s.cpu.y → i.mnemonic ∈ [.ldy, .tay, .iny, .dey]) ∧
    (t.cpu.sp ≠ s.cpu.sp → i.mnemonic ∈ [.txs, .pha, .php, .pla, .plp, .jsr, .rts, .rti])

/-- R87: video memory changes only by an instruction that writes to port 0x2007, sprite memory only by one that writes
to port 0x2004. -/
def Obligations.VideoMemoryChangesOnlyThroughItsPorts : Prop :=
  ∀ (i : Instr) (s t : State), exec i s = .next t →
    (t.ppu.vram ≠ s.ppu.vram → ∃ o, i.operand? = some o ∧ effectiveAddress? o s = some 0x2007 ∧
      i.mnemonic ∈ [.sta, .stx, .sty, .asl, .lsr, .rol, .ror, .inc, .dec]) ∧
    (t.ppu.oam ≠ s.ppu.oam → ∃ o, i.operand? = some o ∧ effectiveAddress? o s = some 0x2004 ∧
      i.mnemonic ∈ [.sta, .stx, .sty, .asl, .lsr, .rol, .ror, .inc, .dec])

/-- R10, R38, R71: no step of any agent changes the program ROM, the bank count or the OAM DMA mode. -/
def Obligations.RomAndLaunchParametersNeverChange : Prop :=
  ∀ s t : State, step s = .next t →
    t.bus.prg = s.bus.prg ∧ t.bus.prgBanks = s.bus.prgBanks ∧ t.host.oamDmaMode = s.host.oamDmaMode

/-- R40, R272, R339, 92_eei_decisions.md D39: no step of any agent changes bits 6 to 0 of STATUS, and bit 7 is raised
by the host's `PpuStep` turn alone: by no CPU turn, at an empty schedule or at its head, and by no other turn. -/
def Obligations.StatusLowBitsNeverChange : Prop :=
  ∀ s t : State, step s = .next t →
    (∀ k, k < 7 → t.ppu.status.getLsbD k = s.ppu.status.getLsbD k) ∧
    (t.ppu.status.getLsbD 7 = true →
      s.ppu.status.getLsbD 7 = true ∨ ∃ rest, s.host.schedule = .ppuStep :: rest)

/-- R40, R44, R47, R48, R271: the CPU's step does not depend on CTRL, MASK, the scroll values, `draw_now`, `oamdma_req`
or the host's side: two states that differ only there step to states that differ only there. -/
def Obligations.OutputsDoNotSteerTheCpu : Prop :=
  ∀ s s' t : State, SameToTheCpu s s' → cpuStep s = .next t →
    ∃ t', cpuStep s' = .next t' ∧ SameToTheCpu t t'

/-! ## The invariant and reset -/

/-- R38, R41, R42, R289: every step of every agent keeps the memories in canonical form and within their sizes, and the
pixel buffer at its size. -/
def Obligations.StepKeepsStateWf : Prop := ∀ s t : State, StateWf s → step s = .next t → StateWf t

/-- The invariant holds right after reset. -/
def Obligations.ResetStateIsWf : Prop := StateWf State.reset

/-- R50: what the spec itself fixes after power-on and reset: PC is the word at 0xFFFC, I is 1, `w` and `draw_now` are 0,
`oamdma_req` is empty, `fault` is none. -/
def Obligations.ResetLeavesWhatTheSpecGives : Prop :=
  State.reset.cpu.pc = wordOf (peek 0xFFFD State.reset) (peek 0xFFFC State.reset) ∧
  getFlag .i State.reset.cpu.p = true ∧ State.reset.ppu.w = false ∧ State.reset.ppu.drawNow = false ∧
  State.reset.ppu.oamdmaReq = [] ∧ State.reset.fault = none

/-- R320: `Reset` sets PC to the little-endian word at 0xFFFC and `P.I` to 1, and nothing else. The vector bytes are
PRG[0x3FFC] and PRG[0x3FFD] with one bank, PRG[0x7FFC] and PRG[0x7FFD] with two. -/
def Obligations.ResetSetsPcAndIOnly : Prop :=
  ∀ s : State,
    let base := s.bus.prgBanks.size
    (applyReset s).cpu = { s.cpu with pc := (applyReset s).cpu.pc, p := (applyReset s).cpu.p } ∧
    (applyReset s).cpu.pc.toNat =
      256 * (s.bus.prg.read (base - 3)).toNat + (s.bus.prg.read (base - 4)).toNat ∧
    getFlag .i (applyReset s).cpu.p = true ∧ KeepsFlags [.i] s.cpu.p (applyReset s).cpu.p ∧
    (applyReset s).bus = s.bus ∧ (applyReset s).ppu = s.ppu ∧ (applyReset s).host = s.host ∧
    (applyReset s).fault = s.fault

/-- R321, R50, R70 (log 5, log 17): a launch is refused for a bank count other than 1 or 2, a PRG of another length, or
a CHR over 8192 bytes; otherwise it answers the state of power-on and `Reset`: PC is the word in PRG's fourth and third
byte from the end, P is POWER_ON's with I set, every other register, memory and PPU value is POWER_ON's, but for the
ROM, which is PRG, and the head of video memory, which is CHR; `w`, `draw_now`, `oamdma_req`, `fault` and the frame are
clear, and the mode and the schedule are the launch's. The state is well-formed if the POWER_ON record is. The launch
of an all-zero 16KB cartridge with the all-zero record is `State.reset`: the model's choice (log 1 to log 5). -/
def Obligations.LaunchBuildsTheState : Prop :=
  (∀ l : Launch, l.prgBanks ≠ 1 → l.prgBanks ≠ 2 → launch l = .error .prgBanks) ∧
  (∀ l : Launch, (l.prgBanks = 1 ∨ l.prgBanks = 2) → l.prg.length ≠ l.prgBanks * 16384 →
    launch l = .error .prgLength) ∧
  (∀ l : Launch, (l.prgBanks = 1 ∨ l.prgBanks = 2) → l.prg.length = l.prgBanks * 16384 → 8192 < l.chr.length →
    launch l = .error .chrLength) ∧
  (∀ l : Launch, (l.prgBanks = 1 ∨ l.prgBanks = 2) → l.prg.length = l.prgBanks * 16384 → l.chr.length ≤ 8192 →
    ∃ s, launch l = .ok s ∧
      s.cpu.a = l.powerOn.a ∧ s.cpu.x = l.powerOn.x ∧ s.cpu.y = l.powerOn.y ∧ s.cpu.sp = l.powerOn.sp ∧
      getFlag .i s.cpu.p = true ∧ KeepsFlags [.i] l.powerOn.p s.cpu.p ∧
      s.cpu.pc.toNat = 256 * (l.prg.getD (l.prg.length - 3) 0).toNat + (l.prg.getD (l.prg.length - 4) 0).toNat ∧
      s.bus.wram = l.powerOn.wram ∧ s.bus.xram = l.powerOn.xram ∧ s.bus.sram = l.powerOn.sram ∧
      (∀ k, s.bus.prg.read k = l.prg.getD k 0) ∧ s.bus.prgBanks = (if l.prgBanks = 1 then .one else .two) ∧
      s.ppu = { ctrl := l.powerOn.ctrl, mask := l.powerOn.mask, status := l.powerOn.status, vram := s.ppu.vram,
                oam := l.powerOn.oam, oamAddr := l.powerOn.oamAddr, scrollX := l.powerOn.scrollX,
                scrollY := l.powerOn.scrollY, vramAddr := l.powerOn.vramAddr, w := false, drawNow := false,
                oamdmaReq := [] } ∧
      (∀ k, s.ppu.vram.read k = if k < l.chr.length then l.chr.getD k 0 else l.powerOn.vram.read k) ∧
      s.host = { schedule := l.schedule, oamDmaMode := l.oamDmaMode, frame := [] } ∧ s.fault = none ∧
      (l.powerOn.wf → StateWf s)) ∧
  launch { prgBanks := 1, prg := List.replicate 16384 0, chr := [], powerOn := PowerOn.zero, oamDmaMode := .stub,
           schedule := [] } = .ok State.reset

/-! ## Encoding -/

/-- Decoding the encoding of any well-formed instruction gives it back, with every operand at every value, whatever
bytes follow. -/
def Obligations.DecodeOfEncode : Prop :=
  ∀ (i : Instr) (rest : List Byte), i.wf = true → decode (encode i ++ rest) = .ok (i, rest)

/-- Whatever decodes is well-formed, and encoding it gives the bytes it was read from. -/
def Obligations.EncodeOfDecode : Prop :=
  ∀ (bs rest : List Byte) (i : Instr), decode bs = .ok (i, rest) → i.wf = true ∧ encode i ++ rest = bs

/-- Words written out from R112's table and R125's examples, one of each family, and an illegal byte, decode to what
they stand for. -/
def Obligations.WordsOfTheSpecDecode : Prop :=
  decode [0xA9, 0x42] = .ok (.lda (.imm 0x42), []) ∧ decode [0x8D, 0x00, 0x02] = .ok (.sta (.abs 0x0200), []) ∧
  decode [0xCA] = .ok (.dex, []) ∧ decode [0x71, 0x10] = .ok (.adc (.izy 0x10), []) ∧
  decode [0x0A] = .ok (.asl .acc, []) ∧ decode [0x48] = .ok (.pha, []) ∧
  decode [0x6C, 0x00, 0x03] = .ok (.jmp (.ind 0x0300), []) ∧ decode [0xD0, 0xFB] = .ok (.bne 0xFB, []) ∧
  decode [0x00] = .ok (.brk, []) ∧ decode [0x02] = .ok (.illegal 0x02, [])

/-- R104, R122: the descriptor of a byte has class ILLEGAL exactly for the 105 bytes of R122, and a byte decodes without
operands missing exactly when its mode's length of bytes is there. -/
def Obligations.IllegalBytesAndLengths : Prop :=
  illegalOpcodes.length = 105 ∧ (∀ b : Byte, (descriptor b).cls = .illegal ↔ b ∈ illegalOpcodes) ∧
  (∀ (b : Byte) (rest : List Byte), (∃ i r, decode (b :: rest) = .ok (i, r)) ↔
    (descriptor b).mode.length ≤ rest.length + 1) ∧
  Mode.length .imp = 1 ∧ Mode.length .acc = 1 ∧ Mode.length .imm = 2 ∧ Mode.length .zp = 2 ∧ Mode.length .zpx = 2 ∧
  Mode.length .zpy = 2 ∧ Mode.length .izx = 2 ∧ Mode.length .izy = 2 ∧ Mode.length .rel = 2 ∧ Mode.length .abs = 3 ∧
  Mode.length .abx = 3 ∧ Mode.length .aby = 3 ∧ Mode.length .ind = 3

/-! ## Operands -/

/-- The effective addresses of R108 to R117, for operand bytes already fetched, and the values of R106, R107, R119: the
zero-page sums wrap modulo 256, the absolute ones modulo 65536, the zero-page pointers wrap in page zero, and the
indirect pointer's high byte is at the next address modulo 65536. -/
def Obligations.OperandsResolveByMode : Prop :=
  (∀ (d : Byte) (s : State),
    (∃ a, effectiveAddress? (.zp d) s = some a ∧ a.toNat = d.toNat) ∧
    (∃ a, effectiveAddress? (.zpx d) s = some a ∧ a.toNat = (d.toNat + s.cpu.x.toNat) % 256) ∧
    (∃ a, effectiveAddress? (.zpy d) s = some a ∧ a.toNat = (d.toNat + s.cpu.y.toNat) % 256) ∧
    (∃ a, effectiveAddress? (.izx d) s = some a ∧
      a.toNat = 256 * (peek (zext (d + s.cpu.x + 1)) s).toNat + (peek (zext (d + s.cpu.x)) s).toNat) ∧
    (∃ a, effectiveAddress? (.izy d) s = some a ∧
      a.toNat = (256 * (peek (zext (d + 1)) s).toNat + (peek (zext d) s).toNat + s.cpu.y.toNat) % 65536)) ∧
  (∀ (w : Word) (s : State),
    effectiveAddress? (.abs w) s = some w ∧
    (∃ a, effectiveAddress? (.abx w) s = some a ∧ a.toNat = (w.toNat + s.cpu.x.toNat) % 65536) ∧
    (∃ a, effectiveAddress? (.aby w) s = some a ∧ a.toNat = (w.toNat + s.cpu.y.toNat) % 65536) ∧
    (∃ a, effectiveAddress? (.ind w) s = some a ∧
      a.toNat = 256 * (peek (w + 1) s).toNat + (peek w s).toNat)) ∧
  (∀ (v : Byte) (s : State), readOperand (.imm v) s = (v, s) ∧ readOperand .acc s = (s.cpu.a, s)) ∧
  (∀ (o : Operand) (s : State) (a : Word), effectiveAddress? o s = some a → o.mode ≠ .ind →
    readOperand o s = (peek a s, (memRead a s).2))

/-! ## The bus -/

/-- R64, R66, R71: an unused address reads 0x00 and discards writes, program ROM discards writes, and no read of either
changes anything. -/
def Obligations.UnusedAndRomDiscardWrites : Prop :=
  ∀ (a : Word) (v : Byte) (s : State),
    (isUnused a = true → memRead a s = (0, s) ∧ memWrite a v s = s) ∧
    (isRom a = true → (memRead a s).2 = s ∧ memWrite a v s = s)

/-- R63, R68, R69: a byte of RAM holds what was last written to it; the write changes no other address's byte, in
particular no mirror, and a read changes nothing. -/
def Obligations.RamHoldsWhatIsWritten : Prop :=
  ∀ (a : Word) (v : Byte) (s : State), isRam a = true →
    peek a (memWrite a v s) = v ∧ (memRead a s).2 = s ∧ (memWrite a v s).ppu = s.ppu ∧
    (memWrite a v s).cpu = s.cpu ∧ ∀ b, b ≠ a → peek b (memWrite a v s) = peek b s

/-- R70: the bytes of program ROM as the bus reads them: with one bank, both windows read the same 16384 bytes; with
two, the windows follow each other. -/
def Obligations.ProgramRomIsMirrored : Prop :=
  ∀ (a : Word) (s : State), isRom a = true →
    (s.bus.prgBanks = .one → peek a s = s.bus.prg.read ((a.toNat - 0x8000) % 16384)) ∧
    (s.bus.prgBanks = .two → peek a s = s.bus.prg.read (a.toNat - 0x8000))

/-- R30 to R34: pushing then popping a byte or a word gives it back and leaves every register as it was, for every SP,
across the wrap too; with SP = 0xFF a pushed word lies at 0x01FF and 0x0100. -/
def Obligations.StackRoundTrip : Prop :=
  (∀ (v : Byte) (s : State), (pop8 (push8 v s)).1 = v ∧ (pop8 (push8 v s)).2.cpu = s.cpu) ∧
  (∀ (v : Word) (s : State), (pop16 (push16 v s)).1 = v ∧ (pop16 (push16 v s)).2.cpu = s.cpu) ∧
  (∀ (v : Word) (s : State), s.cpu.sp = 0xFF →
    (peek 0x01FF (push16 v s)).toNat = v.toNat % 256 ∧ (peek 0x0100 (push16 v s)).toNat = v.toNat / 256 ∧
    (push16 v s).cpu.sp = 0x01)

/-! ## The PPU -/

/-- R272: a read of 0x2002 returns STATUS as it was, then clears its bit 7 and `w`, and changes nothing else. -/
def Obligations.StatusReadClearsVblankAndToggle : Prop :=
  ∀ s : State, ∃ u : Byte,
    memRead 0x2002 s = (s.ppu.status, s.setPpu { s.ppu with status := u, w := false }) ∧
    u.getLsbD 7 = false ∧ ∀ k, k < 7 → u.getLsbD k = s.ppu.status.getLsbD k

/-- R275, R276, R279: writes to 0x2005 and 0x2006 go by the one shared toggle and flip it; a read of 0x2002 clears it;
no other access touches it. -/
def Obligations.WriteToggleLaw : Prop :=
  (∀ (v : Byte) (s : State),
    (s.ppu.w = false → memWrite 0x2005 v s = s.setPpu { s.ppu with scrollX := v, w := true }) ∧
    (s.ppu.w = true → memWrite 0x2005 v s = s.setPpu { s.ppu with scrollY := v, w := false }) ∧
    (s.ppu.w = false → ∃ a : Word, a.toNat = 256 * v.toNat + s.ppu.vramAddr.toNat % 256 ∧
      memWrite 0x2006 v s = s.setPpu { s.ppu with vramAddr := a, w := true }) ∧
    (s.ppu.w = true → ∃ a : Word, a.toNat = 256 * (s.ppu.vramAddr.toNat / 256) + v.toNat ∧
      memWrite 0x2006 v s = s.setPpu { s.ppu with vramAddr := a, w := false }) ∧
    (memRead 0x2002 s).2.ppu.w = false) ∧
  (∀ (a : Word) (v : Byte) (s : State),
    (a ≠ 0x2002 → (memRead a s).2.ppu.w = s.ppu.w) ∧
    (a ≠ 0x2005 → a ≠ 0x2006 → (memWrite a v s).ppu.w = s.ppu.w))

/-- R273, R274, R277: the data ports: 0x2007 reads and writes VRAM at the current address and moves it by one modulo
65536 either way; 0x2004 reads OAM without moving the cursor and writes it moving the cursor by one modulo 256; every
other byte of the two memories is unchanged. -/
def Obligations.DataPortsReachVideoAndSpriteMemory : Prop :=
  ∀ (v : Byte) (s : State),
    memRead 0x2007 s = (s.ppu.vram.read s.ppu.vramAddr.toNat, s.setPpu { s.ppu with vramAddr := s.ppu.vramAddr + 1 }) ∧
    memRead 0x2004 s = (s.ppu.oam.read s.ppu.oamAddr.toNat, s) ∧
    memWrite 0x2003 v s = s.setPpu { s.ppu with oamAddr := v } ∧
    (∃ m, memWrite 0x2007 v s = s.setPpu { s.ppu with vram := m, vramAddr := s.ppu.vramAddr + 1 } ∧
      ∀ k, m.read k = if k = s.ppu.vramAddr.toNat then v else s.ppu.vram.read k) ∧
    (∃ m, memWrite 0x2004 v s = s.setPpu { s.ppu with oam := m, oamAddr := s.ppu.oamAddr + 1 } ∧
      ∀ k, m.read k = if k = s.ppu.oamAddr.toNat then v else s.ppu.oam.read k)

/-- R270, R278, R281: writes to 0x2000 and 0x2001 store CTRL and MASK; reads of the write-only ports return 0x00 and
change nothing, a write to the read-only port changes nothing; a write to 0x4014 appends the byte to `oamdma_req` and
does nothing else. -/
def Obligations.RemainingPortAccesses : Prop :=
  ∀ (v : Byte) (s : State),
    memWrite 0x2000 v s = s.setPpu { s.ppu with ctrl := v } ∧
    memWrite 0x2001 v s = s.setPpu { s.ppu with mask := v } ∧
    memWrite 0x2002 v s = s ∧
    memWrite 0x4014 v s = s.setPpu { s.ppu with oamdmaReq := s.ppu.oamdmaReq ++ [v] } ∧
    memRead 0x2000 s = (0, s) ∧ memRead 0x2001 s = (0, s) ∧ memRead 0x2003 s = (0, s) ∧ memRead 0x2005 s = (0, s) ∧
    memRead 0x2006 s = (0, s) ∧ memRead 0x4014 s = (0, s)

/-- R262 and R339. `PpuStep` sets STATUS bit 7 and `draw_now` and nothing else. In the simulator's schedule it comes
after every ratio-th CPU step. Under the open schedule, a run under the fairness assumption has the vertical-blank flag
set again after every point, and a run with no `PpuStep` turn from a point on never has the flag again once it is clear
(the form of the schedule: log 7; the fairness assumption: log 21). -/
def Obligations.PpuStepRaisesVblankAndDrawNow : Prop :=
  (∀ s : State, ∃ u : Byte, ppuStep s = s.setPpu { s.ppu with status := u, drawNow := true } ∧ u.getLsbD 7 = true ∧
    ∀ k, k < 7 → u.getLsbD k = s.ppu.status.getLsbD k) ∧
  (∀ ratio n : Nat, 0 < ratio →
    (n < ratio → simulatorSchedule ratio n = List.replicate n .cpu) ∧
    simulatorSchedule ratio (ratio + n) =
      List.replicate ratio .cpu ++ .ppuStep :: simulatorSchedule ratio n) ∧
  (∀ (turn : Nat → Turn) (run : Nat → State), RunsUnder turn run →
    (VblankFair turn → ∀ n, ∃ m, n < m ∧ (run m).ppu.status.getLsbD 7 = true) ∧
    (∀ n, (∀ m, n ≤ m → turn m ≠ .ppuStep) → (run n).ppu.status.getLsbD 7 = false →
      ∀ m, n ≤ m → (run m).ppu.status.getLsbD 7 = false))

/-- R281 and R282 (the extension; when the host runs it is log 11): a CPU step makes at most one request; in `copy`
mode the CPU's turn is then the step followed by the copy from the requested page, in `stub` mode and without a request
it is the step alone. The copy from a page that holds no port puts the page's 256 bytes into OAM from the cursor on,
wrapping, and changes nothing else. -/
def Obligations.OamDmaCopyFillsSpriteMemory : Prop :=
  (∀ s u : State, cpuStep s = .next u →
    (u.ppu.oamdmaReq = s.ppu.oamdmaReq ∧ cpuTurn s = .next u) ∨
    ∃ v, u.ppu.oamdmaReq = s.ppu.oamdmaReq ++ [v] ∧
      (s.host.oamDmaMode = .stub → cpuTurn s = .next u) ∧
      (s.host.oamDmaMode = .copy → cpuTurn s = .next (oamDmaCopy v u))) ∧
  (∀ (v : Byte) (s : State), (∀ i : Byte, isPort (wordOf v i) = false) →
    (∀ i : Byte, (oamDmaCopy v s).ppu.oam.read (s.ppu.oamAddr + i).toNat = peek (wordOf v i) s) ∧
    oamDmaCopy v s = s.setPpu { s.ppu with oam := (oamDmaCopy v s).ppu.oam })

/-! ## The frame -/

/-- R285 to R288: the palette address (pixel 0 is always 0x3F00, the others lie in 0x3F01 to 0x3F1F), the colour, which
is the table's entry for the stored byte modulo 64, the pixel of a tile, and the base of a tile in its bank. -/
def Obligations.PaletteAndTileDecode : Prop :=
  (∀ (sel : BitVec 3) (px : BitVec 2),
    (paletteAddr sel px).toNat = if px = 0 then 0x3F00 else 0x3F00 + sel.toNat * 4 + px.toNat) ∧
  (∀ (u : Ppu) (sel : BitVec 3) (px : BitVec 2),
    (colourIndex u sel px).toNat = (u.vram.read (paletteAddr sel px).toNat).toNat % 64 ∧
    colour u sel px = Config.paletteRgb (colourIndex u sel px)) ∧
  (∀ (u : Ppu) (tile : Word) (r c : Nat), r < 8 → c < 8 → tile.toNat + 15 < 65536 →
    (tilePixel u tile r c).toNat =
      ((u.vram.read (tile.toNat + r)).getLsbD (7 - c)).toNat +
        2 * ((u.vram.read (tile.toNat + 8 + r)).getLsbD (7 - c)).toNat) ∧
  (∀ (u : Ppu) (n : Byte),
    (tileBase (bgBase u) n).toNat = (if u.ctrl.getLsbD 4 then 0x1000 else 0) + n.toNat * 16 ∧
    (tileBase (spriteBase u) n).toNat = (if u.ctrl.getLsbD 3 then 0x1000 else 0) + n.toNat * 16)

/-- R289, R290: rendering gives 240 rows of 256 pixels, `buf[x, y]` being the colour of `pixelIndex`, and as a turn
(log 7, log 8) it writes the buffer and clears `draw_now` and changes nothing else (R260). -/
def Obligations.RenderFrameWritesOnlyTheBuffer : Prop :=
  (∀ (s : State) (rest : List Turn), Running s → s.host.schedule = .renderFrame :: rest →
    ∃ t, step s = .next t ∧ t.cpu = s.cpu ∧ t.bus = s.bus ∧ t.ppu = { s.ppu with drawNow := false } ∧
      t.fault = none ∧ t.host = { s.host with schedule := rest, frame := renderFrame s.ppu }) ∧
  (∀ u : Ppu, FrameWf (renderFrame u) ∧ renderFrame u ≠ [] ∧
    ∀ x y, x < 256 → y < 240 →
      ((renderFrame u)[y]?.bind fun row => row[x]?) = some (Config.paletteRgb (pixelIndex u x y)))

/-- R292: a pixel no sprite reaches is the background's; a pixel some sprite reaches is that of the highest-numbered
sprite that does; a sprite whose Y byte is 240 or more reaches no visible pixel. -/
def Obligations.LaterSpritesPaintOver : Prop :=
  ∀ (u : Ppu) (x y : Nat), x < 256 → y < 240 →
    ((∀ i, i < 64 → spriteIndex? u i x y = none) → pixelIndex u x y = backgroundIndex u x y) ∧
    (∀ (i : Nat) (c : BitVec 6), i < 64 → spriteIndex? u i x y = some c →
      (∀ j, i < j → j < 64 → spriteIndex? u j x y = none) → pixelIndex u x y = c) ∧
    (∀ i, i < 64 → 240 ≤ (u.oam.read (4 * i)).toNat → spriteIndex? u i x y = none)

/-- R291, and the painting of one sprite in R292: the two passes written as the spec's loops write them. The pixel at
row `r`, column `c` of name-table entry `(tx, ty)` is that tile's pixel in palette 0; sprite `i` paints its tile's pixel
`(r, c)` at its X plus `c`, its Y plus `r`, in palette 4 plus the low two attribute bits, and paints nowhere else. -/
def Obligations.RenderPassesFollowTheLoops : Prop :=
  ∀ u : Ppu,
    (∀ ty tx r c, ty < 30 → tx < 32 → r < 8 → c < 8 →
      backgroundIndex u (tx * 8 + c) (ty * 8 + r) =
        colourIndex u 0 (tilePixel u (tileBase (bgBase u) (u.vram.read (0x2000 + ty * 32 + tx))) r c)) ∧
    (∀ i r c, i < 64 → r < 8 → c < 8 →
      spriteIndex? u i ((u.oam.read (4 * i + 3)).toNat + c) ((u.oam.read (4 * i)).toNat + r) =
        some (colourIndex u (BitVec.ofNat 3 (4 + (u.oam.read (4 * i + 2)).toNat % 4))
          (tilePixel u (tileBase (spriteBase u) (u.oam.read (4 * i + 1))) r c))) ∧
    (∀ i x y, i < 64 → spriteIndex? u i x y ≠ none →
      ∃ r c, r < 8 ∧ c < 8 ∧ x = (u.oam.read (4 * i + 3)).toNat + c ∧ y = (u.oam.read (4 * i)).toNat + r)
end

