-- ==== Sys2Proof/Laws/Memory.lean ====
section
/-! SUPPORT. The laws of byte arrays: a read after a write, the canonical form, and building from a list. -/

namespace Sys2Proof.Machine

@[simp] theorem Memory.read_nil (j : Nat) : Memory.read [] j = 0 := rfl

@[simp] theorem Memory.read_cons (k : Nat) (u : Byte) (rest : Memory) (j : Nat) :
    Memory.read ((k, u) :: rest) j = if k = j then u else Memory.read rest j := rfl

theorem Memory.read_erase (m : Memory) (i j : Nat) :
    (m.erase i).read j = if j = i then 0 else m.read j := by
  induction m with
  | nil => simp [Memory.erase]
  | cons c rest ih =>
    obtain ⟨k, u⟩ := c
    simp only [Memory.erase] at ih ⊢
    by_cases hk : k = i <;> by_cases hj : j = i <;> by_cases hkj : k = j <;>
      simp_all

theorem Memory.read_insert (m : Memory) (i : Nat) (v : Byte) (j : Nat) (h : ∀ c ∈ m, c.1 ≠ i) :
    (m.insert i v).read j = if j = i then v else m.read j := by
  induction m with
  | nil => simp [Memory.insert, eq_comm]
  | cons c rest ih =>
    obtain ⟨k, u⟩ := c
    have ih := ih fun c hc => h c (by simp [hc])
    have hk : k ≠ i := h (k, u) (by simp)
    simp only [Memory.insert]
    split
    · rw [Memory.read_cons, Memory.read_cons, ih]
      by_cases hj : j = i
      · rw [if_neg (by omega), if_pos hj, if_pos hj]
      · rw [if_neg hj, if_neg hj]
    · rw [Memory.read_cons]
      simp only [eq_comm]

theorem Memory.not_mem_erase (m : Memory) (i : Nat) : ∀ c ∈ m.erase i, c.1 ≠ i := by
  intro c hc
  simpa using (List.mem_filter.1 hc).2

/-- A read after a write: the byte written at its index, the old byte at every other. -/
theorem Memory.read_write (m : Memory) (i : Nat) (v : Byte) (j : Nat) :
    (m.write i v).read j = if j = i then v else m.read j := by
  unfold Memory.write
  split
  · next h => simp [Memory.read_erase, h]
  · rw [Memory.read_insert _ _ _ _ (m.not_mem_erase i), Memory.read_erase]
    by_cases hj : j = i <;> simp [hj]

@[simp] theorem Memory.read_write_same (m : Memory) (i : Nat) (v : Byte) : (m.write i v).read i = v := by
  simp [Memory.read_write]

theorem Memory.read_write_other (m : Memory) {i j : Nat} (v : Byte) (h : j ≠ i) :
    (m.write i v).read j = m.read j := by
  simp [Memory.read_write, h]

theorem Memory.wf_nil (n : Nat) : Memory.wf n [] := ⟨List.Pairwise.nil, fun _ h => nomatch h⟩

theorem Memory.wf_erase {n : Nat} {m : Memory} (h : m.wf n) (i : Nat) : (m.erase i).wf n :=
  ⟨h.1.filter _, fun c hc => h.2 c (List.mem_filter.1 hc).1⟩

theorem Memory.mem_insert {m : Memory} {i : Nat} {v : Byte} {c : Host.Cell} :
    c ∈ m.insert i v ↔ c = (i, v) ∨ c ∈ m := by
  induction m with
  | nil => simp [Memory.insert]
  | cons d rest ih =>
    simp only [Memory.insert]
    split
    · simp only [List.mem_cons, ih]; tauto
    · simp

theorem Memory.wf_insert {n : Nat} {m : Memory} (h : m.wf n) {i : Nat} (hi : i < n) {v : Byte} (hv : v ≠ 0)
    (hm : ∀ c ∈ m, c.1 ≠ i) : (m.insert i v).wf n := by
  refine ⟨?_, ?_⟩
  · have hs := h.1
    clear h hi
    induction m with
    | nil => simp [Memory.insert]
    | cons d rest ih =>
      obtain ⟨hd, hr⟩ := List.pairwise_cons.1 hs
      have hdi : d.1 ≠ i := hm d (by simp)
      simp only [Memory.insert]
      split
      · next hlt =>
        refine List.pairwise_cons.2 ⟨fun c hc => ?_, ih (fun c hc => hm c (by simp [hc])) hr⟩
        rcases Memory.mem_insert.1 hc with rfl | hc
        · exact hlt
        · exact hd c hc
      · next hge =>
        refine List.pairwise_cons.2 ⟨fun c hc => ?_, hs⟩
        rcases List.mem_cons.1 hc with rfl | hc
        · show i < d.1; omega
        · have := hd c hc; show i < c.1; omega
  · intro c hc
    rcases Memory.mem_insert.1 hc with rfl | hc
    · exact ⟨hi, hv⟩
    · exact h.2 c hc

/-- Every write keeps the canonical form. -/
theorem Memory.wf_write {n : Nat} {m : Memory} (h : m.wf n) {i : Nat} (hi : i < n) (v : Byte) : (m.write i v).wf n := by
  unfold Memory.write
  split
  · exact Memory.wf_erase h i
  · next hv => exact Memory.wf_insert (Memory.wf_erase h i) hi hv (m.not_mem_erase i)

theorem Memory.wf_overlay {n : Nat} (l : List Byte) : ∀ {m : Memory} {i : Nat}, m.wf n → i + l.length ≤ n →
    (m.overlay i l).wf n := by
  induction l with
  | nil => intro m i h _; exact h
  | cons b rest ih =>
    intro m i h hi
    rw [List.length_cons] at hi
    exact ih (Memory.wf_write h (by omega) b) (by omega)

/-- Reading an overlaid array: the list's bytes from its index on, the old ones elsewhere. -/
theorem Memory.read_overlay (l : List Byte) : ∀ (m : Memory) (i k : Nat),
    (m.overlay i l).read k = if i ≤ k ∧ k < i + l.length then l.getD (k - i) 0 else m.read k := by
  induction l with
  | nil =>
    intro m i k
    rw [Memory.overlay, if_neg]
    simp only [List.length_nil]; omega
  | cons b l ih =>
    intro m i k
    rw [Memory.overlay, ih, Memory.read_write]
    simp only [List.length_cons]
    by_cases e : k = i
    · subst e
      rw [if_neg (by omega), if_pos rfl, if_pos (by omega)]
      simp
    · by_cases c : i + 1 ≤ k ∧ k < i + 1 + l.length
      · rw [if_pos c, if_pos (by omega), show k - i = (k - (i + 1)) + 1 by omega]
        simp
      · rw [if_neg c, if_neg e, if_neg (by omega)]

theorem Memory.mem_ofBytesFrom (l : List Byte) : ∀ {i : Nat} {c : Host.Cell}, c ∈ Memory.ofBytesFrom i l →
    i ≤ c.1 ∧ c.1 < i + l.length ∧ c.2 ≠ 0 := by
  induction l with
  | nil => intro i c h; simp [Memory.ofBytesFrom] at h
  | cons b rest ih =>
    intro i c h
    simp only [Memory.ofBytesFrom] at h
    simp only [List.length_cons]
    split at h
    · have := ih h; refine ⟨by omega, by omega, this.2.2⟩
    · rcases List.mem_cons.1 h with rfl | h
      · exact ⟨by simp, by simp, by simpa⟩
      · have := ih h; refine ⟨by omega, by omega, this.2.2⟩

theorem Memory.wf_ofBytesFrom (l : List Byte) (n : Nat) : ∀ {i : Nat}, i + l.length ≤ n →
    (Memory.ofBytesFrom i l).wf n := by
  induction l with
  | nil => intro i _; exact Memory.wf_nil n
  | cons b rest ih =>
    intro i hi
    rw [List.length_cons] at hi
    have h := ih (i := i + 1) (by omega)
    simp only [Memory.ofBytesFrom]
    split
    · exact h
    · refine ⟨List.pairwise_cons.2 ⟨fun c hc => ?_, h.1⟩, fun c hc => ?_⟩
      · have := Memory.mem_ofBytesFrom rest hc; show i < c.1; omega
      · rcases List.mem_cons.1 hc with rfl | hc
        · exact ⟨by show i < n; omega, by simpa⟩
        · exact h.2 c hc

theorem Memory.read_ofBytesFrom_lt (l : List Byte) : ∀ {i j : Nat}, j < i → (Memory.ofBytesFrom i l).read j = 0 := by
  induction l with
  | nil => intro i j _; rfl
  | cons b rest ih =>
    intro i j h
    simp only [Memory.ofBytesFrom]
    split
    · exact ih (by omega)
    · rw [Memory.read_cons, if_neg (by omega)]; exact ih (by omega)

/-- The array built from a list of bytes reads as the list. -/
theorem Memory.read_ofBytesFrom (l : List Byte) : ∀ {i j : Nat}, i ≤ j →
    (Memory.ofBytesFrom i l).read j = l.getD (j - i) 0 := by
  induction l with
  | nil => intro i j _; simp [Memory.ofBytesFrom]
  | cons b rest ih =>
    intro i j h
    simp only [Memory.ofBytesFrom]
    by_cases hij : i = j
    · subst hij
      split
      · next hb => rw [Memory.read_ofBytesFrom_lt _ (by omega)]; simp [hb]
      · simp
    · have hj : j - i = (j - (i + 1)) + 1 := by omega
      have := ih (i := i + 1) (j := j) (by omega)
      split
      · rw [this, hj]; simp
      · rw [Memory.read_cons, if_neg hij, this, hj]; simp

theorem Memory.ofBytesFrom_replicate_zero (n : Nat) : ∀ i : Nat, Memory.ofBytesFrom i (List.replicate n 0) = [] := by
  induction n with
  | zero => intro i; rfl
  | succ n ih => intro i; simp only [List.replicate_succ, Memory.ofBytesFrom, ↓reduceIte]; exact ih _

end Sys2Proof.Machine
end

