-- ==== Sys2Proof/Laws/State.lean ====
section
/-! SUPPORT. What each register write leaves: one lemma per part of the state per update, all by `rfl`. -/

namespace Sys2Proof.Machine

@[simp] theorem setA_cpu (v : Byte) (s : State) : (s.setA v).cpu = { s.cpu with a := v } := rfl
@[simp] theorem setA_bus (v : Byte) (s : State) : (s.setA v).bus = s.bus := rfl
@[simp] theorem setA_ppu (v : Byte) (s : State) : (s.setA v).ppu = s.ppu := rfl
@[simp] theorem setA_host (v : Byte) (s : State) : (s.setA v).host = s.host := rfl
@[simp] theorem setA_fault (v : Byte) (s : State) : (s.setA v).fault = s.fault := rfl

@[simp] theorem setX_cpu (v : Byte) (s : State) : (s.setX v).cpu = { s.cpu with x := v } := rfl
@[simp] theorem setX_bus (v : Byte) (s : State) : (s.setX v).bus = s.bus := rfl
@[simp] theorem setX_ppu (v : Byte) (s : State) : (s.setX v).ppu = s.ppu := rfl
@[simp] theorem setX_host (v : Byte) (s : State) : (s.setX v).host = s.host := rfl
@[simp] theorem setX_fault (v : Byte) (s : State) : (s.setX v).fault = s.fault := rfl

@[simp] theorem setY_cpu (v : Byte) (s : State) : (s.setY v).cpu = { s.cpu with y := v } := rfl
@[simp] theorem setY_bus (v : Byte) (s : State) : (s.setY v).bus = s.bus := rfl
@[simp] theorem setY_ppu (v : Byte) (s : State) : (s.setY v).ppu = s.ppu := rfl
@[simp] theorem setY_host (v : Byte) (s : State) : (s.setY v).host = s.host := rfl
@[simp] theorem setY_fault (v : Byte) (s : State) : (s.setY v).fault = s.fault := rfl

@[simp] theorem setSp_cpu (v : Byte) (s : State) : (s.setSp v).cpu = { s.cpu with sp := v } := rfl
@[simp] theorem setSp_bus (v : Byte) (s : State) : (s.setSp v).bus = s.bus := rfl
@[simp] theorem setSp_ppu (v : Byte) (s : State) : (s.setSp v).ppu = s.ppu := rfl
@[simp] theorem setSp_host (v : Byte) (s : State) : (s.setSp v).host = s.host := rfl
@[simp] theorem setSp_fault (v : Byte) (s : State) : (s.setSp v).fault = s.fault := rfl

@[simp] theorem setP_cpu (v : Byte) (s : State) : (s.setP v).cpu = { s.cpu with p := v } := rfl
@[simp] theorem setP_bus (v : Byte) (s : State) : (s.setP v).bus = s.bus := rfl
@[simp] theorem setP_ppu (v : Byte) (s : State) : (s.setP v).ppu = s.ppu := rfl
@[simp] theorem setP_host (v : Byte) (s : State) : (s.setP v).host = s.host := rfl
@[simp] theorem setP_fault (v : Byte) (s : State) : (s.setP v).fault = s.fault := rfl

@[simp] theorem setPc_cpu (v : Word) (s : State) : (s.setPc v).cpu = { s.cpu with pc := v } := rfl
@[simp] theorem setPc_bus (v : Word) (s : State) : (s.setPc v).bus = s.bus := rfl
@[simp] theorem setPc_ppu (v : Word) (s : State) : (s.setPc v).ppu = s.ppu := rfl
@[simp] theorem setPc_host (v : Word) (s : State) : (s.setPc v).host = s.host := rfl
@[simp] theorem setPc_fault (v : Word) (s : State) : (s.setPc v).fault = s.fault := rfl

@[simp] theorem setPpu_cpu (u : Ppu) (s : State) : (s.setPpu u).cpu = s.cpu := rfl
@[simp] theorem setPpu_bus (u : Ppu) (s : State) : (s.setPpu u).bus = s.bus := rfl
@[simp] theorem setPpu_ppu (u : Ppu) (s : State) : (s.setPpu u).ppu = u := rfl
@[simp] theorem setPpu_host (u : Ppu) (s : State) : (s.setPpu u).host = s.host := rfl
@[simp] theorem setPpu_fault (u : Ppu) (s : State) : (s.setPpu u).fault = s.fault := rfl

@[simp] theorem setFlag_cpu (f : Flag) (v : Bool) (s : State) :
    (s.setFlag f v).cpu = { s.cpu with p := putFlag f v s.cpu.p } := rfl
@[simp] theorem setFlag_bus (f : Flag) (v : Bool) (s : State) : (s.setFlag f v).bus = s.bus := rfl
@[simp] theorem setFlag_ppu (f : Flag) (v : Bool) (s : State) : (s.setFlag f v).ppu = s.ppu := rfl
@[simp] theorem setFlag_host (f : Flag) (v : Bool) (s : State) : (s.setFlag f v).host = s.host := rfl
@[simp] theorem setFlag_fault (f : Flag) (v : Bool) (s : State) : (s.setFlag f v).fault = s.fault := rfl

@[simp] theorem setNZ_cpu (v : Byte) (s : State) : (s.setNZ v).cpu = { s.cpu with p := putNZ v s.cpu.p } := rfl
@[simp] theorem setNZ_bus (v : Byte) (s : State) : (s.setNZ v).bus = s.bus := rfl
@[simp] theorem setNZ_ppu (v : Byte) (s : State) : (s.setNZ v).ppu = s.ppu := rfl
@[simp] theorem setNZ_host (v : Byte) (s : State) : (s.setNZ v).host = s.host := rfl
@[simp] theorem setNZ_fault (v : Byte) (s : State) : (s.setNZ v).fault = s.fault := rfl

/-- Two states with the same parts are the same. -/
theorem State.ext_parts {s t : State} (h1 : s.cpu = t.cpu) (h2 : s.bus = t.bus) (h3 : s.ppu = t.ppu)
    (h4 : s.host = t.host) (h5 : s.fault = t.fault) : s = t := by
  cases s; cases t; simp_all

end Sys2Proof.Machine
end

