-- ==== Sys2Proof/Laws/Bus.lean ====
section
/-! SUPPORT. What one bus access can do, said once: where an address is routed, what a read and a write leave alone,
and what a later read of any address gives. Callers cite these and do not unfold `route`. -/

namespace Sys2Proof.Machine

open Sys2Proof.Safety

/-! ## Routing -/

theorem route_ram {k : PrgBanks} {a : Word} (h : isRam a = true) :
    (a.toNat < 0x0800 ∧ route k a = .wram a.toNat) ∨
      (0x4020 ≤ a.toNat ∧ a.toNat < 0x6000 ∧ route k a = .xram (a.toNat - 0x4020)) ∨
      (0x6000 ≤ a.toNat ∧ a.toNat < 0x8000 ∧ route k a = .sram (a.toNat - 0x6000)) := by
  simp only [isRam, decide_eq_true_eq] at h
  rcases h with h | ⟨h1, h2⟩
  · left; exact ⟨h, by simp [route, h]⟩
  · right
    by_cases h3 : a.toNat < 0x6000
    · left; exact ⟨h1, h3, by simp only [route]; repeat rw [if_neg (by omega)]
                              rw [if_pos h3]⟩
    · right; exact ⟨by omega, h2, by simp only [route]; repeat rw [if_neg (by omega)]
                                     rw [if_pos h2]⟩

theorem route_rom {k : PrgBanks} {a : Word} (h : isRom a = true) : route k a = .prg (prgIndex k a.toNat) := by
  simp only [isRom, decide_eq_true_eq] at h
  simp only [route]
  repeat rw [if_neg (by omega)]

theorem route_port {k : PrgBanks} {a : Word} (h : isPort a = true) : ∃ p, route k a = .port p := by
  simp only [isPort, decide_eq_true_eq] at h
  rcases h with ⟨h1, h2⟩ | h
  · simp only [route]
    rw [if_neg (by omega), if_neg (by omega), if_pos (by omega)]
    split <;> exact ⟨_, rfl⟩
  · exact ⟨.oamDma, by simp [route, h]⟩

theorem route_unused {k : PrgBanks} {a : Word} (h : isUnused a = true) : route k a = .unused := by
  simp only [isUnused, decide_eq_true_eq] at h
  simp only [route]
  rcases h with h | h | h
  · rw [if_neg (by omega), if_pos (by omega)]
  · rw [if_neg (by omega), if_neg (by omega), if_neg (by omega), if_pos (by omega)]
  · rw [if_neg (by omega), if_neg (by omega), if_neg (by omega), if_neg (by omega), if_neg (by omega),
      if_pos (by omega)]

/-- Every address is exactly one of: RAM, ROM, a port, nothing (R60). -/
theorem address_classes (a : Word) :
    isRam a = true ∧ isRom a = false ∧ isPort a = false ∧ isUnused a = false ∨
    isRam a = false ∧ isRom a = true ∧ isPort a = false ∧ isUnused a = false ∨
    isRam a = false ∧ isRom a = false ∧ isPort a = true ∧ isUnused a = false ∨
    isRam a = false ∧ isRom a = false ∧ isPort a = false ∧ isUnused a = true := by
  simp only [isRam, isRom, isPort, isUnused, decide_eq_true_eq, decide_eq_false_iff_not]
  omega

/-- Only the nine port addresses are routed to the PPU. -/
theorem isPort_of_route {k : PrgBanks} {a : Word} {p : Port} (h : route k a = .port p) : isPort a = true := by
  rcases address_classes a with c | c | c | c
  · rcases route_ram (k := k) c.1 with ⟨_, e⟩ | ⟨_, _, e⟩ | ⟨_, _, e⟩ <;> simp [e] at h
  · simp [route_rom (k := k) c.2.1] at h
  · exact c.2.2.1
  · simp [route_unused (k := k) c.2.2.2] at h

/-- The address of a port (R280). -/
theorem address_of_port {k : PrgBanks} {a : Word} {p : Port} (h : route k a = .port p) :
    a = match p with
      | .ctrl => 0x2000
      | .mask => 0x2001
      | .status => 0x2002
      | .oamAddr => 0x2003
      | .oamData => 0x2004
      | .scroll => 0x2005
      | .vramAddr => 0x2006
      | .vramData => 0x2007
      | .oamDma => 0x4014 := by
  have hp := isPort_of_route h
  simp only [isPort, decide_eq_true_eq] at hp
  have hc : a.toNat = 0x2000 ∨ a.toNat = 0x2001 ∨ a.toNat = 0x2002 ∨ a.toNat = 0x2003 ∨ a.toNat = 0x2004 ∨
      a.toNat = 0x2005 ∨ a.toNat = 0x2006 ∨ a.toNat = 0x2007 ∨ a.toNat = 0x4014 := by omega
  have e : a = BitVec.ofNat 16 a.toNat := by simp
  rcases hc with c | c | c | c | c | c | c | c | c <;> rw [c] at e <;> subst e <;> cases k <;> cases h <;> rfl

/-! ## Ports -/

@[simp] theorem portRead_vram (p : Port) (u : Ppu) : (portRead p u).2.vram = u.vram := by cases p <;> rfl
@[simp] theorem portRead_oam (p : Port) (u : Ppu) : (portRead p u).2.oam = u.oam := by cases p <;> rfl

/-! ## Reads -/

/-- A read changes the PPU at most. -/
theorem memRead_state (a : Word) (s : State) : (memRead a s).2 = s.setPpu (memRead a s).2.ppu := by
  unfold memRead; split <;> rfl

@[simp] theorem memRead_cpu (a : Word) (s : State) : (memRead a s).2.cpu = s.cpu := by rw [memRead_state]; rfl
@[simp] theorem memRead_bus (a : Word) (s : State) : (memRead a s).2.bus = s.bus := by rw [memRead_state]; rfl
@[simp] theorem memRead_host (a : Word) (s : State) : (memRead a s).2.host = s.host := by rw [memRead_state]; rfl
@[simp] theorem memRead_fault (a : Word) (s : State) : (memRead a s).2.fault = s.fault := by rw [memRead_state]; rfl

@[simp] theorem memRead_vram (a : Word) (s : State) : (memRead a s).2.ppu.vram = s.ppu.vram := by
  unfold memRead; split <;> simp

@[simp] theorem memRead_oam (a : Word) (s : State) : (memRead a s).2.ppu.oam = s.ppu.oam := by
  unfold memRead; split <;> simp

/-- A read of an address that is no port changes nothing. -/
theorem memRead_of_not_port {a : Word} (h : isPort a = false) (s : State) : (memRead a s).2 = s := by
  unfold memRead
  split <;> try rfl
  next p e => simp [isPort_of_route e] at h

@[simp] theorem memRead_fst (a : Word) (s : State) : (memRead a s).1 = peek a s := rfl

/-- The byte an address reads depends on the bus's memories, and at a port on the PPU. -/
theorem peek_congr {a : Word} {s t : State} (hb : s.bus = t.bus) (hp : isPort a = true → s.ppu = t.ppu) :
    peek a s = peek a t := by
  unfold peek memRead
  rw [hb]
  split <;> try rfl
  next p e => simp [hp (isPort_of_route e)]

theorem sameBytes_of_bus {s t : State} (h : t.bus = s.bus) : SameBytes s t :=
  fun b hb => peek_congr h (by simp [hb])

/-! ## Writes -/

@[simp] theorem memWrite_cpu (a : Word) (v : Byte) (s : State) : (memWrite a v s).cpu = s.cpu := by
  unfold memWrite; split <;> rfl
@[simp] theorem memWrite_host (a : Word) (v : Byte) (s : State) : (memWrite a v s).host = s.host := by
  unfold memWrite; split <;> rfl
@[simp] theorem memWrite_fault (a : Word) (v : Byte) (s : State) : (memWrite a v s).fault = s.fault := by
  unfold memWrite; split <;> rfl
@[simp] theorem memWrite_prg (a : Word) (v : Byte) (s : State) : (memWrite a v s).bus.prg = s.bus.prg := by
  unfold memWrite; split <;> rfl
@[simp] theorem memWrite_prgBanks (a : Word) (v : Byte) (s : State) :
    (memWrite a v s).bus.prgBanks = s.bus.prgBanks := by
  unfold memWrite; split <;> rfl

/-- Only a write to RAM changes the bus's memories. -/
theorem memWrite_bus_of_not_ram {a : Word} (h : isRam a = false) (v : Byte) (s : State) :
    (memWrite a v s).bus = s.bus := by
  unfold memWrite
  rcases address_classes a with c | c | c | c
  · simp [c.1] at h
  · rw [route_rom c.2.1]
  · obtain ⟨p, e⟩ := route_port (k := s.bus.prgBanks) c.2.2.1; rw [e]; rfl
  · rw [route_unused c.2.2.2]

/-- Only a write to a port changes the PPU. -/
theorem memWrite_ppu_of_not_port {a : Word} (h : isPort a = false) (v : Byte) (s : State) :
    (memWrite a v s).ppu = s.ppu := by
  unfold memWrite
  split <;> try rfl
  next p e => simp [isPort_of_route e] at h

/-- A write to an address that is neither RAM nor a port is discarded (R71, R72). -/
theorem memWrite_discarded {a : Word} (h : isRom a = true ∨ isUnused a = true) (v : Byte) (s : State) :
    memWrite a v s = s := by
  unfold memWrite
  rcases h with h | h
  · rw [route_rom h]
  · rw [route_unused h]

theorem peek_ram {a : Word} (s : State) (h : isRam a = true) :
    peek a s =
      if a.toNat < 0x0800 then s.bus.wram.read a.toNat
      else if a.toNat < 0x6000 then s.bus.xram.read (a.toNat - 0x4020) else s.bus.sram.read (a.toNat - 0x6000) := by
  unfold peek memRead
  rcases route_ram (k := s.bus.prgBanks) h with ⟨h1, e⟩ | ⟨h1, h2, e⟩ | ⟨h1, h2, e⟩
  · rw [e, if_pos h1]
  · rw [e, if_neg (by omega), if_pos h2]
  · rw [e, if_neg (by omega), if_neg (by omega)]

/-- A RAM byte reads as the byte just written to it. -/
theorem peek_memWrite_same {a : Word} (h : isRam a = true) (v : Byte) (s : State) : peek a (memWrite a v s) = v := by
  rw [peek_ram _ h]
  unfold memWrite
  rcases route_ram (k := s.bus.prgBanks) h with ⟨h1, e⟩ | ⟨h1, h2, e⟩ | ⟨h1, h2, e⟩
  · simp [e, h1]
  · simp [e, show ¬a.toNat < 0x0800 by omega, h2]
  · simp [e, show ¬a.toNat < 0x0800 by omega, show ¬a.toNat < 0x6000 by omega]

/-- A write leaves every byte at another address that is no port as it was. -/
theorem peek_memWrite_other {a b : Word} (hab : b ≠ a) (hb : isPort b = false) (v : Byte) (s : State) :
    peek b (memWrite a v s) = peek b s := by
  have hn : b.toNat ≠ a.toNat := fun e => hab (BitVec.eq_of_toNat_eq e)
  by_cases ha : isRam a = true
  · by_cases hbr : isRam b = true
    · rw [peek_ram _ hbr, peek_ram _ hbr]
      simp only [isRam, decide_eq_true_eq] at ha hbr
      unfold memWrite
      rcases route_ram (k := s.bus.prgBanks) (a := a) (by simp [isRam, ha]) with ⟨h1, e⟩ | ⟨h1, h2, e⟩ | ⟨h1, h2, e⟩ <;>
        simp only [e] <;> (repeat' split) <;> try rfl
      all_goals exact Memory.read_write_other _ _ (by omega)
    · unfold peek memRead
      rw [memWrite_prgBanks]
      rcases address_classes b with c | c | c | c
      · exact absurd c.1 hbr
      · rw [route_rom c.2.1]; simp
      · simp [c.2.2.1] at hb
      · rw [route_unused c.2.2.2]
  · exact peek_congr (memWrite_bus_of_not_ram (by simpa using ha) v s) (by simp [hb])

/-- The frame of one write. -/
theorem sameBytesExcept_memWrite (a : Word) (v : Byte) (s : State) : SameBytesExcept a s (memWrite a v s) :=
  fun _ hb hab => peek_memWrite_other hab hb v s

/-! ## The zero page and the stack page -/

theorem zext_not_port (b : Byte) : isPort (zext b) = false := by
  have := b.isLt
  simp [isPort, zext, BitVec.toNat_setWidth]; omega

theorem zext_ram (b : Byte) : isRam (zext b) = true := by
  have := b.isLt
  simp [isRam, zext, BitVec.toNat_setWidth]; omega

theorem wordOf_toNat (hi lo : Byte) : (wordOf hi lo).toNat = 256 * hi.toNat + lo.toNat := by
  have h := lo.isLt
  simp only [wordOf, BitVec.toNat_append]
  rw [Nat.shiftLeft_eq, Nat.mul_comm, ← Nat.two_pow_add_eq_or_of_lt (by simpa using h)]

theorem stackSlot_toNat (b : Byte) : (stackSlot b).toNat = 0x100 + b.toNat := by
  rw [stackSlot, wordOf_toNat]; rfl

/-- The slot SP designates is `0x0100 + zext_16(SP)` (R21). -/
theorem stackSlot_eq (b : Byte) : stackSlot b = 0x0100 + zext b := by
  have := b.isLt
  apply BitVec.eq_of_toNat_eq
  rw [stackSlot_toNat]
  simp [zext, BitVec.toNat_add, BitVec.toNat_setWidth]; omega

theorem stackSlot_ram (b : Byte) : isRam (stackSlot b) = true := by
  have := b.isLt
  simp [isRam, stackSlot_toNat]; omega

theorem stackSlot_not_port (b : Byte) : isPort (stackSlot b) = false := by
  have := b.isLt
  simp [isPort, stackSlot_toNat]; omega

theorem stackSlot_inj {b c : Byte} (h : stackSlot b = stackSlot c) : b = c := by
  have := congrArg BitVec.toNat h
  rw [stackSlot_toNat, stackSlot_toNat] at this
  exact BitVec.eq_of_toNat_eq (by omega)

/-! ## Words -/

theorem loByte_toNat (a : Word) : (loByte a).toNat = a.toNat % 256 := by simp [loByte]

theorem hiByte_toNat (a : Word) : (hiByte a).toNat = a.toNat / 256 := by
  have := a.isLt
  simp [hiByte, Nat.shiftRight_eq_div_pow]; omega

@[simp] theorem wordOf_bytes (a : Word) : wordOf (hiByte a) (loByte a) = a := by
  apply BitVec.eq_of_toNat_eq
  rw [wordOf_toNat, hiByte_toNat, loByte_toNat]; omega

@[simp] theorem loByte_wordOf (hi lo : Byte) : loByte (wordOf hi lo) = lo := by
  apply BitVec.eq_of_toNat_eq
  have := lo.isLt
  rw [loByte_toNat, wordOf_toNat]; omega

@[simp] theorem hiByte_wordOf (hi lo : Byte) : hiByte (wordOf hi lo) = hi := by
  apply BitVec.eq_of_toNat_eq
  have := lo.isLt
  rw [hiByte_toNat, wordOf_toNat]; omega

end Sys2Proof.Machine
end

