-- ==== Sys2Proof/Laws/Decode.lean ====
section
/-! SUPPORT. Facts about the opcode map and the decoder that the round trips rest on. -/

namespace Sys2Proof

/-- The decoder's grid (R120) and the encoder's table (R112) agree: every byte with a body is the opcode of its class
in its mode. -/
theorem opcodeOf_descriptor (b : Byte) (h : (descriptor b).cls ≠ .illegal) :
    opcodeOf (descriptor b).cls (descriptor b).mode = some b := by
  revert b; decide +kernel

/-- The bytes with no body are R122's. -/
theorem descriptor_illegal_iff (b : Byte) : (descriptor b).cls = .illegal ↔ b ∈ illegalOpcodes := by
  revert b; decide +kernel

/-- Every entry of the grid pairs a class with a mode it has (R112). -/
theorem descriptor_mode_legal (b : Byte) : (descriptor b).mode ∈ legalModes (descriptor b).cls := by
  revert b; decide +kernel

/-- An instruction assembled from a grid entry has that entry's class. -/
theorem assemble_mnemonic (d : Descriptor) (b b1 b2 : Byte) : (assemble d b b1 b2).mnemonic = d.cls := by
  unfold assemble; cases d.cls <;> rfl

/-- An operand read in a mode that has one is of that mode. -/
theorem operandOf_mode {m : Mode} (h : m ≠ .imp) (h' : m ≠ .rel) (b1 b2 : Byte) : (operandOf m b1 b2).mode = m := by
  cases m <;> simp_all [operandOf, Operand.mode]

/-- An instruction assembled from a grid entry has that entry's mode. -/
theorem assemble_mode (d : Descriptor) (h : d.mode ∈ legalModes d.cls) (b b1 b2 : Byte) :
    (assemble d b b1 b2).mode = d.mode := by
  obtain ⟨c, m, cyc⟩ := d
  cases c <;> cases m <;> first | rfl | simp [legalModes] at h

/-- An instruction assembled from a byte's own grid entry is well-formed. -/
theorem assemble_wf (b b1 b2 : Byte) : (assemble (descriptor b) b b1 b2).wf = true := by
  have hm := descriptor_mode_legal b
  have h1 : (assemble (descriptor b) b b1 b2).modeLegal = true := by
    simp only [Instr.modeLegal, assemble_mnemonic, assemble_mode _ hm, decide_eq_true_eq]; exact hm
  have h2 : (assemble (descriptor b) b b1 b2).opcodeLegal = true := by
    by_cases h : (descriptor b).cls = .illegal
    · have : assemble (descriptor b) b b1 b2 = .illegal b := by unfold assemble; rw [h]
      rw [this]; simpa [Instr.opcodeLegal] using (descriptor_illegal_iff b).1 h
    · unfold assemble
      cases e : (descriptor b).cls <;> first | rfl | exact absurd e h
  simp [Instr.wf, h1, h2]

/-- The length of an assembled instruction is its entry's. -/
theorem assemble_length (b b1 b2 : Byte) : (assemble (descriptor b) b b1 b2).length = (descriptor b).length := by
  simp only [Instr.length, Descriptor.length, assemble_mode _ (descriptor_mode_legal b)]

/-- What decoding answers, by the length of the first byte's mode: the inversion every decode claim cites. -/
theorem decode_cons (b : Byte) (rest : List Byte) :
    ((descriptor b).length = 1 ∧ decode (b :: rest) = .ok (assemble (descriptor b) b 0 0, rest)) ∨
    ((descriptor b).length = 2 ∧
      (rest = [] ∧ decode (b :: rest) = .error (.missingOperand b) ∨
        ∃ b1 r, rest = b1 :: r ∧ decode (b :: rest) = .ok (assemble (descriptor b) b b1 0, r))) ∨
    ((descriptor b).length = 3 ∧
      (rest.length < 2 ∧ decode (b :: rest) = .error (.missingOperand b) ∨
        ∃ b1 b2 r, rest = b1 :: b2 :: r ∧ decode (b :: rest) = .ok (assemble (descriptor b) b b1 b2, r))) := by
  have hl : (descriptor b).length = 1 ∨ (descriptor b).length = 2 ∨ (descriptor b).length = 3 := by
    unfold Descriptor.length; cases (descriptor b).mode <;> simp [Mode.length]
  rcases hl with h | h | h
  · left; exact ⟨h, by simp only [decode, h]⟩
  · right; left; refine ⟨h, ?_⟩
    rcases rest with _ | ⟨b1, r⟩
    · left; exact ⟨rfl, by simp only [decode, h]⟩
    · right; exact ⟨b1, r, rfl, by simp only [decode, h]⟩
  · right; right; refine ⟨h, ?_⟩
    rcases rest with _ | ⟨b1, _ | ⟨b2, r⟩⟩
    · left; exact ⟨by simp, by simp only [decode, h]⟩
    · left; exact ⟨by simp, by simp only [decode, h]⟩
    · right; exact ⟨b1, b2, r, rfl, by simp only [decode, h]⟩

end Sys2Proof
end

