-- ==== Sys2Proof/Laws/Flags.lean ====
section
/-! SUPPORT. What each flag computation does to each flag, and no other (R22, R23, R36). -/

namespace Sys2Proof.Machine

/-- Writing one flag writes that flag and no other. -/
theorem getFlag_putFlag (f g : Flag) (v : Bool) (p : Byte) :
    getFlag f (putFlag g v p) = if f = g then v else getFlag f p := by
  cases f <;> cases g <;> cases v <;> simp [getFlag, putFlag, Flag.bit]

@[simp] theorem getFlag_putFlag_same (f : Flag) (v : Bool) (p : Byte) : getFlag f (putFlag f v p) = v := by
  simp [getFlag_putFlag]

@[simp] theorem getFlag_n_putNZ (v p : Byte) : getFlag .n (putNZ v p) = v.getLsbD 7 := by
  simp [putNZ, getFlag_putFlag]

@[simp] theorem getFlag_z_putNZ (v p : Byte) : getFlag .z (putNZ v p) = decide (v = 0) := by
  simp [putNZ, beq_eq_decide]

/-- `SetNZ` writes N and Z only. -/
theorem getFlag_putNZ_other {f : Flag} (v p : Byte) (hn : f ≠ .n) (hz : f ≠ .z) :
    getFlag f (putNZ v p) = getFlag f p := by
  simp [putNZ, getFlag_putFlag, hn, hz]

theorem getFlag_putSum (q : Sum) (p : Byte) (f : Flag) :
    getFlag f (putSum q p) =
      match f with
      | .n => q.res.getLsbD 7
      | .z => decide (q.res = 0)
      | .v => q.overflow
      | .c => q.carry
      | _ => getFlag f p := by
  cases f <;> simp [putSum, getFlag_putNZ_other, getFlag_putFlag]

theorem getFlag_putCompare (reg m p : Byte) (f : Flag) :
    getFlag f (putCompare reg m p) =
      match f with
      | .n => (reg - m).getLsbD 7
      | .z => decide (reg - m = 0)
      | .c => decide (m.toNat ≤ reg.toNat)
      | _ => getFlag f p := by
  cases f <;> simp [putCompare, getFlag_putNZ_other, getFlag_putFlag]

theorem getFlag_putBit (a m p : Byte) (f : Flag) :
    getFlag f (putBit a m p) =
      match f with
      | .n => m.getLsbD 7
      | .v => m.getLsbD 6
      | .z => decide (a &&& m = 0)
      | _ => getFlag f p := by
  cases f <;> simp [putBit, getFlag_putFlag, beq_eq_decide]

theorem getFlag_putShifted (q : Shifted) (p : Byte) (f : Flag) :
    getFlag f (putShifted q p) =
      match f with
      | .n => q.res.getLsbD 7
      | .z => decide (q.res = 0)
      | .c => q.carry
      | _ => getFlag f p := by
  cases f <;> simp [putShifted, getFlag_putNZ_other, getFlag_putFlag]

/-! ## The arithmetic in closed form -/

theorem addWithCarry_toNat (a m : Byte) (c : Bool) :
    (addWithCarry a m c).res.toNat = (a.toNat + m.toNat + c.toNat) % 256 := by
  simp [addWithCarry]

theorem addWithCarry_carry (a m : Byte) (c : Bool) :
    (addWithCarry a m c).carry = decide (255 < a.toNat + m.toNat + c.toNat) := rfl

/-- R160's overflow formula looks at the three sign bits only. -/
theorem overflow_formula (a m r : Byte) :
    ((~~~(a ^^^ m) &&& (a ^^^ r) &&& 0x80 : Byte) != 0) =
      ((decide (128 ≤ a.toNat) == decide (128 ≤ m.toNat)) && (decide (128 ≤ a.toNat) != decide (128 ≤ r.toNat))) := by
  have key : ∀ x : Byte, (x &&& 0x80 != 0) = x.getLsbD 7 := by decide
  have sign : ∀ x : Byte, decide (128 ≤ x.toNat) = x.getLsbD 7 := by decide
  rw [key, sign, sign, sign]
  simp only [BitVec.getLsbD_and, BitVec.getLsbD_not, BitVec.getLsbD_xor]
  cases a.getLsbD 7 <;> cases m.getLsbD 7 <;> cases r.getLsbD 7 <;> rfl

/-- The overflow formula of R160 is the signed sum leaving -128 to 127 (R170). -/
theorem addWithCarry_overflow (a m : Byte) (c : Bool) :
    (addWithCarry a m c).overflow =
      decide (a.toInt + m.toInt + c.toNat < -128 ∨ 127 < a.toInt + m.toInt + c.toNat) := by
  have e : (addWithCarry a m c).overflow = _ := overflow_formula a m (addWithCarry a m c).res
  have ha := a.isLt
  have hm := m.isLt
  have hc : c.toNat ≤ 1 := c.toNat_le
  rw [e, addWithCarry_toNat, BitVec.toInt_eq_toNat_cond, BitVec.toInt_eq_toNat_cond]
  generalize a.toNat = x at *
  generalize m.toNat = y at *
  generalize c.toNat = z at *
  rw [Bool.eq_iff_iff]
  simp only [Bool.and_eq_true, beq_iff_eq, bne_iff_ne, ne_eq, decide_eq_decide, decide_eq_true_eq]
  split <;> split <;> omega

theorem xor_ff_toNat (m : Byte) : (m ^^^ 0xFF).toNat = 255 - m.toNat := by
  revert m; decide

theorem xor_ff_toInt (m : Byte) : (m ^^^ 0xFF).toInt = -1 - m.toInt := by
  revert m; decide

end Sys2Proof.Machine
end

