-- ==== Sys2Proof/Laws/Operands.lean ====
section
/-! SUPPORT. What resolving, reading and modifying an operand, the stack primitives and the fetch can do, said once. -/

namespace Sys2Proof.Machine

open Sys2Proof.Safety

/-! ## Word reads and pointers -/

@[simp] theorem memReadWord_cpu (a : Word) (s : State) : (memReadWord a s).2.cpu = s.cpu := by simp [memReadWord]
@[simp] theorem memReadWord_bus (a : Word) (s : State) : (memReadWord a s).2.bus = s.bus := by simp [memReadWord]
@[simp] theorem memReadWord_host (a : Word) (s : State) : (memReadWord a s).2.host = s.host := by simp [memReadWord]
@[simp] theorem memReadWord_fault (a : Word) (s : State) : (memReadWord a s).2.fault = s.fault := by simp [memReadWord]
@[simp] theorem memReadWord_vram (a : Word) (s : State) : (memReadWord a s).2.ppu.vram = s.ppu.vram := by
  simp [memReadWord]
@[simp] theorem memReadWord_oam (a : Word) (s : State) : (memReadWord a s).2.ppu.oam = s.ppu.oam := by
  simp [memReadWord]

theorem memReadWord_of_not_port {a : Word} (h : isPort a = false) (h' : isPort (a + 1) = false) (s : State) :
    memReadWord a s = (wordOf (peek (a + 1) s) (peek a s), s) := by
  simp only [memReadWord, memRead_of_not_port h, memRead_fst]
  rw [memRead_of_not_port h']

/-- A pointer in page zero is read with no side effect. -/
theorem zeroPagePointer_eq (p : Byte) (s : State) :
    zeroPagePointer p s = (wordOf (peek (zext (p + 1)) s) (peek (zext p) s), s) := by
  simp [zeroPagePointer, memRead_of_not_port (zext_not_port _)]

/-! ## Resolving -/

/-- Resolving changes the state only by the pointer reads of the indirect mode. -/
theorem resolve_state {o : Operand} (h : o.mode ≠ .ind) (s : State) : (resolve o s).2 = s := by
  cases o <;> simp [resolve, zeroPagePointer_eq, Operand.mode] at h ⊢

@[simp] theorem resolve_cpu (o : Operand) (s : State) : (resolve o s).2.cpu = s.cpu := by
  cases o <;> simp [resolve, zeroPagePointer_eq]
@[simp] theorem resolve_bus (o : Operand) (s : State) : (resolve o s).2.bus = s.bus := by
  cases o <;> simp [resolve, zeroPagePointer_eq]
@[simp] theorem resolve_host (o : Operand) (s : State) : (resolve o s).2.host = s.host := by
  cases o <;> simp [resolve, zeroPagePointer_eq]
@[simp] theorem resolve_fault (o : Operand) (s : State) : (resolve o s).2.fault = s.fault := by
  cases o <;> simp [resolve, zeroPagePointer_eq]
@[simp] theorem resolve_vram (o : Operand) (s : State) : (resolve o s).2.ppu.vram = s.ppu.vram := by
  cases o <;> simp [resolve, zeroPagePointer_eq]
@[simp] theorem resolve_oam (o : Operand) (s : State) : (resolve o s).2.ppu.oam = s.ppu.oam := by
  cases o <;> simp [resolve, zeroPagePointer_eq]

theorem resolve_of_effectiveAddress {o : Operand} {s : State} {a : Word} (h : effectiveAddress? o s = some a) :
    (resolve o s).1 = .ea a := by
  unfold effectiveAddress? at h
  split at h <;> simp_all

/-! ## Reading an operand -/

@[simp] theorem load_cpu (r : Resolved) (s : State) : (load r s).2.cpu = s.cpu := by cases r <;> simp [load]
@[simp] theorem load_bus (r : Resolved) (s : State) : (load r s).2.bus = s.bus := by cases r <;> simp [load]
@[simp] theorem load_host (r : Resolved) (s : State) : (load r s).2.host = s.host := by cases r <;> simp [load]
@[simp] theorem load_fault (r : Resolved) (s : State) : (load r s).2.fault = s.fault := by cases r <;> simp [load]
@[simp] theorem load_vram (r : Resolved) (s : State) : (load r s).2.ppu.vram = s.ppu.vram := by cases r <;> simp [load]
@[simp] theorem load_oam (r : Resolved) (s : State) : (load r s).2.ppu.oam = s.ppu.oam := by cases r <;> simp [load]

@[simp] theorem readOperand_cpu (o : Operand) (s : State) : (readOperand o s).2.cpu = s.cpu := by simp [readOperand]
@[simp] theorem readOperand_bus (o : Operand) (s : State) : (readOperand o s).2.bus = s.bus := by simp [readOperand]
@[simp] theorem readOperand_host (o : Operand) (s : State) : (readOperand o s).2.host = s.host := by simp [readOperand]
@[simp] theorem readOperand_fault (o : Operand) (s : State) : (readOperand o s).2.fault = s.fault := by
  simp [readOperand]
@[simp] theorem readOperand_vram (o : Operand) (s : State) : (readOperand o s).2.ppu.vram = s.ppu.vram := by
  simp [readOperand]
@[simp] theorem readOperand_oam (o : Operand) (s : State) : (readOperand o s).2.ppu.oam = s.ppu.oam := by
  simp [readOperand]

/-- Reading an operand that is at no port changes nothing. -/
theorem readOperand_state {o : Operand} {s : State} (h : o.mode ≠ .ind)
    (h' : ∀ a, effectiveAddress? o s = some a → isPort a = false) : (readOperand o s).2 = s := by
  unfold readOperand
  simp only [resolve_state h]
  unfold effectiveAddress? at h'
  cases e : (resolve o s).1 with
  | acc => rfl
  | imm v => rfl
  | ea a => exact memRead_of_not_port (h' a (by simp [e])) s

/-- The frame of reading an operand: any state whose bus, PPU, host and fault are those the read leaves. -/
theorem onlyReads_of {o : Operand} {s t : State} (hb : t.bus = s.bus) (hp : t.ppu = (readOperand o s).2.ppu)
    (hh : t.host = s.host) (hf : t.fault = s.fault) : OnlyReads o s t :=
  ⟨hb, hp, sameBytes_of_bus hb, ⟨by simp [hp], by simp [hp]⟩, ⟨hh, hf⟩,
    fun h h' => by rw [hp, readOperand_state h h']⟩

/-- The frame of an instruction that touches registers only. -/
theorem onlyCpu_of {s t : State} (hb : t.bus = s.bus) (hp : t.ppu = s.ppu) (hh : t.host = s.host)
    (hf : t.fault = s.fault) : OnlyCpu s t :=
  ⟨hb, hp, sameBytes_of_bus hb, hh, hf⟩

/-- The frame of one write made in the state `u` that reading from `s` leaves. -/
theorem oneStore_of {a : Word} {v : Byte} {s u t : State} (hu : u.bus = s.bus)
    (hb : t.bus = (memWrite a v u).bus) (hp : t.ppu = (memWrite a v u).ppu) (hh : t.host = s.host)
    (hf : t.fault = s.fault) : OneStore a v s u t := by
  have hpeek : ∀ b, peek b t = peek b (memWrite a v u) := fun b => peek_congr hb fun _ => hp
  refine ⟨hb, hp, fun b hbp hab => ?_, fun hr => ?_, fun hr => ?_, fun hr => ?_, hh, hf⟩
  · rw [hpeek, peek_memWrite_other hab hbp]; exact peek_congr hu (by simp [hbp])
  · rw [hpeek, peek_memWrite_same hr]
  · rw [hb, memWrite_bus_of_not_ram hr, hu]
  · rw [hp, memWrite_ppu_of_not_port hr]

/-! ## The stack -/

@[simp] theorem push8_cpu (v : Byte) (s : State) : (push8 v s).cpu = { s.cpu with sp := s.cpu.sp + 1 } := by
  simp [push8]
@[simp] theorem push8_host (v : Byte) (s : State) : (push8 v s).host = s.host := by simp [push8]
@[simp] theorem push8_fault (v : Byte) (s : State) : (push8 v s).fault = s.fault := by simp [push8]
@[simp] theorem push8_ppu (v : Byte) (s : State) : (push8 v s).ppu = s.ppu := by
  simp [push8, memWrite_ppu_of_not_port (stackSlot_not_port _)]

/-- After a push the slot holds the byte and every other byte outside the ports is as it was. -/
theorem peek_push8 (v : Byte) (s : State) (b : Word) (h : isPort b = false) :
    peek b (push8 v s) = if b = stackSlot s.cpu.sp then v else peek b s := by
  have e : peek b (push8 v s) = peek b (memWrite (stackSlot s.cpu.sp) v s) := peek_congr rfl fun _ => rfl
  rw [e]
  split
  · next h => rw [h, peek_memWrite_same (stackSlot_ram _)]
  · next hb => exact peek_memWrite_other hb h v s

/-- A pop reads the slot below and moves SP, nothing else. -/
theorem pop8_eq (s : State) : pop8 s = (peek (stackSlot (s.cpu.sp - 1)) s, s.setSp (s.cpu.sp - 1)) := by
  have e : pop8 s = memRead (stackSlot (s.cpu.sp - 1)) (s.setSp (s.cpu.sp - 1)) := rfl
  rw [e]
  refine Prod.ext ?_ ?_
  · exact peek_congr rfl fun _ => rfl
  · exact memRead_of_not_port (stackSlot_not_port _) _

theorem peek_setSp (v : Byte) (s : State) (b : Word) : peek b (s.setSp v) = peek b s := peek_congr rfl fun _ => rfl
theorem peek_setP (v : Byte) (s : State) (b : Word) : peek b (s.setP v) = peek b s := peek_congr rfl fun _ => rfl
theorem peek_setPc (v : Word) (s : State) (b : Word) : peek b (s.setPc v) = peek b s := peek_congr rfl fun _ => rfl

theorem pop16_eq (s : State) :
    pop16 s = (wordOf (peek (stackSlot (s.cpu.sp - 1)) s) (peek (stackSlot (s.cpu.sp - 2)) s),
      s.setSp (s.cpu.sp - 2)) := by
  have e : s.cpu.sp - 1 - 1 = s.cpu.sp - 2 := by simp [BitVec.sub_sub]
  simp only [pop16, pop8_eq, setSp_cpu, peek_setSp, e]
  rfl

/-! ## Fetching -/

/-- Away from the ports a fetch reads the byte at PC and moves PC. -/
theorem fetch8_of_not_port {s : State} (h : isPort s.cpu.pc = false) :
    fetch8 s = (peek s.cpu.pc s, s.setPc (s.cpu.pc + 1)) := by
  simp only [fetch8, memRead_of_not_port h]; rfl

@[simp] theorem fetch8_fst (s : State) : (fetch8 s).1 = peek s.cpu.pc s := rfl
@[simp] theorem fetch8_bus (s : State) : (fetch8 s).2.bus = s.bus := by simp [fetch8]
@[simp] theorem fetch8_host (s : State) : (fetch8 s).2.host = s.host := by simp [fetch8]
@[simp] theorem fetch8_fault (s : State) : (fetch8 s).2.fault = s.fault := by simp [fetch8]
@[simp] theorem fetch8_vram (s : State) : (fetch8 s).2.ppu.vram = s.ppu.vram := by simp [fetch8]
@[simp] theorem fetch8_oam (s : State) : (fetch8 s).2.ppu.oam = s.ppu.oam := by simp [fetch8]
@[simp] theorem fetch8_cpu (s : State) : (fetch8 s).2.cpu = { s.cpu with pc := s.cpu.pc + 1 } := by simp [fetch8]

/-- What a fetch leaves: the bus, the host's side, the fault and the PPU's memories as they were. -/
theorem fetchInstr_frame (s : State) :
    (fetchInstr s).2.bus = s.bus ∧ (fetchInstr s).2.host = s.host ∧ (fetchInstr s).2.fault = s.fault ∧
      (fetchInstr s).2.ppu.vram = s.ppu.vram ∧ (fetchInstr s).2.ppu.oam = s.ppu.oam := by
  unfold fetchInstr; dsimp only; split <;> simp

theorem Mode.length_cases (m : Mode) : m.length = 1 ∨ m.length = 2 ∨ m.length = 3 := by cases m <;> simp [Mode.length]

end Sys2Proof.Machine
end

