-- ==== Sys2Proof/Laws/Step.lean ====
section
/-! SUPPORT. The fetch against the decoder, and the bus operations against the invariant of the state's data. -/

namespace Sys2Proof.Machine

open Sys2Proof.Safety

/-! ## Fetching -/

@[simp] theorem afterFetch_cpu (n : Nat) (s : State) :
    (afterFetch n s).cpu = { s.cpu with pc := s.cpu.pc + BitVec.ofNat 16 n } := by
  induction n with
  | zero => simp [afterFetch]
  | succ n ih => simp only [afterFetch, fetch8_cpu, ih, BitVec.add_assoc, BitVec.ofNat_add]; rfl

@[simp] theorem afterFetch_bus (n : Nat) (s : State) : (afterFetch n s).bus = s.bus := by
  induction n with
  | zero => rfl
  | succ n ih => simp [afterFetch, ih]

@[simp] theorem afterFetch_host (n : Nat) (s : State) : (afterFetch n s).host = s.host := by
  induction n with
  | zero => rfl
  | succ n ih => simp [afterFetch, ih]

@[simp] theorem afterFetch_fault (n : Nat) (s : State) : (afterFetch n s).fault = s.fault := by
  induction n with
  | zero => rfl
  | succ n ih => simp [afterFetch, ih]

/-- Away from the ports, fetching `n` bytes only moves PC. -/
theorem afterFetch_plain (s : State) : ∀ n : Nat, PlainFetch s n →
    afterFetch n s = s.setPc (s.cpu.pc + BitVec.ofNat 16 n)
  | 0, _ => by simp [afterFetch, State.setPc]
  | n + 1, h => by
    have ih := afterFetch_plain s n fun k hk => h k (by omega)
    have hn := h n (by omega)
    rw [afterFetch, ih, fetch8_of_not_port (by simpa using hn)]
    simp only [setPc_cpu, BitVec.add_assoc, BitVec.ofNat_add]
    rfl

/-- What the step's fetch gives, by the length of the opcode's mode. -/
theorem fetchInstr_eq (s : State) :
    ∃ b1 b2, fetchInstr s =
      (assemble (descriptor (fetch8 s).1) (fetch8 s).1 b1 b2, afterFetch (descriptor (fetch8 s).1).length s) := by
  unfold fetchInstr
  dsimp only
  have hl := Mode.length_cases (descriptor (fetch8 s).1).mode
  split
  · next h => exact ⟨0, 0, by rw [h]; rfl⟩
  · next h => exact ⟨_, 0, by rw [h]; rfl⟩
  · next h1 h2 =>
    have h : (descriptor (fetch8 s).1).length = 3 := by
      rcases hl with h | h | h
      · exact absurd h h1
      · exact absurd h h2
      · exact h
    exact ⟨_, _, by rw [h]; rfl⟩

/-- The step's fetch is the decoder's reading of the bytes it fetches. -/
theorem fetchInstr_of_decode {s : State} {i : Instr} {rest : List Byte}
    (h : decode (fetchedBytes s) = .ok (i, rest)) : fetchInstr s = (i, afterFetch i.length s) := by
  have hc := decode_cons (fetch8 s).1 [(fetch8 (afterFetch 1 s)).1, (fetch8 (afterFetch 2 s)).1]
  change decode ((fetch8 s).1 :: _) = _ at h
  unfold fetchInstr
  dsimp only
  rcases hc with ⟨hl, e⟩ | ⟨hl, ⟨hr, _⟩ | ⟨b1, r, hr, e⟩⟩ | ⟨hl, ⟨hr, _⟩ | ⟨b1, b2, r, hr, e⟩⟩
  · rw [e] at h
    obtain ⟨rfl, -⟩ := Prod.mk.inj (Except.ok.inj h)
    rw [assemble_length, hl]; rfl
  · simp at hr
  · rw [e] at h
    obtain ⟨rfl, -⟩ := Prod.mk.inj (Except.ok.inj h)
    rw [assemble_length, hl, ← (List.cons.inj hr).1]; rfl
  · simp at hr
  · rw [e] at h
    obtain ⟨rfl, -⟩ := Prod.mk.inj (Except.ok.inj h)
    rw [assemble_length, hl, ← (List.cons.inj hr).1, ← (List.cons.inj (List.cons.inj hr).2).1]; rfl

/-! ## The invariant under bus operations -/

/-- The part of the invariant that speaks of the bus. -/
abbrev BusWf (b : Bus) : Prop :=
  b.wram.wf 2048 ∧ b.xram.wf 8160 ∧ b.sram.wf 8192 ∧ b.prg.wf b.prgBanks.size

/-- The part of the invariant that speaks of the PPU. -/
abbrev PpuWf (u : Ppu) : Prop := u.vram.wf 65536 ∧ u.oam.wf 256

theorem stateWf_iff (s : State) : StateWf s ↔ BusWf s.bus ∧ PpuWf s.ppu ∧ FrameWf s.host.frame := by
  simp only [StateWf, BusWf, PpuWf]; tauto

theorem portRead_wf {u : Ppu} (h : PpuWf u) (p : Port) : PpuWf (portRead p u).2 := by
  simpa [PpuWf] using h

theorem portWrite_wf {u : Ppu} (h : PpuWf u) (p : Port) (v : Byte) : PpuWf (portWrite p v u) := by
  obtain ⟨hv, ho⟩ := h
  have h1 := Memory.wf_write hv (i := u.vramAddr.toNat) (by have := u.vramAddr.isLt; omega) v
  have h2 := Memory.wf_write ho (i := u.oamAddr.toNat) (by have := u.oamAddr.isLt; omega) v
  cases p <;> simp only [portWrite] <;> first | exact ⟨hv, ho⟩ | exact ⟨hv, h2⟩ | exact ⟨h1, ho⟩ | (split <;> exact ⟨hv, ho⟩)

/-- A read keeps the canonical forms. -/
theorem memRead_wf {s : State} (h : StateWf s) (a : Word) : StateWf (memRead a s).2 := by
  rw [stateWf_iff] at h ⊢
  simpa [PpuWf] using h

/-- A write keeps the canonical forms. -/
theorem memWrite_wf {s : State} (h : StateWf s) (a : Word) (v : Byte) : StateWf (memWrite a v s) := by
  have hs := h
  rw [stateWf_iff] at h
  obtain ⟨⟨hw, hx, hr, hp⟩, hu, hf⟩ := h
  rcases address_classes a with c | c | c | c
  · unfold memWrite
    rcases route_ram (k := s.bus.prgBanks) c.1 with ⟨h1, e⟩ | ⟨h1, h2, e⟩ | ⟨h1, h2, e⟩ <;> rw [e, stateWf_iff]
    · exact ⟨⟨Memory.wf_write hw (by omega) v, hx, hr, hp⟩, hu, hf⟩
    · exact ⟨⟨hw, Memory.wf_write hx (by omega) v, hr, hp⟩, hu, hf⟩
    · exact ⟨⟨hw, hx, Memory.wf_write hr (by omega) v, hp⟩, hu, hf⟩
  · rw [memWrite_discarded (Or.inl c.2.1)]; exact hs
  · unfold memWrite
    obtain ⟨p, e⟩ := route_port (k := s.bus.prgBanks) c.2.2.1
    rw [e, stateWf_iff]
    exact ⟨⟨hw, hx, hr, hp⟩, portWrite_wf hu p v, hf⟩
  · rw [memWrite_discarded (Or.inr c.2.2.2)]; exact hs

/-- The index into program ROM by the bank count (R70). -/
theorem prgIndex_cases (k : PrgBanks) (n : Nat) :
    (k = .one ∧ prgIndex k n = if n < 0xC000 then n - 0x8000 else n - 0xC000) ∨
      (k = .two ∧ prgIndex k n = n - 0x8000) := by
  cases k
  · exact Or.inl ⟨rfl, rfl⟩
  · exact Or.inr ⟨rfl, rfl⟩

/-- The index of a ROM address is within the ROM (R70). -/
theorem prgIndex_lt (k : PrgBanks) {a : Word} (h : isRom a = true) : prgIndex k a.toNat < k.size := by
  have hl := a.isLt
  simp only [isRom, decide_eq_true_eq] at h
  rcases prgIndex_cases k a.toNat with ⟨hk, e⟩ | ⟨hk, e⟩
  · rw [e, hk, show PrgBanks.size .one = 16384 from rfl]; split <;> omega
  · rw [e, hk, show PrgBanks.size .two = 32768 from rfl]; omega

/-- Putting a byte behind an address from outside keeps the canonical forms. -/
theorem poke_wf {s : State} (h : StateWf s) (a : Word) (v : Byte) : StateWf (poke a v s) := by
  have hs := h
  rw [stateWf_iff] at h
  obtain ⟨⟨hw, hx, hr, hp⟩, hu, hf⟩ := h
  rcases address_classes a with c | c | c | c
  · unfold poke
    rcases route_ram (k := s.bus.prgBanks) c.1 with ⟨_, e⟩ | ⟨_, _, e⟩ | ⟨_, _, e⟩ <;> rw [e] <;>
      exact memWrite_wf hs a v
  · unfold poke
    rw [route_rom c.2.1, stateWf_iff]
    exact ⟨⟨hw, hx, hr, Memory.wf_write hp (prgIndex_lt _ c.2.1) v⟩, hu, hf⟩
  · unfold poke
    obtain ⟨p, e⟩ := route_port (k := s.bus.prgBanks) c.2.2.1
    rw [e]; exact hs
  · unfold poke; rw [route_unused c.2.2.2]; exact hs

end Sys2Proof.Machine
end

