-- ==== Sys2Proof/Laws/Exec.lean ====
section
/-! SUPPORT. What an instruction and a step can do to the state, said once: whatever register changes, bus accesses
and the exception keep is kept by every instruction, and with the host's operations by every step. -/

namespace Sys2Proof.Machine

open Sys2Proof.Safety

/-- A property of states that register changes and bus accesses keep. -/
structure Kept (P : State → Prop) : Prop where
  cpu : ∀ (s : State) (c : Cpu), P s → P { s with cpu := c }
  read : ∀ (a : Word) (s : State), P s → P (memRead a s).2
  write : ∀ (a : Word) (v : Byte) (s : State), P s → P (memWrite a v s)

namespace Kept

variable {P : State → Prop}

theorem setA (h : Kept P) {s : State} (v : Byte) (hs : P s) : P (s.setA v) := h.cpu s _ hs
theorem setX (h : Kept P) {s : State} (v : Byte) (hs : P s) : P (s.setX v) := h.cpu s _ hs
theorem setY (h : Kept P) {s : State} (v : Byte) (hs : P s) : P (s.setY v) := h.cpu s _ hs
theorem setSp (h : Kept P) {s : State} (v : Byte) (hs : P s) : P (s.setSp v) := h.cpu s _ hs
theorem setP (h : Kept P) {s : State} (v : Byte) (hs : P s) : P (s.setP v) := h.cpu s _ hs
theorem setPc (h : Kept P) {s : State} (v : Word) (hs : P s) : P (s.setPc v) := h.cpu s _ hs
theorem setNZ (h : Kept P) {s : State} (v : Byte) (hs : P s) : P (s.setNZ v) := h.cpu s _ hs
theorem setFlag (h : Kept P) {s : State} (f : Flag) (v : Bool) (hs : P s) : P (s.setFlag f v) := h.cpu s _ hs

theorem memReadWord (h : Kept P) (a : Word) {s : State} (hs : P s) : P (memReadWord a s).2 :=
  h.read _ _ (h.read _ _ hs)

theorem fetch8 (h : Kept P) {s : State} (hs : P s) : P (fetch8 s).2 := h.setPc _ (h.read _ _ hs)

theorem afterFetch (h : Kept P) (n : Nat) {s : State} (hs : P s) : P (afterFetch n s) := by
  induction n with
  | zero => exact hs
  | succ n ih => exact h.fetch8 ih

theorem fetchInstr (h : Kept P) {s : State} (hs : P s) : P (fetchInstr s).2 := by
  obtain ⟨b1, b2, e⟩ := fetchInstr_eq s
  rw [e]; exact h.afterFetch _ hs

theorem push8 (h : Kept P) (v : Byte) {s : State} (hs : P s) : P (push8 v s) := h.setSp _ (h.write _ _ _ hs)
theorem pop8 (h : Kept P) {s : State} (hs : P s) : P (pop8 s).2 := h.read _ _ (h.setSp _ hs)
theorem push16 (h : Kept P) (v : Word) {s : State} (hs : P s) : P (push16 v s) := h.push8 _ (h.push8 _ hs)
theorem pop16 (h : Kept P) {s : State} (hs : P s) : P (pop16 s).2 := h.pop8 (h.pop8 hs)

theorem resolve (h : Kept P) (o : Operand) {s : State} (hs : P s) : P (resolve o s).2 := by
  cases o <;> first | exact hs | exact h.memReadWord _ hs | exact h.read _ _ (h.read _ _ hs)

theorem load (h : Kept P) (r : Resolved) {s : State} (hs : P s) : P (load r s).2 := by
  cases r <;> first | exact hs | exact h.read _ _ hs

theorem readOperand (h : Kept P) (o : Operand) {s : State} (hs : P s) : P (readOperand o s).2 :=
  h.load _ (h.resolve o hs)

theorem storeByte (h : Kept P) {o : Operand} {v : Byte} {s t : State} (hs : P s) (e : storeByte o v s = .next t) : P t := by
  unfold Machine.storeByte at e
  dsimp only at e
  split at e <;> first | cases e; exact h.write _ _ _ (h.resolve o hs) | cases e

theorem modify (h : Kept P) {o : Operand} {f : Byte → Byte → Byte × Byte} {s t : State} (hs : P s)
    (e : modify o f s = .next t) : P t := by
  unfold Machine.modify at e
  dsimp only at e
  split at e
  · next u hu =>
    cases e
    refine h.setP _ ?_
    have hl := h.load (Machine.resolve o s).1 (h.resolve o hs)
    revert hl hu
    cases (Machine.resolve o s).1 <;> simp only [store] <;> intro hu hl
    · cases hu; exact h.setA _ hl
    · cases hu
    · cases hu; exact h.write _ _ _ hl
  · cases e

theorem branchIf (h : Kept P) (b : Bool) (d : Byte) {s : State} (hs : P s) : P (branchIf b d s) := by
  unfold Machine.branchIf; split
  · exact h.setPc _ hs
  · exact hs

/-- What register changes and bus accesses keep is kept by every instruction that has a body. -/
theorem exec (h : Kept P) {i : Instr} (hi : i.mnemonic ≠ .illegal) {s t : State} (hs : P s)
    (e : exec i s = .next t) : P t := by
  cases i with
  | lda o => cases e; exact h.setNZ _ (h.setA _ (h.readOperand o hs))
  | ldx o => cases e; exact h.setNZ _ (h.setX _ (h.readOperand o hs))
  | ldy o => cases e; exact h.setNZ _ (h.setY _ (h.readOperand o hs))
  | sta o => exact h.storeByte hs e
  | stx o => exact h.storeByte hs e
  | sty o => exact h.storeByte hs e
  | tax => cases e; exact h.setNZ _ (h.setX _ hs)
  | tay => cases e; exact h.setNZ _ (h.setY _ hs)
  | txa => cases e; exact h.setNZ _ (h.setA _ hs)
  | tya => cases e; exact h.setNZ _ (h.setA _ hs)
  | tsx => cases e; exact h.setNZ _ (h.setX _ hs)
  | txs => cases e; exact h.setSp _ hs
  | adc o => cases e; exact h.setP _ (h.setA _ (h.readOperand o hs))
  | sbc o => cases e; exact h.setP _ (h.setA _ (h.readOperand o hs))
  | and o => cases e; exact h.setNZ _ (h.setA _ (h.readOperand o hs))
  | ora o => cases e; exact h.setNZ _ (h.setA _ (h.readOperand o hs))
  | eor o => cases e; exact h.setNZ _ (h.setA _ (h.readOperand o hs))
  | cmp o => cases e; exact h.setP _ (h.readOperand o hs)
  | cpx o => cases e; exact h.setP _ (h.readOperand o hs)
  | cpy o => cases e; exact h.setP _ (h.readOperand o hs)
  | bit o => cases e; exact h.setP _ (h.readOperand o hs)
  | asl o => exact h.modify hs e
  | lsr o => exact h.modify hs e
  | rol o => exact h.modify hs e
  | ror o => exact h.modify hs e
  | inc o => exact h.modify (f := fun m p => (m + 1, putNZ (m + 1) p)) hs e
  | dec o => exact h.modify (f := fun m p => (m - 1, putNZ (m - 1) p)) hs e
  | inx => cases e; exact h.setNZ _ (h.setX _ hs)
  | iny => cases e; exact h.setNZ _ (h.setY _ hs)
  | dex => cases e; exact h.setNZ _ (h.setX _ hs)
  | dey => cases e; exact h.setNZ _ (h.setY _ hs)
  | pha => cases e; exact h.push8 _ hs
  | php => cases e; exact h.push8 _ hs
  | pla => cases e; exact h.setNZ _ (h.setA _ (h.pop8 hs))
  | plp => cases e; exact h.setP _ (h.pop8 hs)
  | clc => cases e; exact h.setFlag _ _ hs
  | sec => cases e; exact h.setFlag _ _ hs
  | cli => cases e; exact h.setFlag _ _ hs
  | sei => cases e; exact h.setFlag _ _ hs
  | cld => cases e; exact h.setFlag _ _ hs
  | sed => cases e; exact h.setFlag _ _ hs
  | clv => cases e; exact h.setFlag _ _ hs
  | jmp o =>
    change execJmp o s = _ at e
    unfold execJmp at e
    dsimp only at e
    split at e <;> first | cases e; exact h.setPc _ (h.resolve o hs) | cases e
  | jsr a => cases e; exact h.setPc _ (h.push16 _ hs)
  | rts => cases e; exact h.setPc _ (h.pop16 hs)
  | bcc d => cases e; exact h.branchIf _ _ hs
  | bcs d => cases e; exact h.branchIf _ _ hs
  | beq d => cases e; exact h.branchIf _ _ hs
  | bne d => cases e; exact h.branchIf _ _ hs
  | bmi d => cases e; exact h.branchIf _ _ hs
  | bpl d => cases e; exact h.branchIf _ _ hs
  | bvc d => cases e; exact h.branchIf _ _ hs
  | bvs d => cases e; exact h.branchIf _ _ hs
  | brk => cases e; exact h.setFlag _ _ hs
  | rti => cases e; exact h.setPc _ (h.pop16 (h.setP _ (h.pop8 hs)))
  | nop => cases e; exact hs
  | illegal b => exact absurd rfl hi

end Kept

/-- The illegal instruction's one effect (R250, R251). -/
theorem exec_illegal (b : Byte) (s : State) : exec (.illegal b) s = .next (raiseUnimplemented b s) := rfl

/-- Every instruction but an illegal opcode leaves the host's side and the fault alone. -/
theorem exec_rest {i : Instr} (hi : i.mnemonic ≠ .illegal) {s t : State} (e : exec i s = .next t) : SameRest s t := by
  refine Kept.exec (P := fun u => SameRest s u) ⟨fun _ _ h => h, ?_, ?_⟩ hi ⟨rfl, rfl⟩ e
  · intro a u h; simpa [SameRest] using h
  · intro a v u h; simpa [SameRest] using h

/-! ## Steps -/

/-- A left fold keeps what each of its steps keeps. -/
theorem foldl_kept {α : Type} {P : State → Prop} {f : State → α → State} (h : ∀ s a, P s → P (f s a)) :
    ∀ (l : List α) (s : State), P s → P (l.foldl f s)
  | [], _, hs => hs
  | a :: l, s, hs => foldl_kept h l (f s a) (h s a hs)

/-- What the host does after a CPU step keeps what one copied byte keeps. -/
theorem serveOamDma_kept {P : State → Prop} (h : ∀ v s i, P s → P (oamDmaCopyByte v s i)) {s t : State} (ht : P t) :
    P (serveOamDma s t) := by
  unfold serveOamDma
  split
  · exact ht
  · exact foldl_kept (fun s v hs => foldl_kept (fun s i hs => h v s i hs) _ s hs) _ t ht

/-- A CPU turn that has a next state is a CPU step and what the host then does. -/
theorem cpuTurn_inv {s t : State} (e : cpuTurn s = .next t) : ∃ u, cpuStep s = .next u ∧ t = serveOamDma s u := by
  unfold cpuTurn at e
  split at e <;> first | cases e; exact ⟨_, by assumption, rfl⟩ | cases e

/-- On the CPU's turn a step is a CPU turn of the state with that turn taken off the schedule. -/
theorem step_of_cpusTurn {s u : State} (h : CpusTurn s u) : step s = cpuTurn u := by
  obtain ⟨hr, ⟨hs, rfl⟩ | ⟨rest, hs, rfl⟩⟩ := h
  · unfold Machine.step; rw [hr, hs]
  · unfold Machine.step; rw [hr, hs]; rfl

/-- The state the CPU steps in differs from the one before in the schedule alone. -/
theorem cpusTurn_state {s u : State} (h : CpusTurn s u) : ∃ l, u = s.withSchedule l := by
  obtain ⟨-, ⟨-, rfl⟩ | ⟨rest, -, rfl⟩⟩ := h
  · exact ⟨u.host.schedule, rfl⟩
  · exact ⟨rest, rfl⟩

/-- A property that every agent's operations keep: register changes, bus accesses, recording a fault, the schedule and
the host's own operations. -/
structure KeptByAll (P : State → Prop) : Prop extends Kept P where
  fault : ∀ (s : State) (f : Option UnimplementedInstruction), P s → P { s with fault := f }
  schedule : ∀ (s : State) (l : List Turn), P s → P (s.withSchedule l)
  ppuStep : ∀ s : State, P s → P (ppuStep s)
  render : ∀ s : State, P s → P (hostRender s)
  copyByte : ∀ (v : Byte) (s : State) (i : Nat), P s → P (oamDmaCopyByte v s i)

/-- Such a property is kept by every instruction. -/
theorem KeptByAll.exec {P : State → Prop} (h : KeptByAll P) {i : Instr} {s t : State} (hs : P s)
    (e : exec i s = .next t) : P t := by
  by_cases hi : i.mnemonic = .illegal
  · cases i <;> simp [Instr.mnemonic] at hi
    cases e
    exact h.fault _ _ (h.toKept.setPc _ hs)
  · exact h.toKept.exec hi hs e

/-- Such a property is kept by a CPU turn. -/
theorem KeptByAll.cpuTurn {P : State → Prop} (h : KeptByAll P) {s t : State} (hs : P s) (e : cpuTurn s = .next t) :
    P t := by
  obtain ⟨u, e1, rfl⟩ := cpuTurn_inv e
  exact serveOamDma_kept h.copyByte (h.exec (h.toKept.fetchInstr hs) e1)

/-- Such a property is kept by every step. -/
theorem KeptByAll.step {P : State → Prop} (h : KeptByAll P) {s t : State} (hs : P s) (e : step s = .next t) : P t := by
  unfold Machine.step at e
  split at e
  · cases e
  · split at e
    · exact h.cpuTurn hs e
    · next turn rest _ =>
      have hs := h.schedule s rest hs
      cases turn
      · exact h.cpuTurn hs e
      · cases e; exact h.ppuStep _ hs
      · cases e; exact h.render _ hs
      · cases e; unfold hostPresent; split
        · exact h.render _ hs
        · exact hs
      · cases e; exact h.toKept.setFlag _ _ (h.toKept.setPc _ (h.toKept.memReadWord _ hs))

end Sys2Proof.Machine
end

