-- ==== Sys2Proof/Laws/PerInstr.lean ====
section
/-! SUPPORT. The statement made for every instruction as syntax, one lemma per constructor of `Instr`: an instruction
that exists is encoded in as many bytes as its mode's length (R104). -/

namespace Sys2Proof.Laws.EncodedLength

/-- R103, R104: the encoding of an instruction that exists has the length its mode gives. -/
def Statement (i : Instr) : Prop := i.wf = true → (encode i).length = i.length

/-- The mode of an instruction that exists has an opcode byte in the encoder's table (R112). -/
theorem opcodeOf_isSome : ∀ c : Mnemonic, ∀ m ∈ legalModes c, c ≠ .illegal → (opcodeOf c m).isSome = true := by
  intro c; cases c <;> decide

/-- A legal mode of a mnemonic is one of its listed ones. -/
theorem mode_mem {i : Instr} (h : i.wf = true) : i.mode ∈ legalModes i.mnemonic := by
  simp only [Instr.wf, Instr.modeLegal, Bool.and_eq_true, decide_eq_true_eq] at h
  exact h.1

/-- The bytes of an operand are those after the opcode (R104). -/
theorem operand_length (o : Operand) : o.bytes.length + 1 = o.mode.length := by cases o <;> rfl

/-- The encoding is the opcode byte and the operand bytes, so their count gives its length. -/
theorem length_of_opcode {i : Instr} {b : Byte} (h : i.opcode? = some b)
    (hl : i.operandBytes.length + 1 = i.length) : (encode i).length = i.length := by
  simp [encode, h, hl]

theorem lda (o : Operand) : Statement (.lda o) := by
  intro h
  obtain ⟨b, hb⟩ := Option.isSome_iff_exists.mp (opcodeOf_isSome .lda _ (mode_mem h) (by decide))
  exact length_of_opcode hb (operand_length o)
theorem ldx (o : Operand) : Statement (.ldx o) := by
  intro h
  obtain ⟨b, hb⟩ := Option.isSome_iff_exists.mp (opcodeOf_isSome .ldx _ (mode_mem h) (by decide))
  exact length_of_opcode hb (operand_length o)
theorem ldy (o : Operand) : Statement (.ldy o) := by
  intro h
  obtain ⟨b, hb⟩ := Option.isSome_iff_exists.mp (opcodeOf_isSome .ldy _ (mode_mem h) (by decide))
  exact length_of_opcode hb (operand_length o)
theorem sta (o : Operand) : Statement (.sta o) := by
  intro h
  obtain ⟨b, hb⟩ := Option.isSome_iff_exists.mp (opcodeOf_isSome .sta _ (mode_mem h) (by decide))
  exact length_of_opcode hb (operand_length o)
theorem stx (o : Operand) : Statement (.stx o) := by
  intro h
  obtain ⟨b, hb⟩ := Option.isSome_iff_exists.mp (opcodeOf_isSome .stx _ (mode_mem h) (by decide))
  exact length_of_opcode hb (operand_length o)
theorem sty (o : Operand) : Statement (.sty o) := by
  intro h
  obtain ⟨b, hb⟩ := Option.isSome_iff_exists.mp (opcodeOf_isSome .sty _ (mode_mem h) (by decide))
  exact length_of_opcode hb (operand_length o)
theorem tax : Statement .tax := fun _ => length_of_opcode rfl rfl
theorem tay : Statement .tay := fun _ => length_of_opcode rfl rfl
theorem txa : Statement .txa := fun _ => length_of_opcode rfl rfl
theorem tya : Statement .tya := fun _ => length_of_opcode rfl rfl
theorem tsx : Statement .tsx := fun _ => length_of_opcode rfl rfl
theorem txs : Statement .txs := fun _ => length_of_opcode rfl rfl
theorem adc (o : Operand) : Statement (.adc o) := by
  intro h
  obtain ⟨b, hb⟩ := Option.isSome_iff_exists.mp (opcodeOf_isSome .adc _ (mode_mem h) (by decide))
  exact length_of_opcode hb (operand_length o)
theorem sbc (o : Operand) : Statement (.sbc o) := by
  intro h
  obtain ⟨b, hb⟩ := Option.isSome_iff_exists.mp (opcodeOf_isSome .sbc _ (mode_mem h) (by decide))
  exact length_of_opcode hb (operand_length o)
theorem and (o : Operand) : Statement (.and o) := by
  intro h
  obtain ⟨b, hb⟩ := Option.isSome_iff_exists.mp (opcodeOf_isSome .and _ (mode_mem h) (by decide))
  exact length_of_opcode hb (operand_length o)
theorem ora (o : Operand) : Statement (.ora o) := by
  intro h
  obtain ⟨b, hb⟩ := Option.isSome_iff_exists.mp (opcodeOf_isSome .ora _ (mode_mem h) (by decide))
  exact length_of_opcode hb (operand_length o)
theorem eor (o : Operand) : Statement (.eor o) := by
  intro h
  obtain ⟨b, hb⟩ := Option.isSome_iff_exists.mp (opcodeOf_isSome .eor _ (mode_mem h) (by decide))
  exact length_of_opcode hb (operand_length o)
theorem cmp (o : Operand) : Statement (.cmp o) := by
  intro h
  obtain ⟨b, hb⟩ := Option.isSome_iff_exists.mp (opcodeOf_isSome .cmp _ (mode_mem h) (by decide))
  exact length_of_opcode hb (operand_length o)
theorem cpx (o : Operand) : Statement (.cpx o) := by
  intro h
  obtain ⟨b, hb⟩ := Option.isSome_iff_exists.mp (opcodeOf_isSome .cpx _ (mode_mem h) (by decide))
  exact length_of_opcode hb (operand_length o)
theorem cpy (o : Operand) : Statement (.cpy o) := by
  intro h
  obtain ⟨b, hb⟩ := Option.isSome_iff_exists.mp (opcodeOf_isSome .cpy _ (mode_mem h) (by decide))
  exact length_of_opcode hb (operand_length o)
theorem bit (o : Operand) : Statement (.bit o) := by
  intro h
  obtain ⟨b, hb⟩ := Option.isSome_iff_exists.mp (opcodeOf_isSome .bit _ (mode_mem h) (by decide))
  exact length_of_opcode hb (operand_length o)
theorem asl (o : Operand) : Statement (.asl o) := by
  intro h
  obtain ⟨b, hb⟩ := Option.isSome_iff_exists.mp (opcodeOf_isSome .asl _ (mode_mem h) (by decide))
  exact length_of_opcode hb (operand_length o)
theorem lsr (o : Operand) : Statement (.lsr o) := by
  intro h
  obtain ⟨b, hb⟩ := Option.isSome_iff_exists.mp (opcodeOf_isSome .lsr _ (mode_mem h) (by decide))
  exact length_of_opcode hb (operand_length o)
theorem rol (o : Operand) : Statement (.rol o) := by
  intro h
  obtain ⟨b, hb⟩ := Option.isSome_iff_exists.mp (opcodeOf_isSome .rol _ (mode_mem h) (by decide))
  exact length_of_opcode hb (operand_length o)
theorem ror (o : Operand) : Statement (.ror o) := by
  intro h
  obtain ⟨b, hb⟩ := Option.isSome_iff_exists.mp (opcodeOf_isSome .ror _ (mode_mem h) (by decide))
  exact length_of_opcode hb (operand_length o)
theorem inc (o : Operand) : Statement (.inc o) := by
  intro h
  obtain ⟨b, hb⟩ := Option.isSome_iff_exists.mp (opcodeOf_isSome .inc _ (mode_mem h) (by decide))
  exact length_of_opcode hb (operand_length o)
theorem dec (o : Operand) : Statement (.dec o) := by
  intro h
  obtain ⟨b, hb⟩ := Option.isSome_iff_exists.mp (opcodeOf_isSome .dec _ (mode_mem h) (by decide))
  exact length_of_opcode hb (operand_length o)
theorem inx : Statement .inx := fun _ => length_of_opcode rfl rfl
theorem iny : Statement .iny := fun _ => length_of_opcode rfl rfl
theorem dex : Statement .dex := fun _ => length_of_opcode rfl rfl
theorem dey : Statement .dey := fun _ => length_of_opcode rfl rfl
theorem pha : Statement .pha := fun _ => length_of_opcode rfl rfl
theorem php : Statement .php := fun _ => length_of_opcode rfl rfl
theorem pla : Statement .pla := fun _ => length_of_opcode rfl rfl
theorem plp : Statement .plp := fun _ => length_of_opcode rfl rfl
theorem clc : Statement .clc := fun _ => length_of_opcode rfl rfl
theorem sec : Statement .sec := fun _ => length_of_opcode rfl rfl
theorem cli : Statement .cli := fun _ => length_of_opcode rfl rfl
theorem sei : Statement .sei := fun _ => length_of_opcode rfl rfl
theorem cld : Statement .cld := fun _ => length_of_opcode rfl rfl
theorem sed : Statement .sed := fun _ => length_of_opcode rfl rfl
theorem clv : Statement .clv := fun _ => length_of_opcode rfl rfl
theorem jmp (o : Operand) : Statement (.jmp o) := by
  intro h
  obtain ⟨b, hb⟩ := Option.isSome_iff_exists.mp (opcodeOf_isSome .jmp _ (mode_mem h) (by decide))
  exact length_of_opcode hb (operand_length o)
theorem jsr (a : Word) : Statement (.jsr a) := fun _ => length_of_opcode rfl rfl
theorem rts : Statement .rts := fun _ => length_of_opcode rfl rfl
theorem bcc (d : Byte) : Statement (.bcc d) := fun _ => length_of_opcode rfl rfl
theorem bcs (d : Byte) : Statement (.bcs d) := fun _ => length_of_opcode rfl rfl
theorem beq (d : Byte) : Statement (.beq d) := fun _ => length_of_opcode rfl rfl
theorem bne (d : Byte) : Statement (.bne d) := fun _ => length_of_opcode rfl rfl
theorem bmi (d : Byte) : Statement (.bmi d) := fun _ => length_of_opcode rfl rfl
theorem bpl (d : Byte) : Statement (.bpl d) := fun _ => length_of_opcode rfl rfl
theorem bvc (d : Byte) : Statement (.bvc d) := fun _ => length_of_opcode rfl rfl
theorem bvs (d : Byte) : Statement (.bvs d) := fun _ => length_of_opcode rfl rfl
theorem brk : Statement .brk := fun _ => length_of_opcode rfl rfl
theorem rti : Statement .rti := fun _ => length_of_opcode rfl rfl
theorem nop : Statement .nop := fun _ => length_of_opcode rfl rfl
theorem illegal (opcode : Byte) : Statement (.illegal opcode) := fun _ => length_of_opcode rfl rfl

end Sys2Proof.Laws.EncodedLength
end

