-- ==== Sys2Proof/Tests/Slice0.lean ====
section
/-! SUPPORT. The model's own tests: ill-formed terms the checks refuse, words of every instruction decoded, one step
of each instruction on a small state, single bus, port and rendering operations, and for every statement with
hypotheses a state that meets them. Expected values are those of spec/95 (its vector is named) or worked out by hand
from the rule named. -/

namespace Sys2Proof.Tests

open Sys2Proof.Machine Sys2Proof.Safety

/-! ## Helpers -/

/-- The start state of spec/95: one bank, the code from 0x8000 on, the reset vector 0x8000, all else zero, after
`Reset`. -/
def boot (code : List Byte) : State :=
  { State.reset with
    cpu := { a := 0, x := 0, y := 0, sp := 0, p := 0x04, pc := 0x8000 }
    bus := { State.reset.bus with prg := Memory.overlay [(0x3FFD, 0x80)] 0 code } }

/-- With these registers, PC at 0x8000. -/
def regs (a x y sp p : Byte) (s : State) : State := { s with cpu := ⟨a, x, y, sp, p, 0x8000⟩ }

/-- With these bytes of work RAM. -/
def ram (cells : List (Nat × Byte)) (s : State) : State :=
  { s with bus := { s.bus with wram := cells.foldl (fun m c => m.write c.1 c.2) s.bus.wram } }

/-- With this PPU. -/
def withPpu (f : Ppu → Ppu) (s : State) : State := { s with ppu := f s.ppu }

/-- With this schedule. -/
def turns (l : List Turn) (s : State) : State := s.withSchedule l

/-- The registers after one step, if it has a next state that has not faulted. -/
def cpuAfter (s : State) : Option Cpu :=
  match step s with
  | .next t => if t.fault = none then some t.cpu else none
  | .fault _ => none
  | .refused _ => none

/-- The bytes at these addresses after one step. -/
def bytesAfter (l : List Word) (s : State) : Option (List Byte) :=
  match step s with
  | .next t => some (l.map fun a => peek a t)
  | .fault _ => none
  | .refused _ => none

/-- The PPU after one step. -/
def ppuAfter (s : State) : Option Ppu :=
  match step s with
  | .next t => some t.ppu
  | .fault _ => none
  | .refused _ => none

/-- The bytes are exactly the encoding of this instruction. -/
def reads (bs : List Byte) (i : Instr) : Bool :=
  match decode bs with
  | .ok (j, []) => decide (j = i)
  | .ok (_, _ :: _) => false
  | .error _ => false

/-! ## Ill-formed terms -/

/-- `modeLegal`: a mode its mnemonic does not have (R112). -/
theorem test_wf_mode : ([.sta (.imm 0), .lda .acc, .ldx (.zpx 0), .bit (.imm 0), .inc .acc, .jmp (.zp 0), .stx (.abx 0),
    .asl (.aby 0), .lda (.ind 0), .cpx (.izy 0)] : List Instr).all (fun i => !i.modeLegal && !i.wf) = true := by decide

/-- `opcodeLegal`: an illegal instruction whose byte has a body (R122). -/
theorem test_wf_opcode : ([.illegal 0xA9, .illegal 0x00, .illegal 0xEA] : List Instr).all
    (fun i => !i.opcodeLegal && !i.wf) = true := by decide

theorem test_wf_good : ([.sta (.abx 0xFFFF), .lda (.izy 0xFF), .bne 0x80, .jsr 0, .illegal 0x02] : List Instr).all
    (fun i => i.wf) = true := by decide

/-! ## Decoding, the bytes from R112's table -/

theorem test_decode_loads : ([([0xA9, 0x42], .lda (.imm 0x42)), ([0xA5, 0x10], .lda (.zp 0x10)),
    ([0xB5, 0x10], .lda (.zpx 0x10)), ([0xAD, 0x34, 0x12], .lda (.abs 0x1234)), ([0xBD, 0x34, 0x12], .lda (.abx 0x1234)),
    ([0xB9, 0x34, 0x12], .lda (.aby 0x1234)), ([0xA1, 0x10], .lda (.izx 0x10)), ([0xB1, 0x10], .lda (.izy 0x10)),
    ([0xA2, 0x05], .ldx (.imm 0x05)), ([0xB6, 0xFF], .ldx (.zpy 0xFF)), ([0xBE, 0x34, 0x12], .ldx (.aby 0x1234)),
    ([0xA0, 0x00], .ldy (.imm 0x00)), ([0xB4, 0xFF], .ldy (.zpx 0xFF)), ([0xBC, 0x34, 0x12], .ldy (.abx 0x1234))] :
    List (List Byte × Instr)).all (fun c => reads c.1 c.2) = true := by decide

theorem test_decode_stores : ([([0x85, 0x10], .sta (.zp 0x10)), ([0x95, 0x10], .sta (.zpx 0x10)),
    ([0x8D, 0x00, 0x02], .sta (.abs 0x0200)), ([0x9D, 0x00, 0x02], .sta (.abx 0x0200)),
    ([0x99, 0x00, 0x02], .sta (.aby 0x0200)), ([0x81, 0x20], .sta (.izx 0x20)), ([0x91, 0x20], .sta (.izy 0x20)),
    ([0x86, 0x10], .stx (.zp 0x10)), ([0x96, 0xF0], .stx (.zpy 0xF0)), ([0x8E, 0x00, 0x60], .stx (.abs 0x6000)),
    ([0x84, 0x10], .sty (.zp 0x10)), ([0x94, 0x10], .sty (.zpx 0x10)), ([0x8C, 0x00, 0x60], .sty (.abs 0x6000))] :
    List (List Byte × Instr)).all (fun c => reads c.1 c.2) = true := by decide

theorem test_decode_transfers : ([([0xAA], .tax), ([0xA8], .tay), ([0x8A], .txa), ([0x98], .tya), ([0xBA], .tsx),
    ([0x9A], .txs)] : List (List Byte × Instr)).all (fun c => reads c.1 c.2) = true := by decide

theorem test_decode_arithmetic : ([([0x69, 0x01], .adc (.imm 0x01)), ([0x71, 0x10], .adc (.izy 0x10)),
    ([0xE9, 0x01], .sbc (.imm 0x01)), ([0xE1, 0x10], .sbc (.izx 0x10)), ([0x29, 0x3C], .and (.imm 0x3C)),
    ([0x35, 0x3C], .and (.zpx 0x3C)), ([0x09, 0x3C], .ora (.imm 0x3C)), ([0x1D, 0x34, 0x12], .ora (.abx 0x1234)),
    ([0x49, 0x3C], .eor (.imm 0x3C)), ([0x59, 0x34, 0x12], .eor (.aby 0x1234)), ([0xC9, 0x41], .cmp (.imm 0x41)),
    ([0xCD, 0x34, 0x12], .cmp (.abs 0x1234)), ([0xE0, 0x41], .cpx (.imm 0x41)), ([0xEC, 0x34, 0x12], .cpx (.abs 0x1234)),
    ([0xC0, 0x41], .cpy (.imm 0x41)), ([0xC4, 0x41], .cpy (.zp 0x41)), ([0x24, 0x10], .bit (.zp 0x10)),
    ([0x2C, 0x02, 0x20], .bit (.abs 0x2002))] : List (List Byte × Instr)).all (fun c => reads c.1 c.2) = true := by decide

theorem test_decode_shifts : ([([0x0A], .asl .acc), ([0x06, 0x10], .asl (.zp 0x10)), ([0x0E, 0x10, 0x80], .asl (.abs 0x8010)),
    ([0x4A], .lsr .acc), ([0x5E, 0x00, 0x02], .lsr (.abx 0x0200)), ([0x2A], .rol .acc), ([0x36, 0xFF], .rol (.zpx 0xFF)),
    ([0x6A], .ror .acc), ([0x6E, 0x00, 0x03], .ror (.abs 0x0300)), ([0xE6, 0x10], .inc (.zp 0x10)),
    ([0xEE, 0x07, 0x20], .inc (.abs 0x2007)), ([0xC6, 0x10], .dec (.zp 0x10)), ([0xDE, 0x00, 0x02], .dec (.abx 0x0200)),
    ([0xE8], .inx), ([0xC8], .iny), ([0xCA], .dex), ([0x88], .dey)] :
    List (List Byte × Instr)).all (fun c => reads c.1 c.2) = true := by decide

theorem test_decode_stack_flags : ([([0x48], .pha), ([0x08], .php), ([0x68], .pla), ([0x28], .plp), ([0x18], .clc),
    ([0x38], .sec), ([0x58], .cli), ([0x78], .sei), ([0xD8], .cld), ([0xF8], .sed), ([0xB8], .clv)] :
    List (List Byte × Instr)).all (fun c => reads c.1 c.2) = true := by decide

theorem test_decode_control : ([([0x4C, 0x34, 0x12], .jmp (.abs 0x1234)), ([0x6C, 0xFF, 0x02], .jmp (.ind 0x02FF)),
    ([0x20, 0x10, 0x80], .jsr 0x8010), ([0x60], .rts), ([0x90, 0x10], .bcc 0x10), ([0xB0, 0x10], .bcs 0x10),
    ([0xF0, 0x7F], .beq 0x7F), ([0xD0, 0xFB], .bne 0xFB), ([0x30, 0x10], .bmi 0x10), ([0x10, 0x80], .bpl 0x80),
    ([0x50, 0x10], .bvc 0x10), ([0x70, 0xFE], .bvs 0xFE), ([0x00], .brk), ([0x40], .rti), ([0xEA], .nop),
    ([0x02], .illegal 0x02), ([0x1A], .illegal 0x1A), ([0x80], .illegal 0x80), ([0xFF], .illegal 0xFF)] :
    List (List Byte × Instr)).all (fun c => reads c.1 c.2) = true := by decide

/-- One word of each family, opcode bit by bit. -/
theorem test_decode_bits : ([([0b10101001, 0b01000010], .lda (.imm 0b01000010)), ([0b01101001, 1], .adc (.imm 1)),
    ([0b00001010], .asl .acc), ([0b01001000], .pha), ([0b01001100, 0b00110100, 0b00010010], .jmp (.abs 0b0001001000110100)),
    ([0b11010000, 0b11111011], .bne 0b11111011), ([0b11101010], .nop), ([0b10000000], .illegal 0b10000000)] :
    List (List Byte × Instr)).all (fun c => reads c.1 c.2) = true := by decide

/-- A list that ends inside an instruction is refused by name. -/
theorem test_decode_short : decode [] = .error .noOpcode ∧ decode [0xA9] = .error (.missingOperand 0xA9) ∧
    decode [0x8D, 0x00] = .error (.missingOperand 0x8D) := by refine ⟨rfl, rfl, rfl⟩

/-- The bytes of 0x8D 0x00 0x02 as a table word, and an opcode-only word whose operand bytes are zero. -/
theorem test_table_word : decodeTableWord 24 0x02008D = some (.sta (.abs 0x0200)) ∧
    decodeTableWord 8 0xFFA9 = some (.lda (.imm 0)) ∧ decodeTableWord 8 0x02 = some (.illegal 0x02) := by decide

/-- The grid (R120) and the table (R112) hold the same 151 bytes. -/
theorem test_grid_count : ((List.range 256).filter fun n => (descriptor (BitVec.ofNat 8 n)).cls != .illegal).length = 151 ∧
    illegalOpcodes.length = 105 := by decide +kernel

/-- A placed word is what the very next step runs: STA $0200 (0x8D 0x00 0x02) and an illegal byte, from reset. -/
theorem test_with_fetch_word :
    cpuAfter (State.reset.withFetchWord 24 0x0242A9) = some ⟨0x42, 0, 0, 0, 0x04, 0x0002⟩ ∧
    bytesAfter [0x0200] ((State.reset.withFetchWord 24 0x02008D).setA 0x42) = some [0x42] ∧
    (∃ t, step (State.reset.withFetchWord 8 0x02) = .next t ∧ t.fault = some ⟨0x02, 0x0000⟩) := by
  refine ⟨by decide, by decide, _, rfl, rfl⟩

/-! ## One step of each instruction -/

/-- E4, V-L3, V-L5, V-L6. -/
theorem test_indexed_modes_wrap :
    cpuAfter (ram [(0x01, 0x37), (0x101, 0xEE)] (regs 0 2 0 0 4 (boot [0xB5, 0xFF]))) = some ⟨0x37, 2, 0, 0, 0x04, 0x8002⟩ ∧
    cpuAfter (ram [(0x01, 0x99)] (regs 0 0 2 0 4 (boot [0xB6, 0xFF]))) = some ⟨0, 0x99, 2, 0, 0x84, 0x8002⟩ ∧
    cpuAfter (ram [(0x100, 0x5A)] (regs 0 1 0 0 4 (boot [0xBD, 0xFF, 0x00]))) = some ⟨0x5A, 1, 0, 0, 0x04, 0x8003⟩ ∧
    cpuAfter (ram [(0x01, 0x77)] (regs 0 0 2 0 4 (boot [0xB9, 0xFF, 0xFF]))) = some ⟨0x77, 0, 2, 0, 0x04, 0x8003⟩ := by
  refine ⟨?_, ?_, ?_, ?_⟩ <;> decide

/-- V-L7, V-L8, V-L9. -/
theorem test_indirect_modes :
    cpuAfter (ram [(0xFF, 0x34), (0x00, 0x02), (0x234, 0xAB)] (regs 0 1 0 0 4 (boot [0xA1, 0xFE]))) =
      some ⟨0xAB, 1, 0, 0, 0x84, 0x8002⟩ ∧
    cpuAfter (ram [(0x10, 0xF0), (0x11, 0x02), (0x3EF, 0xCD)] (regs 0 0 0xFF 0 4 (boot [0xB1, 0x10]))) =
      some ⟨0xCD, 0, 0xFF, 0, 0x84, 0x8002⟩ ∧
    cpuAfter (ram [(0xFF, 0xFF), (0x00, 0x02), (0x300, 0x42)] (regs 0 0 1 0 4 (boot [0xB1, 0xFF]))) =
      some ⟨0x42, 0, 1, 0, 0x04, 0x8002⟩ := by
  refine ⟨?_, ?_, ?_⟩ <;> decide

/-- V-L1, V-L10, V-L11. -/
theorem test_lda : cpuAfter (ram [(0x10, 0x80)] (boot [0xA5, 0x10])) = some ⟨0x80, 0, 0, 0, 0x84, 0x8002⟩ ∧
    cpuAfter (regs 0x55 0 0 0 4 (boot [0xAD, 0x00, 0x08])) = some ⟨0, 0, 0, 0, 0x06, 0x8003⟩ ∧
    cpuAfter (boot [0xAD, 0x00, 0xC0]) = some ⟨0xAD, 0, 0, 0, 0x84, 0x8003⟩ := by
  refine ⟨?_, ?_, ?_⟩ <;> decide

/-- E7, first step. -/
theorem test_ldx : cpuAfter (boot [0xA2, 0x05]) = some ⟨0, 5, 0, 0, 0x04, 0x8002⟩ := by decide

/-- V-L12. -/
theorem test_ldy : cpuAfter (regs 0 0 5 0 4 (boot [0xA0, 0x00])) = some ⟨0, 0, 0, 0, 0x06, 0x8002⟩ := by decide

/-- V-L14, V-L15, V-L16. -/
theorem test_sta :
    bytesAfter [0x0210] (regs 0x42 0x10 0 0 4 (boot [0x9D, 0x00, 0x02])) = some [0x42] ∧
    bytesAfter [0x0304] (ram [(0x21, 0x03)] (regs 0x99 0 4 0 4 (boot [0x91, 0x20]))) = some [0x99] ∧
    bytesAfter [0x0210] (ram [(0x24, 0x10), (0x25, 0x02)] (regs 0x77 4 0 0 4 (boot [0x81, 0x20]))) = some [0x77] := by
  refine ⟨?_, ?_, ?_⟩ <;> decide

/-- V-L17, V-L18. -/
theorem test_sta_discarded :
    bytesAfter [0x8000] (regs 0x42 0 0 0 4 (boot [0x8D, 0x00, 0x80])) = some [0x8D] ∧
    bytesAfter [0x0800, 0x0000] (regs 0x42 0 0 0 4 (boot [0x8D, 0x00, 0x08])) = some [0, 0] := by
  refine ⟨?_, ?_⟩ <;> decide

/-- V-L19. -/
theorem test_stx : bytesAfter [0x0010] (regs 0 0x12 0x20 0 4 (boot [0x96, 0xF0])) = some [0x12] := by decide

/-- V-L20. -/
theorem test_sty : bytesAfter [0x6000] (regs 0 0 0xFF 0 4 (boot [0x8C, 0x00, 0x60])) = some [0xFF] := by decide

/-- V-L22 to V-L27. -/
theorem test_transfers :
    cpuAfter (regs 0 9 0 0 4 (boot [0xAA])) = some ⟨0, 0, 0, 0, 0x06, 0x8001⟩ ∧
    cpuAfter (regs 0x90 0 0 0 4 (boot [0xA8])) = some ⟨0x90, 0, 0x90, 0, 0x84, 0x8001⟩ ∧
    cpuAfter (regs 0 0x7F 0 0 4 (boot [0x8A])) = some ⟨0x7F, 0x7F, 0, 0, 0x04, 0x8001⟩ ∧
    cpuAfter (regs 3 0 0 0 4 (boot [0x98])) = some ⟨0, 0, 0, 0, 0x06, 0x8001⟩ ∧
    cpuAfter (regs 0 0 0 0x80 4 (boot [0xBA])) = some ⟨0, 0x80, 0, 0x80, 0x84, 0x8001⟩ ∧
    cpuAfter (regs 0 0x80 0 0 4 (boot [0x9A])) = some ⟨0, 0x80, 0, 0x80, 0x04, 0x8001⟩ := by
  refine ⟨?_, ?_, ?_, ?_, ?_, ?_⟩ <;> decide

/-- V-A: A, M, C in, then A, N, V, Z, C. -/
theorem test_adc : ([(0x7F, 0x01, false, 0x80, true, true, false, false), (0x50, 0x90, false, 0xE0, true, false, false, false),
    (0xD0, 0x90, false, 0x60, false, true, false, true), (0xFF, 0x00, true, 0x00, false, false, true, true),
    (0x7F, 0x7F, true, 0xFF, true, true, false, false), (0x80, 0x80, false, 0x00, false, true, true, true),
    (0x80, 0xFF, false, 0x7F, false, true, false, true)] : List (Byte × Byte × Bool × Byte × Bool × Bool × Bool × Bool)).all
    (fun ⟨a, m, c, r, n, v, z, k⟩ =>
      let q := addWithCarry a m c
      let p := putSum q 0x04
      q.res == r && getFlag .n p == n && getFlag .v p == v && getFlag .z p == z && getFlag .c p == k) = true := by decide

/-- V-A, the row with D set: no decimal adjustment. -/
theorem test_adc_step : cpuAfter (regs 9 0 0 0 0x0C (boot [0x69, 0x01])) = some ⟨0x0A, 0, 0, 0, 0x0C, 0x8002⟩ := by decide

/-- V-A: A, M, C in, then A, N, V, Z, C. -/
theorem test_sbc : ([(0x50, 0xB0, true, 0xA0, true, true, false, false), (0xD0, 0x70, true, 0x60, false, true, false, true),
    (0x00, 0x00, true, 0x00, false, false, true, true), (0x00, 0x00, false, 0xFF, true, false, false, false),
    (0x80, 0x01, true, 0x7F, false, true, false, true), (0x7F, 0xFF, true, 0x80, true, true, false, false),
    (0xFF, 0xFF, false, 0xFF, true, false, false, false)] : List (Byte × Byte × Bool × Byte × Bool × Bool × Bool × Bool)).all
    (fun ⟨a, m, c, r, n, v, z, k⟩ =>
      let q := subWithCarry a m c
      let p := putSum q 0x04
      q.res == r && getFlag .n p == n && getFlag .v p == v && getFlag .z p == z && getFlag .c p == k) = true := by decide

/-- V-A, the row with D set. -/
theorem test_sbc_step : cpuAfter (regs 0x10 0 0 0 0x0D (boot [0xE9, 0x01])) = some ⟨0x0F, 0, 0, 0, 0x0D, 0x8002⟩ := by decide

/-- V-G, two rows each. -/
theorem test_logic :
    cpuAfter (regs 0xFF 0 0 0 0x45 (boot [0x29, 0x00])) = some ⟨0, 0, 0, 0, 0x47, 0x8002⟩ ∧
    cpuAfter (regs 0x80 0 0 0 0x45 (boot [0x29, 0x80])) = some ⟨0x80, 0, 0, 0, 0xC5, 0x8002⟩ ∧
    cpuAfter (regs 0xF0 0 0 0 0x45 (boot [0x09, 0x3C])) = some ⟨0xFC, 0, 0, 0, 0xC5, 0x8002⟩ ∧
    cpuAfter (regs 0x00 0 0 0 0x45 (boot [0x09, 0x00])) = some ⟨0x00, 0, 0, 0, 0x47, 0x8002⟩ ∧
    cpuAfter (regs 0xF0 0 0 0 0x45 (boot [0x49, 0x3C])) = some ⟨0xCC, 0, 0, 0, 0xC5, 0x8002⟩ ∧
    cpuAfter (regs 0xAA 0 0 0 0x45 (boot [0x49, 0xFF])) = some ⟨0x55, 0, 0, 0, 0x45, 0x8002⟩ := by
  refine ⟨?_, ?_, ?_, ?_, ?_, ?_⟩ <;> decide

/-- V-G, compares with P = 44: 40 with 41, 40 with 40, 80 with 00. -/
theorem test_compares :
    cpuAfter (regs 0x40 0 0 0 0x44 (boot [0xC9, 0x41])) = some ⟨0x40, 0, 0, 0, 0xC4, 0x8002⟩ ∧
    cpuAfter (regs 0 0x40 0 0 0x44 (boot [0xE0, 0x40])) = some ⟨0, 0x40, 0, 0, 0x47, 0x8002⟩ ∧
    cpuAfter (regs 0 0 0x80 0 0x44 (boot [0xC0, 0x00])) = some ⟨0, 0, 0x80, 0, 0xC5, 0x8002⟩ := by
  refine ⟨?_, ?_, ?_⟩ <;> decide

/-- V-G, BIT rows. -/
theorem test_bit :
    cpuAfter (ram [(0x10, 0xC0)] (regs 0x0F 0 0 0 5 (boot [0x24, 0x10]))) = some ⟨0x0F, 0, 0, 0, 0xC7, 0x8002⟩ ∧
    cpuAfter (ram [(0x10, 0x40)] (regs 0xFF 0 0 0 5 (boot [0x24, 0x10]))) = some ⟨0xFF, 0, 0, 0, 0x45, 0x8002⟩ := by
  refine ⟨?_, ?_⟩ <;> decide

/-- V-S, accumulator forms: A = 81 and C = 1, V set (P = 45). -/
theorem test_shifts_acc :
    cpuAfter (regs 0x81 0 0 0 0x45 (boot [0x0A])) = some ⟨0x02, 0, 0, 0, 0x45, 0x8001⟩ ∧
    cpuAfter (regs 0x81 0 0 0 0x45 (boot [0x4A])) = some ⟨0x40, 0, 0, 0, 0x45, 0x8001⟩ ∧
    cpuAfter (regs 0x81 0 0 0 0x45 (boot [0x2A])) = some ⟨0x03, 0, 0, 0, 0x45, 0x8001⟩ ∧
    cpuAfter (regs 0x81 0 0 0 0x45 (boot [0x6A])) = some ⟨0xC0, 0, 0, 0, 0xC5, 0x8001⟩ := by
  refine ⟨?_, ?_, ?_, ?_⟩ <;> decide

/-- V-S1 to V-S4: the byte stored. -/
theorem test_shifts_memory :
    bytesAfter [0x0010] (ram [(0x10, 0xC0)] (regs 0x11 0 0 0 4 (boot [0x06, 0x10]))) = some [0x80] ∧
    bytesAfter [0x0205] (ram [(0x205, 0x01)] (regs 0 5 0 0 4 (boot [0x5E, 0x00, 0x02]))) = some [0x00] ∧
    bytesAfter [0x0000] (ram [(0x00, 0x80)] (regs 0 1 0 0 5 (boot [0x36, 0xFF]))) = some [0x01] ∧
    bytesAfter [0x0300] (ram [(0x300, 0x01)] (regs 0 0 0 0 5 (boot [0x6E, 0x00, 0x03]))) = some [0x80] := by
  refine ⟨?_, ?_, ?_, ?_⟩ <;> decide

/-- V-S1 to V-S4: the registers and flags. -/
theorem test_shifts_memory_cpu :
    cpuAfter (ram [(0x10, 0xC0)] (regs 0x11 0 0 0 4 (boot [0x06, 0x10]))) = some ⟨0x11, 0, 0, 0, 0x85, 0x8002⟩ ∧
    cpuAfter (ram [(0x205, 0x01)] (regs 0 5 0 0 4 (boot [0x5E, 0x00, 0x02]))) = some ⟨0, 5, 0, 0, 0x07, 0x8003⟩ ∧
    cpuAfter (ram [(0x00, 0x80)] (regs 0 1 0 0 5 (boot [0x36, 0xFF]))) = some ⟨0, 1, 0, 0, 0x05, 0x8002⟩ ∧
    cpuAfter (ram [(0x300, 0x01)] (regs 0 0 0 0 5 (boot [0x6E, 0x00, 0x03]))) = some ⟨0, 0, 0, 0, 0x85, 0x8003⟩ := by
  refine ⟨?_, ?_, ?_, ?_⟩ <;> decide

/-- V-S6 and V-S9. -/
theorem test_inc_dec :
    bytesAfter [0x0010] (ram [(0x10, 0xFF)] (regs 0 0 0 0 5 (boot [0xE6, 0x10]))) = some [0x00] ∧
    cpuAfter (ram [(0x10, 0xFF)] (regs 0 0 0 0 5 (boot [0xE6, 0x10]))) = some ⟨0, 0, 0, 0, 0x07, 0x8002⟩ ∧
    bytesAfter [0x0200] (ram [(0x200, 0x01)] (boot [0xCE, 0x00, 0x02])) = some [0x00] ∧
    cpuAfter (boot [0xC6, 0x10]) = some ⟨0, 0, 0, 0, 0x84, 0x8002⟩ := by
  refine ⟨?_, ?_, ?_, ?_⟩ <;> decide

/-- V-S11, V-S13, V-S14, V-S17. -/
theorem test_index_registers :
    cpuAfter (regs 0 0xFF 0 0 5 (boot [0xE8])) = some ⟨0, 0, 0, 0, 0x07, 0x8001⟩ ∧
    cpuAfter (boot [0xC8]) = some ⟨0, 0, 1, 0, 0x04, 0x8001⟩ ∧
    cpuAfter (boot [0xCA]) = some ⟨0, 0xFF, 0, 0, 0x84, 0x8001⟩ ∧
    cpuAfter (regs 0 0 0x80 0 4 (boot [0x88])) = some ⟨0, 0, 0x7F, 0, 0x04, 0x8001⟩ := by
  refine ⟨?_, ?_, ?_, ?_⟩ <;> decide

/-- V-K1, V-K2, V-K3. -/
theorem test_pushes :
    bytesAfter [0x0100] (regs 0x42 0 0 0 4 (boot [0x48])) = some [0x42] ∧
    bytesAfter [0x01FF] (regs 0x42 0 0 0xFF 4 (boot [0x48])) = some [0x42] ∧
    cpuAfter (regs 0x42 0 0 0xFF 4 (boot [0x48])) = some ⟨0x42, 0, 0, 0, 0x04, 0x8001⟩ ∧
    bytesAfter [0x0110] (regs 0 0 0 0x10 0x85 (boot [0x08])) = some [0x85] := by
  refine ⟨?_, ?_, ?_, ?_⟩ <;> decide

/-- V-K4, V-K5, V-K6, V-K7. -/
theorem test_pulls :
    cpuAfter (regs 7 0 0 1 4 (boot [0x68])) = some ⟨0, 0, 0, 0, 0x06, 0x8001⟩ ∧
    cpuAfter (ram [(0x1FF, 0x80)] (boot [0x68])) = some ⟨0x80, 0, 0, 0xFF, 0x84, 0x8001⟩ ∧
    cpuAfter (ram [(0x110, 0xC3)] (regs 0 0 0 0x11 4 (boot [0x28]))) = some ⟨0, 0, 0, 0x10, 0xC3, 0x8001⟩ ∧
    cpuAfter (ram [(0x100, 0xFF)] (regs 0 0 0 1 4 (boot [0x28]))) = some ⟨0, 0, 0, 0, 0xFF, 0x8001⟩ := by
  refine ⟨?_, ?_, ?_, ?_⟩ <;> decide

/-- The table of flag instructions in V-K: opcode, P before, P after. -/
theorem test_flag_instructions : ([(0x18, 0xFF, 0xFE), (0x38, 0x00, 0x01), (0x58, 0xFF, 0xFB), (0x78, 0x00, 0x04),
    (0xB8, 0xFF, 0xBF), (0xD8, 0xFF, 0xF7), (0xF8, 0x00, 0x08)] : List (Byte × Byte × Byte)).all
    (fun ⟨op, p, q⟩ => cpuAfter (regs 1 2 3 4 p (boot [op])) == some ⟨1, 2, 3, 4, q, 0x8001⟩) = true := by decide

/-- V-C1, V-C2, V-C3. -/
theorem test_jmp :
    cpuAfter (boot [0x4C, 0x34, 0x12]) = some ⟨0, 0, 0, 0, 0x04, 0x1234⟩ ∧
    cpuAfter (ram [(0x2FF, 0x34), (0x300, 0x12)] (boot [0x6C, 0xFF, 0x02])) = some ⟨0, 0, 0, 0, 0x04, 0x1234⟩ ∧
    cpuAfter (ram [(0, 0x12)] (poke 0xFFFF 0x34 (boot [0x6C, 0xFF, 0xFF]))) = some ⟨0, 0, 0, 0, 0x04, 0x1234⟩ := by
  refine ⟨?_, ?_, ?_⟩ <;> decide

/-- V-C4, V-C5. -/
theorem test_jsr :
    bytesAfter [0x0100, 0x0101] (boot [0x20, 0x10, 0x80]) = some [0x03, 0x80] ∧
    bytesAfter [0x01FF, 0x0100] (regs 0 0 0 0xFF 4 (boot [0x20, 0x10, 0x80])) = some [0x03, 0x80] ∧
    cpuAfter (regs 0 0 0 0xFF 4 (boot [0x20, 0x10, 0x80])) = some ⟨0, 0, 0, 1, 0x04, 0x8010⟩ := by
  refine ⟨?_, ?_, ?_⟩ <;> decide

/-- V-C7, V-C8. -/
theorem test_rts :
    cpuAfter (ram [(0x100, 0xFF), (0x101, 0xFF)] (regs 0 0 0 2 4 (boot [0x60]))) = some ⟨0, 0, 0, 0, 0x04, 0x0000⟩ ∧
    cpuAfter (ram [(0x100, 0x33), (0x101, 0x12)] (regs 0 0 0 2 4 (boot [0x60]))) = some ⟨0, 0, 0, 0, 0x04, 0x1234⟩ := by
  refine ⟨?_, ?_⟩ <;> decide

/-- The branch table of V-C: opcode, P, PC after. -/
theorem test_branches : ([(0x10, 0x00, 0x8012), (0x10, 0x80, 0x8002), (0x30, 0x80, 0x8012), (0x30, 0x00, 0x8002),
    (0x50, 0x00, 0x8012), (0x50, 0x40, 0x8002), (0x70, 0x40, 0x8012), (0x70, 0x00, 0x8002), (0x90, 0x00, 0x8012),
    (0x90, 0x01, 0x8002), (0xB0, 0x01, 0x8012), (0xB0, 0x00, 0x8002), (0xD0, 0x00, 0x8012), (0xD0, 0x02, 0x8002),
    (0xF0, 0x02, 0x8012), (0xF0, 0x00, 0x8002)] : List (Byte × Byte × Word)).all
    (fun ⟨op, p, pc⟩ => cpuAfter (regs 1 2 3 4 p (boot [op, 0x10])) == some ⟨1, 2, 3, 4, p, pc⟩) = true := by decide

/-- V-C11, V-C12, V-C13. -/
theorem test_branch_offsets :
    cpuAfter (boot [0x10, 0x80]) = some ⟨0, 0, 0, 0, 0x04, 0x7F82⟩ ∧
    cpuAfter (regs 0 0 0 0 0x40 (boot [0x70, 0xFE])) = some ⟨0, 0, 0, 0, 0x40, 0x8000⟩ ∧
    cpuAfter ((ram [(0, 0x10), (1, 0x80)] (boot [])).setPc 0) = some ⟨0, 0, 0, 0, 0x04, 0xFF82⟩ := by
  refine ⟨?_, ?_, ?_⟩ <;> decide

/-- V-Y1. -/
theorem test_brk : cpuAfter (regs 0 0 0 7 4 (boot [0x00])) = some ⟨0, 0, 0, 7, 0x14, 0x8001⟩ ∧
    bytesAfter [0x0107, 0x0108, 0x0109] (regs 0 0 0 7 4 (boot [0x00])) = some [0, 0, 0] := by
  refine ⟨?_, ?_⟩ <;> decide

/-- V-Y3, V-Y4. -/
theorem test_rti :
    cpuAfter (ram [(0x100, 0x34), (0x101, 0x12), (0x102, 0x81)] (regs 0 0 0 3 4 (boot [0x40]))) =
      some ⟨0, 0, 0, 0, 0x81, 0x1234⟩ ∧
    cpuAfter (ram [(0x100, 0xC3), (0x1FF, 0x80), (0x1FE, 0x00)] (regs 0 0 0 1 4 (boot [0x40]))) =
      some ⟨0, 0, 0, 0xFE, 0xC3, 0x8000⟩ := by
  refine ⟨?_, ?_⟩ <;> decide

/-- V-Y5. -/
theorem test_nop : cpuAfter (regs 1 2 3 4 0xFF (boot [0xEA])) = some ⟨1, 2, 3, 4, 0xFF, 0x8001⟩ := by decide

/-- V-F1, V-F3: the next state is the faulted one, and everything else is as it was. -/
theorem test_illegal :
    step (boot [0x02]) = .next { boot [0x02] with fault := some ⟨0x02, 0x8000⟩ } ∧
    step (boot [0x80, 0x00]) = .next { boot [0x80, 0x00] with fault := some ⟨0x80, 0x8000⟩ } := by
  refine ⟨rfl, rfl⟩

/-- V-F5: no further step. -/
theorem test_faulted : step { boot [0x02] with fault := some ⟨0x02, 0x8000⟩ } =
    .fault (.unimplementedInstruction 0x02 0x8000) := rfl

/-! ## The bus (V-B) -/

theorem test_bus_ram :
    peek 0x07FF (memWrite 0x07FF 0x11 (boot [])) = 0x11 ∧ peek 0x0FFF (memWrite 0x07FF 0x11 (boot [])) = 0 ∧
    peek 0x0000 (memWrite 0x0800 0x22 (boot [])) = 0 ∧ peek 0x4020 (memWrite 0x4020 0x33 (boot [])) = 0x33 ∧
    (memWrite 0x5FFF 0x44 (boot [])).bus.xram.read 8159 = 0x44 ∧ peek 0x6000 (memWrite 0x6000 0x55 (boot [])) = 0x55 ∧
    (memWrite 0x7FFF 0x66 (boot [])).bus.sram.read 0x1FFF = 0x66 := by decide

theorem test_bus_words :
    (memReadWord 0xFFFF (ram [(0, 0x12)] (poke 0xFFFF 0x5E (boot [])))).1 = 0x125E ∧
    (memReadWord 0x07FF (ram [(0x7FF, 0x11)] (boot []))).1 = 0x0011 := by decide

/-- Writing the byte an unlisted index reads as takes the entry away. -/
theorem test_memory_canonical : Memory.write [(1, 5), (3, 7)] 3 0 = [(1, 5)] ∧
    Memory.write [(1, 5), (3, 7)] 2 9 = [(1, 5), (2, 9), (3, 7)] ∧ Memory.read [(1, 5)] 2 = 0 := by decide

/-! ## The ports (V-P) -/

/-- Rows 1, 4, 5, 6. -/
theorem test_port_toggle :
    (memRead 0x2002 (withPpu (fun u => { u with status := 0xE5, w := true }) (boot []))).1 = 0xE5 ∧
    (memRead 0x2002 (withPpu (fun u => { u with status := 0xE5, w := true }) (boot []))).2.ppu.status = 0x65 ∧
    (memWrite 0x2006 0x22 (withPpu (fun u => { u with w := true }) (boot []))).ppu.vramAddr = 0x0022 ∧
    (memWrite 0x2006 0x3F (withPpu (fun u => { u with vramAddr := 0x22 }) (boot []))).ppu.vramAddr = 0x3F22 ∧
    (memWrite 0x2005 0x44 (withPpu (fun u => { u with w := true }) (boot []))).ppu.scrollY = 0x44 := by decide

/-- Rows 8 to 12. -/
theorem test_port_data :
    (memWrite 0x2007 0xAA (withPpu (fun u => { u with vramAddr := 0xFFFF }) (boot []))).ppu.vram.read 0xFFFF = 0xAA ∧
    (memWrite 0x2007 0xAA (withPpu (fun u => { u with vramAddr := 0xFFFF }) (boot []))).ppu.vramAddr = 0 ∧
    (memRead 0x2007 (withPpu (fun u => { u with vram := [(0, 0x5C)] }) (boot []))).1 = 0x5C ∧
    (memWrite 0x2004 0x77 (withPpu (fun u => { u with oamAddr := 0xFF }) (boot []))).ppu.oam = [(0xFF, 0x77)] ∧
    (memWrite 0x2004 0x77 (withPpu (fun u => { u with oamAddr := 0xFF }) (boot []))).ppu.oamAddr = 0 ∧
    (memWrite 0x4014 0x07 (memWrite 0x4014 0x02 (boot []))).ppu.oamdmaReq = [0x02, 0x07] := by decide

/-- V-P1 and V-P2. -/
theorem test_instructions_on_ports :
    (ppuAfter (withPpu (fun u => { u with vramAddr := 0x2000, vram := [(0x2000, 0x41), (0x2001, 0x99)] })
      (boot [0xEE, 0x07, 0x20]))).map (fun u => (u.vram, u.vramAddr)) =
      some ([(0x2000, 0x41), (0x2001, 0x42)], 0x2002) ∧
    cpuAfter (withPpu (fun u => { u with status := 0xC0, w := true }) (boot [0x2C, 0x02, 0x20])) =
      some ⟨0, 0, 0, 0, 0xC6, 0x8003⟩ := by
  refine ⟨?_, ?_⟩ <;> decide

/-- `PpuStep` (V-P, last row). -/
theorem test_ppu_step :
    (ppuAfter (turns [.ppuStep] (withPpu (fun u => { u with status := 0x65 }) (boot [])))).map
      (fun u => (u.status, u.drawNow)) = some (0xE5, true) := by decide

/-- R282: a request to copy page 2 puts its bytes from the cursor on; in `stub` mode it does not. -/
theorem test_oam_dma :
    (oamDmaCopyByte 0x02 (ram [(0x203, 0x5A)] (withPpu (fun u => { u with oamAddr := 0xFE }) (boot []))) 3).ppu.oam =
      [(1, 0x5A)] ∧
    (serveOamDma (boot []) (memWrite 0x4014 0x02 (ram [(0x203, 0x5A)] (boot [])))).ppu.oam = [] := by decide

/-- The simulator's schedule: a `PpuStep` after every second CPU step (R262, ratio 2). -/
theorem test_simulator_schedule : simulatorSchedule 2 4 = [.cpu, .cpu, .ppuStep, .cpu, .cpu, .ppuStep] := by decide

/-! ## Rendering (V-R) -/

theorem test_palette_addr : paletteAddr 7 0 = 0x3F00 ∧ paletteAddr 0 3 = 0x3F03 ∧ paletteAddr 4 1 = 0x3F11 ∧
    paletteAddr 7 3 = 0x3F1F := by decide

/-- The PPU state of V-R1, its hidden sprites 3 to 63 included. -/
def frameState : Ppu :=
  { State.reset.ppu with
    vram := [(0x10, 0x80), (0x17, 0x01), (0x18, 0xC0), (0x1F, 0x01)] ++
      [(0x1020, 0xFF), (0x1021, 0xFF), (0x1022, 0xFF), (0x1023, 0xFF), (0x1024, 0xFF), (0x1025, 0xFF), (0x1026, 0xFF), (0x1027, 0xFF)] ++
      [(0x2000, 1), (0x2001, 1), (0x2020, 2), (0x23BF, 1)] ++
      [(0x3F00, 0x0F), (0x3F01, 1), (0x3F02, 2), (0x3F03, 3), (0x3F04, 0x2A), (0x3F10, 0x3B), (0x3F11, 0x31), (0x3F12, 0x12)] ++
      [(0x3F13, 0x13), (0x3F15, 0x15), (0x3F16, 0x16), (0x3F17, 0x57)]
    oam := [(0, 0xEE), (1, 1), (2, 1), (3, 0xFE), (8, 0x10), (9, 1), (10, 0xFC), (11, 0x10)] ++
      (List.range 61).map fun i => (4 * (i + 3), 0xF0) }

/-- V-R1, every row of its table. -/
theorem test_frame : ([(0, 0, 0x0F), (7, 7, 0x0F), (8, 0, 3), (9, 0, 2), (10, 0, 0x0F), (15, 7, 3), (14, 7, 0x0F),
    (0, 8, 0x0F), (100, 100, 0x0F), (248, 232, 3), (249, 232, 2), (254, 238, 0x17), (255, 238, 0x16), (254, 239, 0x0F),
    (255, 239, 0x0F), (16, 16, 0x13), (17, 16, 0x12), (18, 16, 0x0F), (23, 23, 0x13)] : List (Nat × Nat × BitVec 6)).all
    (fun ⟨x, y, c⟩ => pixelIndex frameState x y == c) = true := by decide +kernel

/-- V-R1 with the other pattern banks. -/
theorem test_frame_banks :
    ([(8, 0, 0x0F), (0, 8, 1), (7, 15, 1), (16, 16, 0x13)] : List (Nat × Nat × BitVec 6)).all
      (fun ⟨x, y, c⟩ => pixelIndex { frameState with ctrl := 0x10 } x y == c) = true ∧
    ([(8, 0, 3), (254, 238, 0x0F), (16, 16, 0x0F)] : List (Nat × Nat × BitVec 6)).all
      (fun ⟨x, y, c⟩ => pixelIndex { frameState with ctrl := 0x08 } x y == c) = true := by
  refine ⟨?_, ?_⟩ <;> decide +kernel

/-! ## Witnesses: for every statement with hypotheses, states and operands that meet them -/

/-- LoadsTakeTheOperand and the others that speak of `OnlyReads`: an operand that is no port and one that is. -/
theorem witness_onlyReads :
    Operand.mode (.zpx 0xFF) ≠ .ind ∧ effectiveAddress? (.zpx 0xFF) (regs 0 2 0 0 4 (boot [])) = some 0x0001 ∧
    isPort 0x0001 = false ∧ effectiveAddress? (.abs 0x2007) (boot []) = some 0x2007 ∧ isPort 0x2007 = true := by decide

/-- StoresWriteTheRegister, IncDecMemory: effective addresses in RAM, at a port, in ROM and at nothing. -/
theorem witness_effective_addresses :
    effectiveAddress? (.izx 0xFE) (ram [(0xFF, 0x34), (0x00, 0x02)] (regs 0 1 0 0 4 (boot []))) = some 0x0234 ∧
    effectiveAddress? (.abx 0xFFFF) (regs 0 1 0 0 4 (boot [])) = some 0x0000 ∧
    isRam 0x0234 = true ∧ isRam 0x2006 = false ∧ isPort 0x8000 = false ∧ isRam 0x8000 = false := by decide

/-- FormsWithoutAddressAreRefused, both clauses. -/
theorem witness_FormsWithoutAddressAreRefused :
    effectiveAddress? (.imm 0xFF) (boot []) = none ∧ Operand.imm 0xFF ≠ .acc ∧ effectiveAddress? .acc (boot []) = none := by
  decide

/-- ShiftsMoveOneBit, IncDecMemory: a memory form; the accumulator form is `.acc`. -/
theorem witness_ModifiesOperand : effectiveAddress? (.zp 0xFF) (boot []) = some 0x00FF ∧
    some true = some (decide (128 ≤ (0x80 : Byte).toNat)) := by decide

/-- JmpGoesToTheAddress, both forms, the pointer at the top of the address space. -/
theorem witness_JmpGoesToTheAddress :
    effectiveAddress? (.abs 0xFFFF) (boot []) = some 0xFFFF ∧
    effectiveAddress? (.ind 0xFFFF) (ram [(0, 0x12)] (poke 0xFFFF 0x34 (boot []))) = some 0x1234 := by decide

/-- JsrPushesTheReturnWord: a byte that is neither slot, with SP at the wrap. -/
theorem witness_JsrPushesTheReturnWord : isPort 0x0101 = false ∧
    (0x0101 : Word) ≠ 0x0100 + zext (regs 0 0 0 0xFF 4 (boot [])).cpu.sp ∧
    (0x0101 : Word) ≠ 0x0100 + zext ((regs 0 0 0 0xFF 4 (boot [])).cpu.sp + 1) := by decide

/-- BranchesTestTheirFlag: a flag at the tested value and one that is not. -/
theorem witness_BranchesTestTheirFlag : getFlag .i (boot []).cpu.p = true ∧ getFlag .c (boot []).cpu.p ≠ true ∧
    getFlag .c (boot []).cpu.p = false := by decide

/-- StepRunsTheDecodedInstruction, StepAdvancesPcByTheLength: LDA #$42 at 0x8000, at an empty schedule and at a head CPU
turn. -/
theorem witness_StepRunsTheDecodedInstruction :
    CpusTurn (boot [0xA9, 0x42]) (boot [0xA9, 0x42]) ∧
    CpusTurn (turns [.cpu, .ppuStep] (boot [0xA9, 0x42])) (turns [.ppuStep] (boot [0xA9, 0x42])) ∧
    decode (fetchedBytes (turns [.ppuStep] (boot [0xA9, 0x42]))) = .ok (.lda (.imm 0x42), [0x00]) ∧
    decode (fetchedBytes (boot [0xA9, 0x42])) = .ok (.lda (.imm 0x42), [0x00]) ∧
    (boot [0xA9, 0x42]).host.oamDmaMode = .stub ∧ PlainFetch (boot [0xA9, 0x42]) 2 ∧
    (∃ t, exec (.lda (.imm 0x42)) (afterFetch 2 (boot [0xA9, 0x42])) = .next t) ∧
    (∃ t, step (boot [0xA9, 0x42]) = .next t) ∧ (∃ t, step (turns [.cpu, .ppuStep] (boot [0xA9, 0x42])) = .next t) ∧
    Mnemonic.lda ∉ ([.jmp, .jsr, .rts, .rti, .bcc, .bcs, .beq, .bne, .bmi, .bpl, .bvc, .bvs, .illegal] : List Mnemonic) := by
  refine ⟨⟨rfl, Or.inl ⟨rfl, rfl⟩⟩, ⟨rfl, Or.inr ⟨[.ppuStep], rfl, rfl⟩⟩, rfl, rfl, rfl, ?_, ⟨_, rfl⟩, ⟨_, rfl⟩, ⟨_, rfl⟩,
    by decide⟩
  intro k hk
  have : k = 0 ∨ k = 1 := by omega
  rcases this with rfl | rfl <;> decide

/-- StepTakesTheScheduledTurn, every clause. -/
theorem witness_StepTakesTheScheduledTurn :
    Running (boot []) ∧ (boot []).host.schedule = [] ∧
    (turns [.cpu] (boot [])).host.schedule = .cpu :: [] ∧ (turns [.ppuStep] (boot [])).host.schedule = .ppuStep :: [] ∧
    (turns [.renderFrame] (boot [])).host.schedule = .renderFrame :: [] ∧
    (turns [.present] (ppuStep (boot []))).host.schedule = .present :: [] ∧ (ppuStep (boot [])).ppu.drawNow = true ∧
    (turns [.present] (boot [])).host.schedule = .present :: [] ∧ (boot []).ppu.drawNow = false ∧
    (turns [.reset] (boot [])).host.schedule = .reset :: [] := by decide

/-- RunningMachineAlwaysSteps: with its PC at ROM, and at nothing. -/
theorem witness_RunningMachineAlwaysSteps : Running (boot []) ∧ Running ((boot []).setPc 0x401F) := ⟨rfl, rfl⟩

/-- FaultedStateHasNoStep. -/
theorem witness_FaultedStateHasNoStep : (raiseUnimplemented 0x02 (boot [])).fault = some ⟨0x02, 0x7FFF⟩ := rfl

/-- ExactlyTheIllegalBytesFault: a byte on either side, at an empty schedule and at a head CPU turn. -/
theorem witness_ExactlyTheIllegalBytesFault :
    CpusTurn (boot [0xFF]) (boot [0xFF]) ∧ executedOpcode (boot [0xFF]) ∈ illegalOpcodes ∧
    CpusTurn (turns [.cpu] (boot [0xFE])) (turns [] (boot [0xFE])) ∧
    executedOpcode (turns [] (boot [0xFE])) ∉ illegalOpcodes :=
  ⟨⟨rfl, Or.inl ⟨rfl, rfl⟩⟩, by decide, ⟨rfl, Or.inr ⟨[], rfl, rfl⟩⟩, by decide⟩

/-- UnusedAddressesRunAsBrk: the first and the last unused address, at an empty schedule and at a head CPU turn. -/
theorem witness_UnusedAddressesRunAsBrk :
    CpusTurn ((boot []).setPc 0x0800) ((boot []).setPc 0x0800) ∧ isUnused ((boot []).setPc 0x0800).cpu.pc = true ∧
    CpusTurn (turns [.cpu] ((boot []).setPc 0x401F)) (turns [] ((boot []).setPc 0x401F)) ∧
    isUnused (turns [] ((boot []).setPc 0x401F)).cpu.pc = true :=
  ⟨⟨rfl, Or.inl ⟨rfl, rfl⟩⟩, by decide, ⟨rfl, Or.inr ⟨[], rfl, rfl⟩⟩, by decide⟩

/-- OnlyListedInstructionsWriteEachFlag: SEC changes C. -/
theorem witness_OnlyListedInstructionsWriteEachFlag :
    ∃ t, exec .sec (boot []) = .next t ∧ getFlag .c t.cpu.p ≠ getFlag .c (boot []).cpu.p := ⟨_, rfl, by decide⟩

/-- OnlyListedInstructionsWriteEachRegister: an instruction that changes A, by its mode too, X, Y and SP. -/
theorem witness_OnlyListedInstructionsWriteEachRegister :
    (Instr.lda (.imm 1)).wf = true ∧ (∃ t, exec (.lda (.imm 1)) (boot []) = .next t ∧ t.cpu.a ≠ (boot []).cpu.a) ∧
    (Instr.asl .acc).wf = true ∧ (∃ t, exec (.asl .acc) (regs 1 0 0 0 4 (boot [])) = .next t ∧ t.cpu.a ≠ 1) ∧
    Instr.inx.wf = true ∧ (∃ t, exec .inx (boot []) = .next t ∧ t.cpu.x ≠ (boot []).cpu.x) ∧
    Instr.dey.wf = true ∧ (∃ t, exec .dey (boot []) = .next t ∧ t.cpu.y ≠ (boot []).cpu.y) ∧
    Instr.pha.wf = true ∧ (∃ t, exec .pha (boot []) = .next t ∧ t.cpu.sp ≠ (boot []).cpu.sp) := by
  refine ⟨rfl, ⟨_, rfl, by decide⟩, rfl, ⟨_, rfl, by decide⟩, rfl, ⟨_, rfl, by decide⟩, rfl, ⟨_, rfl, by decide⟩, rfl,
    ⟨_, rfl, by decide⟩⟩

/-- VideoMemoryChangesOnlyThroughItsPorts, both clauses. -/
theorem witness_VideoMemoryChangesOnlyThroughItsPorts :
    (∃ t, exec (.sta (.abs 0x2007)) (regs 5 0 0 0 4 (boot [])) = .next t ∧ t.ppu.vram ≠ (boot []).ppu.vram) ∧
    (∃ t, exec (.sta (.abs 0x2004)) (regs 5 0 0 0 4 (boot [])) = .next t ∧ t.ppu.oam ≠ (boot []).ppu.oam) :=
  ⟨⟨_, rfl, by decide⟩, ⟨_, rfl, by decide⟩⟩

/-- RomAndLaunchParametersNeverChange, StatusLowBitsNeverChange: bit 7 of STATUS is 1 after a store to ROM that found it
1, at a head CPU turn, and after a `PpuStep` turn that found it 0. -/
theorem witness_StatusLowBitsNeverChange :
    (∃ t, step (turns [.cpu] (withPpu (fun u => { u with status := 0x80 }) (boot [0x8D, 0x00, 0x80]))) = .next t ∧
      t.ppu.status.getLsbD 7 = true) ∧
    (boot []).ppu.status.getLsbD 7 = false ∧
    ∃ t, step (turns [.ppuStep] (boot [])) = .next t ∧ t.ppu.status.getLsbD 7 = true ∧ 6 < 7 :=
  ⟨⟨_, rfl, by decide⟩, by decide, _, rfl, by decide, by decide⟩

/-- PpuStepRaisesVblankAndDrawNow: a fair run, a run with no `PpuStep` and the flag clear, the smallest ratio, and a
count below a ratio. -/
theorem witness_PpuStepRaisesVblankAndDrawNow :
    RunsUnder (fun _ => .ppuStep) (fun _ => ppuStep (boot [])) ∧ VblankFair (fun _ => .ppuStep) ∧
    RunsUnder (fun _ => .present) (fun _ => boot []) ∧ (∀ m : Nat, 0 ≤ m → (fun _ => Turn.present) m ≠ .ppuStep) ∧
    (boot []).ppu.status.getLsbD 7 = false ∧ 0 < 1 ∧ 2 < 3 :=
  ⟨fun _ => congrArg Host.Outcome.next (by decide : ppuStep (ppuStep (boot [])) = ppuStep (boot [])),
    fun n => ⟨n, Nat.le_refl n, rfl⟩, fun _ => rfl, fun _ _ h => Turn.noConfusion h, by decide, by decide,
    by decide⟩

/-- OutputsDoNotSteerTheCpu: two states that differ in CTRL, the requests and the schedule. -/
theorem witness_OutputsDoNotSteerTheCpu :
    let s := boot [0xA9, 0x42]
    let s' := turns [.ppuStep] (withPpu (fun u => { u with ctrl := 0x18, oamdmaReq := [1] }) (boot [0xA9, 0x42]))
    s ≠ s' ∧ SameToTheCpu s s' ∧ ∃ t, cpuStep s = .next t :=
  ⟨by decide, ⟨rfl, rfl, rfl, rfl, rfl, rfl, rfl, rfl, rfl⟩, _, rfl⟩

/-- StepKeepsStateWf. -/
theorem witness_StepKeepsStateWf :
    StateWf (ram [(7, 9)] (boot [0xEA])) ∧ ∃ t, step (ram [(7, 9)] (boot [0xEA])) = .next t := ⟨by decide, _, rfl⟩

/-- A 16KB launch. -/
def sampleLaunch (banks prg chr : Nat) : Launch :=
  { prgBanks := banks, prg := List.replicate prg 0xEA, chr := List.replicate chr 1, powerOn := PowerOn.zero,
    oamDmaMode := .stub, schedule := [] }

/-- LaunchBuildsTheState, every clause at its edge. -/
theorem witness_LaunchBuildsTheState :
    (sampleLaunch 0 16384 0).prgBanks ≠ 1 ∧ (sampleLaunch 3 16384 0).prgBanks ≠ 2 ∧
    (sampleLaunch 2 32767 0).prg.length ≠ (sampleLaunch 2 32767 0).prgBanks * 16384 ∧
    (sampleLaunch 1 16384 8193).prg.length = (sampleLaunch 1 16384 8193).prgBanks * 16384 ∧
    8192 < (sampleLaunch 1 16384 8193).chr.length ∧
    (sampleLaunch 2 32768 8192).prg.length = (sampleLaunch 2 32768 8192).prgBanks * 16384 ∧
    (sampleLaunch 2 32768 8192).chr.length ≤ 8192 ∧ (sampleLaunch 2 32768 8192).powerOn.wf := by
  simp only [sampleLaunch, List.length_replicate]
  decide

/-- DecodeOfEncode, EncodeOfDecode. -/
theorem witness_round_trips : (Instr.bvs 0x80).wf = true ∧ (Instr.illegal 0xFF).wf = true ∧ (Instr.jmp (.ind 0xFFFF)).wf = true ∧
    decode [0x70, 0x80, 0x55] = .ok (.bvs 0x80, [0x55]) := ⟨rfl, rfl, rfl, rfl⟩

/-- OperandsResolveByMode, last clause. -/
theorem witness_OperandsResolveByMode : effectiveAddress? (.izy 0xFF) (regs 0 0 1 0 4 (boot [])) = some 0x0001 ∧
    Operand.mode (.izy 0xFF) ≠ .ind := by decide

/-- UnusedAndRomDiscardWrites, ProgramRomIsMirrored, RamHoldsWhatIsWritten: the edges of every class. -/
theorem witness_address_classes :
    isUnused 0x0800 = true ∧ isUnused 0x1FFF = true ∧ isUnused 0x2008 = true ∧ isUnused 0x4013 = true ∧
    isUnused 0x4015 = true ∧ isUnused 0x401F = true ∧ isRom 0x8000 = true ∧ isRom 0xFFFF = true ∧
    isRam 0x0000 = true ∧ isRam 0x07FF = true ∧ isRam 0x4020 = true ∧ isRam 0x7FFF = true ∧
    isPort 0x2000 = true ∧ isPort 0x2007 = true ∧ isPort 0x4014 = true ∧ (0x0800 : Word) ≠ 0x0000 ∧
    (boot []).bus.prgBanks = .one ∧ ({ (boot []).bus with prgBanks := .two } : Bus).prgBanks = .two := by decide

/-- StackRoundTrip, the wrap. -/
theorem witness_StackRoundTrip : (regs 0 0 0 0xFF 4 (boot [])).cpu.sp = 0xFF := rfl

/-- WriteToggleLaw, both phases and accesses that leave it alone. -/
theorem witness_WriteToggleLaw : (boot []).ppu.w = false ∧
    (withPpu (fun u => { u with w := true }) (boot [])).ppu.w = true ∧ (0x2007 : Word) ≠ 0x2002 ∧
    (0x2007 : Word) ≠ 0x2005 ∧ (0x2007 : Word) ≠ 0x2006 := by decide

/-- OamDmaCopyFillsSpriteMemory: pages 2, 0x1F and 0xFF hold no port. -/
theorem witness_OamDmaCopyFillsSpriteMemory : (∀ i : Byte, isPort (wordOf 0x02 i) = false) ∧
    (∀ i : Byte, isPort (wordOf 0x1F i) = false) ∧ (∀ i : Byte, isPort (wordOf 0xFF i) = false) := by
  refine ⟨?_, ?_, ?_⟩ <;> decide +kernel

/-- OamDmaCopyFillsSpriteMemory, its first clause: a step with a request and one without, in both modes. -/
theorem witness_requests :
    (∃ u, cpuStep (regs 2 0 0 0 4 (boot [0x8D, 0x14, 0x40])) = .next u ∧ u.ppu.oamdmaReq = [] ++ [0x02]) ∧
    (∃ u, cpuStep (boot [0xEA]) = .next u ∧ u.ppu.oamdmaReq = (boot [0xEA]).ppu.oamdmaReq) ∧
    (boot []).host.oamDmaMode = .stub ∧ ({ (boot []).host with oamDmaMode := .copy } : HostSide).oamDmaMode = .copy :=
  ⟨⟨_, rfl, rfl⟩, ⟨_, rfl, rfl⟩, rfl, rfl⟩

/-- PaletteAndTileDecode: the last row and column of the last tile. -/
theorem witness_PaletteAndTileDecode : 7 < 8 ∧ (0xFFF0 : Word).toNat + 15 < 65536 ∧ (0 : BitVec 2) = 0 ∧
    (3 : BitVec 2) ≠ 0 := by decide

/-- RenderFrameWritesOnlyTheBuffer: the turn and the last pixel. -/
theorem witness_RenderFrameWritesOnlyTheBuffer : Running (turns [.renderFrame] (boot [])) ∧
    (turns [.renderFrame] (boot [])).host.schedule = .renderFrame :: [] ∧ 255 < 256 ∧ 239 < 240 := by decide

/-- LaterSpritesPaintOver: a pixel no sprite reaches, one that sprite 2 reaches last, and a hidden sprite. -/
theorem witness_LaterSpritesPaintOver :
    (∀ i : Fin 64, spriteIndex? frameState i 100 100 = none) ∧ spriteIndex? frameState 2 16 16 = some 0x13 ∧
    (∀ j : Fin 64, 2 < j.val → spriteIndex? frameState j 16 16 = none) ∧ 240 ≤ (frameState.oam.read (4 * 63)).toNat := by
  refine ⟨?_, ?_, ?_, ?_⟩ <;> decide +kernel

/-- RenderPassesFollowTheLoops: the last tile, row, column and sprite, and a sprite that paints. -/
theorem witness_RenderPassesFollowTheLoops : 29 < 30 ∧ 31 < 32 ∧ 7 < 8 ∧ 63 < 64 ∧
    spriteIndex? frameState 2 16 16 ≠ none := by
  refine ⟨by decide, by decide, by decide, by decide, ?_⟩
  decide +kernel

end Sys2Proof.Tests
end

/-! SUPPORT. Every instruction that exists has a next state, and so has every step of a running machine (R14, R252). -/

namespace Sys2Proof.Machine

open Sys2Proof.Safety
open Sys2Proof.Laws.EncodedLength (mode_mem)

/-! ## Which operands have an effective address -/

/-- Every operand but the accumulator and an immediate has an effective address (R106 to R117). -/
theorem effectiveAddress?_isSome {o : Operand} (hacc : o.mode ≠ .acc) (himm : o.mode ≠ .imm) (s : State) :
    ∃ a, effectiveAddress? o s = some a := by
  cases o with
  | acc => exact absurd rfl hacc
  | imm v => exact absurd rfl himm
  | _ => exact ⟨_, rfl⟩

/-- An instruction that exists has none of the modes R112 leaves out for its mnemonic. -/
theorem mode_ne_of_wf {i : Instr} {m : Mode} (c : Mnemonic) (h : i.wf = true) (hc : i.mnemonic = c)
    (hm : m ∉ legalModes c) : i.mode ≠ m :=
  ne_of_mem_of_not_mem (hc ▸ mode_mem h) hm

/-! ## The meanings that need an address, where there is one -/

theorem storeByte_of_address {o : Operand} {s : State} {a : Word} (h : effectiveAddress? o s = some a) (v : Byte) :
    storeByte o v s = .next (memWrite a v (resolve o s).2) := by
  simp only [storeByte, resolve_of_effectiveAddress h]

theorem execJmp_of_address {o : Operand} {s : State} {a : Word} (h : effectiveAddress? o s = some a) :
    execJmp o s = .next ((resolve o s).2.setPc a) := by
  simp only [execJmp, resolve_of_effectiveAddress h]

theorem modify_acc (f : Byte → Byte → Byte × Byte) (s : State) :
    modify .acc f s = .next ((s.setA (f s.cpu.a s.cpu.p).1).setP (f s.cpu.a s.cpu.p).2) := rfl

theorem modify_of_address {o : Operand} {s : State} {a : Word} (h : effectiveAddress? o s = some a)
    (f : Byte → Byte → Byte × Byte) :
    modify o f s =
      .next ((memWrite a (f (readOperand o s).1 s.cpu.p).1 (readOperand o s).2).setP
        (f (readOperand o s).1 s.cpu.p).2) := by
  simp only [modify, readOperand, resolve_of_effectiveAddress h, store, load_cpu, resolve_cpu]

/-! ## Progress -/

theorem storeByte_next {o : Operand} (hacc : o.mode ≠ .acc) (himm : o.mode ≠ .imm) (v : Byte) (s : State) :
    ∃ t, storeByte o v s = .next t := by
  obtain ⟨a, ha⟩ := effectiveAddress?_isSome hacc himm s
  exact ⟨_, storeByte_of_address ha v⟩

theorem execJmp_next {o : Operand} (hacc : o.mode ≠ .acc) (himm : o.mode ≠ .imm) (s : State) :
    ∃ t, execJmp o s = .next t := by
  obtain ⟨a, ha⟩ := effectiveAddress?_isSome hacc himm s
  exact ⟨_, execJmp_of_address ha⟩

/-- A read-modify-write is refused for an immediate only. -/
theorem modify_next {o : Operand} (himm : o.mode ≠ .imm) (f : Byte → Byte → Byte × Byte) (s : State) :
    ∃ t, modify o f s = .next t := by
  by_cases hacc : o.mode = .acc
  · cases o <;> cases hacc
    exact ⟨_, modify_acc f s⟩
  · obtain ⟨a, ha⟩ := effectiveAddress?_isSome hacc himm s
    exact ⟨_, modify_of_address ha f⟩

/-- Every instruction that exists has a next state: the refusals of log 13 are all of ill-formed operand forms. -/
theorem exec_next_of_wf {i : Instr} (h : i.wf = true) (s : State) : ∃ t, exec i s = .next t := by
  cases i with
  | sta o => exact storeByte_next (mode_ne_of_wf .sta h rfl (by decide)) (mode_ne_of_wf .sta h rfl (by decide)) _ s
  | stx o => exact storeByte_next (mode_ne_of_wf .stx h rfl (by decide)) (mode_ne_of_wf .stx h rfl (by decide)) _ s
  | sty o => exact storeByte_next (mode_ne_of_wf .sty h rfl (by decide)) (mode_ne_of_wf .sty h rfl (by decide)) _ s
  | asl o => exact modify_next (mode_ne_of_wf .asl h rfl (by decide)) _ s
  | lsr o => exact modify_next (mode_ne_of_wf .lsr h rfl (by decide)) _ s
  | rol o => exact modify_next (mode_ne_of_wf .rol h rfl (by decide)) _ s
  | ror o => exact modify_next (mode_ne_of_wf .ror h rfl (by decide)) _ s
  | inc o => exact modify_next (mode_ne_of_wf .inc h rfl (by decide)) (fun m p => (m + 1, putNZ (m + 1) p)) s
  | dec o => exact modify_next (mode_ne_of_wf .dec h rfl (by decide)) (fun m p => (m - 1, putNZ (m - 1) p)) s
  | jmp o => exact execJmp_next (mode_ne_of_wf .jmp h rfl (by decide)) (mode_ne_of_wf .jmp h rfl (by decide)) s
  | _ => exact ⟨_, rfl⟩

/-- Whatever the bytes at PC are, the instruction fetched there exists (R120, R122). -/
theorem fetchInstr_wf (s : State) : (fetchInstr s).1.wf = true := by
  obtain ⟨b1, b2, e⟩ := fetchInstr_eq s
  rw [e]
  exact assemble_wf _ b1 b2

theorem cpuStep_next (s : State) : ∃ t, cpuStep s = .next t := exec_next_of_wf (fetchInstr_wf s) _

theorem cpuTurn_of_cpuStep {s t : State} (h : cpuStep s = .next t) : cpuTurn s = .next (serveOamDma s t) := by
  simp only [cpuTurn, h]

theorem cpuTurn_next (s : State) : ∃ t, cpuTurn s = .next t := by
  obtain ⟨t, h⟩ := cpuStep_next s
  exact ⟨_, cpuTurn_of_cpuStep h⟩

/-- Every agent operation has a next state. -/
theorem runTurn_next (turn : Turn) (s : State) : ∃ t, runTurn turn s = .next t := by
  cases turn with
  | cpu => exact cpuTurn_next s
  | _ => exact ⟨_, rfl⟩

theorem step_of_no_turn {s : State} (hr : Running s) (h : s.host.schedule = []) : step s = cpuTurn s :=
  step_of_cpusTurn ⟨hr, Or.inl ⟨h, rfl⟩⟩

theorem step_of_turn {s : State} {turn : Turn} {rest : List Turn} (hr : Running s)
    (h : s.host.schedule = turn :: rest) : step s = runTurn turn (s.withSchedule rest) := by
  unfold step; rw [hr, h]

/-- Settles O27: what is fetched always exists, so a CPU turn always has a next state, and the host's turns do too. -/
theorem runningMachineAlwaysSteps : Obligations.RunningMachineAlwaysSteps := by
  intro s hr
  cases h : s.host.schedule with
  | nil => rw [step_of_no_turn hr h]; exact cpuTurn_next s
  | cons turn rest => rw [step_of_turn hr h]; exact runTurn_next turn _

end Sys2Proof.Machine

/-! SUPPORT. What no agent can write: the program ROM and the launch's parameters (R10, R71). -/

namespace Sys2Proof.Machine

/-- The program ROM, the bank count and the OAM DMA mode of `t` are those of `s`. -/
def SameLaunchData (s t : State) : Prop :=
  t.bus.prg = s.bus.prg ∧ t.bus.prgBanks = s.bus.prgBanks ∧ t.host.oamDmaMode = s.host.oamDmaMode

/-- It depends on the ROM, the bank count and the mode alone. -/
theorem SameLaunchData.of_eq {s t u : State} (h : SameLaunchData s t) (hprg : u.bus.prg = t.bus.prg)
    (hbanks : u.bus.prgBanks = t.bus.prgBanks) (hmode : u.host.oamDmaMode = t.host.oamDmaMode) :
    SameLaunchData s u := by
  obtain ⟨h1, h2, h3⟩ := h
  exact ⟨hprg.trans h1, hbanks.trans h2, hmode.trans h3⟩

/-- No operation of the CPU, the bus or the host writes them. -/
theorem keptByAll_sameLaunchData (s : State) : KeptByAll (SameLaunchData s) where
  cpu _ _ h := h
  read a u h := h.of_eq (by simp) (by simp) (by simp)
  write a v u h := h.of_eq (by simp) (by simp) (by simp)
  fault _ _ h := h
  schedule _ _ h := h
  ppuStep _ h := h
  render _ h := h
  copyByte v u i h := h.of_eq (by simp [oamDmaCopyByte]) (by simp [oamDmaCopyByte]) (by simp [oamDmaCopyByte])

/-- Settles O34: every operation of every agent keeps the ROM, the bank count and the mode. -/
theorem romAndLaunchParametersNeverChange : Obligations.RomAndLaunchParametersNeverChange := by
  intro s t h
  exact (keptByAll_sameLaunchData s).step ⟨rfl, rfl, rfl⟩ h

end Sys2Proof.Machine

/-! SUPPORT. What `Reset` does (R320) and what the launch builds (R321). -/

namespace Sys2Proof.Machine

open Sys2Proof.Safety

/-! ## Reset -/

/-- A byte of program ROM is read through the bank's index (R70). -/
theorem peek_rom {a : Word} (s : State) (h : isRom a = true) :
    peek a s = s.bus.prg.read (prgIndex s.bus.prgBanks a.toNat) := by
  simp only [peek, memRead, route_rom h]

/-- The low byte of the reset vector is the fourth byte of PRG from its end, with one bank and with two. -/
theorem peek_resetVector_low (s : State) : peek 0xFFFC s = s.bus.prg.read (s.bus.prgBanks.size - 4) := by
  rw [peek_rom s rfl]
  cases s.bus.prgBanks <;> rfl

/-- The high byte of the reset vector is the third byte of PRG from its end. -/
theorem peek_resetVector_high (s : State) : peek 0xFFFD s = s.bus.prg.read (s.bus.prgBanks.size - 3) := by
  rw [peek_rom s rfl]
  cases s.bus.prgBanks <;> rfl

/-- `Reset` writes PC and I; the vector is at no port, so reading it changes nothing. -/
theorem applyReset_eq (s : State) :
    applyReset s = (s.setPc (wordOf (peek 0xFFFD s) (peek 0xFFFC s))).setFlag .i true := by
  unfold applyReset
  rw [memReadWord_of_not_port rfl rfl]
  rfl

@[simp] theorem applyReset_cpu (s : State) :
    (applyReset s).cpu =
      { s.cpu with pc := wordOf (peek 0xFFFD s) (peek 0xFFFC s), p := putFlag .i true s.cpu.p } := by
  rw [applyReset_eq]; rfl
@[simp] theorem applyReset_bus (s : State) : (applyReset s).bus = s.bus := by rw [applyReset_eq]; rfl
@[simp] theorem applyReset_ppu (s : State) : (applyReset s).ppu = s.ppu := by rw [applyReset_eq]; rfl
@[simp] theorem applyReset_host (s : State) : (applyReset s).host = s.host := by rw [applyReset_eq]; rfl
@[simp] theorem applyReset_fault (s : State) : (applyReset s).fault = s.fault := by rw [applyReset_eq]; rfl

theorem applyReset_pc_toNat (s : State) :
    (applyReset s).cpu.pc.toNat =
      256 * (s.bus.prg.read (s.bus.prgBanks.size - 3)).toNat + (s.bus.prg.read (s.bus.prgBanks.size - 4)).toNat := by
  rw [applyReset_cpu, wordOf_toNat, peek_resetVector_high, peek_resetVector_low]

theorem keepsFlags_putFlag (f : Flag) (v : Bool) (p : Byte) : KeepsFlags [f] p (putFlag f v p) := by
  intro g hg
  rw [getFlag_putFlag, if_neg (by simpa using hg)]

theorem applyReset_wf {s : State} (h : StateWf s) : StateWf (applyReset s) := by
  rw [stateWf_iff] at h ⊢
  simpa using h

/-! ## Power-on -/

theorem powerOnState_prg_read (b : PrgBanks) (l : Launch) (k : Nat) :
    (powerOnState b l).bus.prg.read k = l.prg.getD k 0 :=
  Memory.read_ofBytesFrom l.prg (Nat.zero_le k)

theorem powerOnState_vram_read (b : PrgBanks) (l : Launch) (k : Nat) :
    (powerOnState b l).ppu.vram.read k = if k < l.chr.length then l.chr.getD k 0 else l.powerOn.vram.read k := by
  simpa [powerOnState] using Memory.read_overlay l.chr l.powerOn.vram 0 k

theorem powerOnState_wf {b : PrgBanks} {l : Launch} (hq : l.powerOn.wf) (hprg : l.prg.length = b.size)
    (hchr : l.chr.length ≤ 8192) : StateWf (powerOnState b l) := by
  obtain ⟨hwram, hxram, hsram, hvram, hoam⟩ := hq
  rw [stateWf_iff]
  refine ⟨⟨hwram, hxram, hsram, ?_⟩, ⟨?_, hoam⟩, Or.inl rfl⟩
  · exact Memory.wf_ofBytesFrom l.prg b.size (by omega)
  · exact Memory.wf_overlay l.chr hvram (by omega)

/-! ## Launch -/

/-- Only one and two are bank counts (R70). -/
theorem bankCount?_eq_none {n : Nat} (h1 : n ≠ 1) (h2 : n ≠ 2) : bankCount? n = none := by
  unfold bankCount?
  split
  · exact absurd rfl h1
  · exact absurd rfl h2
  · rfl

theorem bankCount?_eq_some {n : Nat} (h : n = 1 ∨ n = 2) :
    ∃ b, bankCount? n = some b ∧ b = (if n = 1 then .one else .two) ∧ b.size = n * 16384 := by
  rcases h with rfl | rfl <;> exact ⟨_, rfl, rfl, rfl⟩

theorem launch_of_bankCount_none {l : Launch} (h : bankCount? l.prgBanks = none) : launch l = .error .prgBanks := by
  simp only [launch, h]

/-- The checks of a launch with a bank count, in their order (log 17). -/
theorem launch_of_bankCount {l : Launch} {b : PrgBanks} (h : bankCount? l.prgBanks = some b) :
    launch l =
      if l.prg.length ≠ b.size then .error .prgLength
      else if 8192 < l.chr.length then .error .chrLength
      else .ok (applyReset (powerOnState b l)) := by
  simp only [launch, h]

/-- A launch within the spec's parameters is power-on and `Reset` (R321). -/
theorem launch_ok {l : Launch} {b : PrgBanks} (hb : bankCount? l.prgBanks = some b) (hprg : l.prg.length = b.size)
    (hchr : l.chr.length ≤ 8192) : launch l = .ok (applyReset (powerOnState b l)) := by
  rw [launch_of_bankCount hb, if_neg (not_not.mpr hprg), if_neg (by omega)]

theorem launch_refuses_prgLength {l : Launch} (hn : l.prgBanks = 1 ∨ l.prgBanks = 2)
    (h : l.prg.length ≠ l.prgBanks * 16384) : launch l = .error .prgLength := by
  obtain ⟨b, hb, -, hsize⟩ := bankCount?_eq_some hn
  rw [launch_of_bankCount hb, if_pos (by rwa [hsize])]

theorem launch_refuses_chrLength {l : Launch} (hn : l.prgBanks = 1 ∨ l.prgBanks = 2)
    (hprg : l.prg.length = l.prgBanks * 16384) (h : 8192 < l.chr.length) : launch l = .error .chrLength := by
  obtain ⟨b, hb, -, hsize⟩ := bankCount?_eq_some hn
  rw [launch_of_bankCount hb, if_neg (by rw [hsize]; exact not_not.mpr hprg), if_pos h]

/-- The vector `Reset` reads after power-on is the word in PRG's fourth and third byte from the end. -/
theorem launched_pc_toNat {b : PrgBanks} {l : Launch} (hprg : l.prg.length = b.size) :
    (applyReset (powerOnState b l)).cpu.pc.toNat =
      256 * (l.prg.getD (l.prg.length - 3) 0).toNat + (l.prg.getD (l.prg.length - 4) 0).toNat := by
  rw [applyReset_pc_toNat, powerOnState_prg_read, powerOnState_prg_read, hprg]
  rfl

/-- Power-on and `Reset` of an all-zero cartridge with the all-zero record: every ROM byte reads 0, so PC is 0
(log 1 to log 5). -/
theorem applyReset_zero_cartridge (n : Nat) :
    applyReset (powerOnState .one
      { prgBanks := 1, prg := List.replicate n 0, chr := [], powerOn := PowerOn.zero, oamDmaMode := .stub,
        schedule := [] }) = State.reset := by
  simp only [applyReset_eq, powerOnState, Memory.ofBytesFrom_replicate_zero]
  rfl

/-- Settles O41: each refusal by its check, the launched state part by part through `Reset` and power-on. -/
theorem launchBuildsTheState : Obligations.LaunchBuildsTheState := by
  refine ⟨fun l h1 h2 => launch_of_bankCount_none (bankCount?_eq_none h1 h2), fun l => launch_refuses_prgLength,
    fun l => launch_refuses_chrLength, fun l hn hprg hchr => ?_, ?_⟩
  · obtain ⟨b, hb, hbanks, hsize⟩ := bankCount?_eq_some hn
    rw [← hsize] at hprg
    refine ⟨_, launch_ok hb hprg hchr, ?_⟩
    have hpc := launched_pc_toNat hprg
    simp only [applyReset_cpu, applyReset_bus, applyReset_ppu, applyReset_host, applyReset_fault] at hpc ⊢
    exact ⟨rfl, rfl, rfl, rfl, getFlag_putFlag_same .i true _, keepsFlags_putFlag .i true _, hpc, rfl, rfl, rfl,
      powerOnState_prg_read b l, hbanks, rfl, powerOnState_vram_read b l, rfl, rfl,
      fun hq => applyReset_wf (powerOnState_wf hq hprg hchr)⟩
  · rw [launch_ok (b := .one) rfl List.length_replicate (Nat.zero_le _), applyReset_zero_cartridge]

end Sys2Proof.Machine

/-! SUPPORT. The invariant of the state's data (R38, R41, R42, R289): it holds right after reset and every step of every
agent keeps it. What reset leaves (R50). -/

namespace Sys2Proof.Machine

open Sys2Proof.Safety

/-- A rendered frame has 240 rows of 256 pixels (R289). -/
theorem renderFrame_wf (u : Ppu) : FrameWf (renderFrame u) := by
  refine Or.inr ⟨by simp [renderFrame], fun row hrow => ?_⟩
  obtain ⟨y, -, rfl⟩ := List.mem_map.mp hrow
  simp

theorem hostRender_wf {s : State} (h : StateWf s) : StateWf (hostRender s) := by
  rw [stateWf_iff] at h ⊢
  obtain ⟨hbus, hppu, -⟩ := h
  exact ⟨hbus, hppu, renderFrame_wf s.ppu⟩

/-- The copy writes sprite memory at a byte index, and so within it (R282). -/
theorem oamDmaCopyByte_wf (v : Byte) {s : State} (i : Nat) (h : StateWf s) : StateWf (oamDmaCopyByte v s i) := by
  have hread := memRead_wf h (wordOf v (BitVec.ofNat 8 i))
  rw [stateWf_iff] at hread ⊢
  obtain ⟨hbus, ⟨hvram, hoam⟩, hframe⟩ := hread
  exact ⟨hbus, ⟨hvram, Memory.wf_write hoam (BitVec.isLt _) _⟩, hframe⟩

/-- Every operation of the CPU, the bus and the host keeps the invariant. -/
theorem keptByAll_stateWf : KeptByAll StateWf where
  cpu _ _ h := h
  read a _ h := memRead_wf h a
  write a v _ h := memWrite_wf h a v
  fault _ _ h := h
  schedule _ _ h := h
  ppuStep _ h := h
  render _ h := hostRender_wf h
  copyByte v _ i h := oamDmaCopyByte_wf v i h

/-- Settles O37: the invariant is kept by every operation a step is made of. -/
theorem stepKeepsStateWf : Obligations.StepKeepsStateWf :=
  fun _ _ h e => keptByAll_stateWf.step h e

/-- Settles O38: after reset every memory is the empty list, and there is no frame yet. -/
theorem resetStateIsWf : Obligations.ResetStateIsWf := by
  have hbus : BusWf State.reset.bus :=
    ⟨Memory.wf_nil _, Memory.wf_nil _, Memory.wf_nil _, Memory.wf_nil _⟩
  exact (stateWf_iff State.reset).mpr ⟨hbus, ⟨Memory.wf_nil _, Memory.wf_nil _⟩, Or.inl rfl⟩

/-- Settles O39: the vector of the empty cartridge is two ROM bytes that read 0, and the other values are written out in
`State.reset`. -/
theorem resetLeavesWhatTheSpecGives : Obligations.ResetLeavesWhatTheSpecGives := by
  refine ⟨?_, rfl, rfl, rfl, rfl, rfl⟩
  rw [peek_resetVector_high, peek_resetVector_low]
  rfl

end Sys2Proof.Machine

/-! SUPPORT. The stack primitives against each other (R30 to R34). -/

namespace Sys2Proof.Machine

/-- Neighbouring slots are apart, across the wrap too. -/
theorem stackSlot_add_one_ne (sp : Byte) : stackSlot sp ≠ stackSlot (sp + 1) := by
  intro h
  have hsp : sp = sp + 1 := stackSlot_inj h
  bv_omega

@[simp] theorem push16_cpu (v : Word) (s : State) : (push16 v s).cpu = { s.cpu with sp := s.cpu.sp + 2 } := by
  simp [push16, BitVec.add_assoc]

/-- A pushed word lies low byte first: at the slot SP designated and at the one above it (R32). -/
theorem peek_push16 (v : Word) (s : State) :
    peek (stackSlot s.cpu.sp) (push16 v s) = loByte v ∧
      peek (stackSlot (s.cpu.sp + 1)) (push16 v s) = hiByte v := by
  unfold push16
  constructor
  · rw [peek_push8 _ _ _ (stackSlot_not_port _), push8_cpu, if_neg (stackSlot_add_one_ne _),
      peek_push8 _ _ _ (stackSlot_not_port _), if_pos rfl]
  · rw [peek_push8 _ _ _ (stackSlot_not_port _), push8_cpu, if_pos rfl]

theorem pop8_push8 (v : Byte) (s : State) :
    (pop8 (push8 v s)).1 = v ∧ (pop8 (push8 v s)).2.cpu = s.cpu := by
  simp [pop8_eq, peek_push8, stackSlot_not_port]

theorem pop16_push16 (v : Word) (s : State) :
    (pop16 (push16 v s)).1 = v ∧ (pop16 (push16 v s)).2.cpu = s.cpu := by
  have hhigh : s.cpu.sp + 2 - 1 = s.cpu.sp + 1 := by bv_omega
  have hlow : s.cpu.sp + 2 - 2 = s.cpu.sp := BitVec.add_sub_cancel _ _
  obtain ⟨hlo, hhi⟩ := peek_push16 v s
  simp only [pop16_eq, push16_cpu, setSp_cpu, hhigh, hlow, hlo, hhi, wordOf_bytes, and_self]

/-- Settles O50: the round trips, and for the last clause the two slots of a word pushed at SP = 0xFF. -/
theorem stackRoundTrip : Obligations.StackRoundTrip := by
  refine ⟨pop8_push8, pop16_push16, fun v s hsp => ?_⟩
  obtain ⟨hlo, hhi⟩ := peek_push16 v s
  rw [hsp] at hlo hhi
  change peek 0x01FF _ = _ at hlo
  change peek 0x0100 _ = _ at hhi
  rw [hlo, hhi, push16_cpu, hsp]
  exact ⟨loByte_toNat v, hiByte_toNat v, rfl⟩

end Sys2Proof.Machine

/-! SUPPORT. Which registers and flags each instruction may write, said once (R20 to R23): one table of registers, one
of flags, and the frame they give for the CPU's registers. -/

namespace Sys2Proof.Machine

open Sys2Proof.Safety

/-! ## What each flag computation leaves -/

theorem keepsFlags_refl (written : List Flag) (p : Byte) : KeepsFlags written p p := fun _ _ => rfl

theorem keepsFlags_putNZ (v p : Byte) : KeepsFlags [.n, .z] p (putNZ v p) := by
  intro f hf
  simp only [List.mem_cons, List.not_mem_nil, or_false, not_or] at hf
  exact getFlag_putNZ_other v p hf.1 hf.2

theorem keepsFlags_putSum (q : Sum) (p : Byte) : KeepsFlags [.n, .v, .z, .c] p (putSum q p) := by
  intro f hf
  rw [getFlag_putSum]
  cases f <;> simp at hf ⊢

theorem keepsFlags_putCompare (reg m p : Byte) : KeepsFlags [.n, .z, .c] p (putCompare reg m p) := by
  intro f hf
  rw [getFlag_putCompare]
  cases f <;> simp at hf ⊢

theorem keepsFlags_putBit (a m p : Byte) : KeepsFlags [.n, .v, .z] p (putBit a m p) := by
  intro f hf
  rw [getFlag_putBit]
  cases f <;> simp at hf ⊢

theorem keepsFlags_putShifted (q : Shifted) (p : Byte) : KeepsFlags [.n, .z, .c] p (putShifted q p) := by
  intro f hf
  rw [getFlag_putShifted]
  cases f <;> simp at hf ⊢

/-- A pull of the whole of P may change every flag (R203, R241). -/
theorem keepsFlags_all (p q : Byte) : KeepsFlags [.n, .v, .r, .b, .d, .i, .z, .c] p q := by
  intro f hf
  cases f <;> simp at hf

/-! ## The two tables -/

/-- The registers beside P. -/
inductive Register where
  | a | x | y | sp | pc

/-- The registers beside P that an instruction may write, the fetch's move of PC not counted (40 to 45 of the spec). -/
def writtenRegisters : Instr → List Register
  | .lda _ | .txa | .tya | .adc _ | .sbc _ | .and _ | .ora _ | .eor _ => [.a]
  | .asl o | .lsr o | .rol o | .ror o | .inc o | .dec o => if o.mode = .acc then [.a] else []
  | .ldx _ | .tax | .tsx | .inx | .dex => [.x]
  | .ldy _ | .tay | .iny | .dey => [.y]
  | .txs | .pha | .php | .plp => [.sp]
  | .pla => [.a, .sp]
  | .jsr _ | .rts | .rti => [.sp, .pc]
  | .jmp _ | .bcc _ | .bcs _ | .beq _ | .bne _ | .bmi _ | .bpl _ | .bvc _ | .bvs _ | .illegal _ => [.pc]
  | .sta _ | .stx _ | .sty _ | .cmp _ | .cpx _ | .cpy _ | .bit _ => []
  | .clc | .sec | .cli | .sei | .cld | .sed | .clv | .brk | .nop => []

/-- The flags that an instruction of a mnemonic may write: R23 read by rows. -/
def writtenFlags : Mnemonic → List Flag
  | .lda | .ldx | .ldy | .tax | .tay | .txa | .tya | .tsx | .pla | .and | .ora | .eor => [.n, .z]
  | .inc | .dec | .inx | .iny | .dex | .dey => [.n, .z]
  | .adc | .sbc => [.n, .v, .z, .c]
  | .cmp | .cpx | .cpy | .asl | .lsr | .rol | .ror => [.n, .z, .c]
  | .bit => [.n, .v, .z]
  | .plp | .rti => [.n, .v, .r, .b, .d, .i, .z, .c]
  | .clc | .sec => [.c]
  | .cli | .sei => [.i]
  | .cld | .sed => [.d]
  | .clv => [.v]
  | .brk => [.b]
  | .sta | .stx | .sty | .txs | .pha | .php | .jmp | .jsr | .rts | .nop | .illegal => []
  | .bcc | .bcs | .beq | .bne | .bmi | .bpl | .bvc | .bvs => []

/-- The table by rows says no more than R23's column. -/
theorem mem_flagWriters : ∀ c : Mnemonic, ∀ f ∈ writtenFlags c, c ∈ flagWriters f := by
  intro c
  cases c <;> decide

/-! ## The frame of the CPU's registers -/

/-- A register beside P is the same in `c` and `d`. -/
def SameRegister (c d : Cpu) : Register → Prop
  | .a => d.a = c.a
  | .x => d.x = c.x
  | .y => d.y = c.y
  | .sp => d.sp = c.sp
  | .pc => d.pc = c.pc

/-- From `c` to `d`, no register but the listed ones changes, and no flag but the listed ones. -/
structure CpuFrame (regs : List Register) (flags : List Flag) (c d : Cpu) : Prop where
  same : ∀ r, r ∉ regs → SameRegister c d r
  flags : KeepsFlags flags c.p d.p

namespace CpuFrame

variable {flags : List Flag} {c : Cpu} {q : Byte}

theorem writeP (h : KeepsFlags flags c.p q) : CpuFrame [] flags c { c with p := q } :=
  ⟨fun r _ => by cases r <;> rfl, h⟩

theorem writeA (v : Byte) (h : KeepsFlags flags c.p q) :
    CpuFrame [.a] flags c { c with a := v, p := q } :=
  ⟨fun r hr => by cases r <;> simp [SameRegister] at hr ⊢, h⟩

theorem writeX (v : Byte) (h : KeepsFlags flags c.p q) :
    CpuFrame [.x] flags c { c with x := v, p := q } :=
  ⟨fun r hr => by cases r <;> simp [SameRegister] at hr ⊢, h⟩

theorem writeY (v : Byte) (h : KeepsFlags flags c.p q) :
    CpuFrame [.y] flags c { c with y := v, p := q } :=
  ⟨fun r hr => by cases r <;> simp [SameRegister] at hr ⊢, h⟩

theorem writeSp (v : Byte) (h : KeepsFlags flags c.p q) :
    CpuFrame [.sp] flags c { c with sp := v, p := q } :=
  ⟨fun r hr => by cases r <;> simp [SameRegister] at hr ⊢, h⟩

theorem writePc (v : Word) (h : KeepsFlags flags c.p q) :
    CpuFrame [.pc] flags c { c with pc := v, p := q } :=
  ⟨fun r hr => by cases r <;> simp [SameRegister] at hr ⊢, h⟩

theorem writeASp (v n : Byte) (h : KeepsFlags flags c.p q) :
    CpuFrame [.a, .sp] flags c { c with a := v, sp := n, p := q } :=
  ⟨fun r hr => by cases r <;> simp [SameRegister] at hr ⊢, h⟩

theorem writeSpPc (n : Byte) (v : Word) (h : KeepsFlags flags c.p q) :
    CpuFrame [.sp, .pc] flags c { c with sp := n, pc := v, p := q } :=
  ⟨fun r hr => by cases r <;> simp [SameRegister] at hr ⊢, h⟩

end CpuFrame

/-! ## The meanings that may be refused, inverted -/

/-- An operand with no effective address is the accumulator or an immediate. -/
theorem effectiveAddress?_cases (o : Operand) (s : State) :
    o = .acc ∨ (∃ v, o = .imm v) ∨ ∃ a, effectiveAddress? o s = some a := by
  cases o with
  | acc => exact .inl rfl
  | imm v => exact .inr (.inl ⟨v, rfl⟩)
  | _ => exact .inr (.inr ⟨_, rfl⟩)

theorem storeByte_cases {o : Operand} {v : Byte} {s t : State} (e : storeByte o v s = .next t) :
    ∃ a, effectiveAddress? o s = some a ∧ t = memWrite a v (resolve o s).2 := by
  rcases effectiveAddress?_cases o s with rfl | ⟨v, rfl⟩ | ⟨a, ha⟩
  · cases e
  · cases e
  · rw [storeByte_of_address ha] at e
    cases e
    exact ⟨a, ha, rfl⟩

theorem execJmp_cases {o : Operand} {s t : State} (e : execJmp o s = .next t) :
    ∃ a, effectiveAddress? o s = some a ∧ t = (resolve o s).2.setPc a := by
  rcases effectiveAddress?_cases o s with rfl | ⟨v, rfl⟩ | ⟨a, ha⟩
  · cases e
  · cases e
  · rw [execJmp_of_address ha] at e
    cases e
    exact ⟨a, ha, rfl⟩

theorem modify_cases {o : Operand} {f : Byte → Byte → Byte × Byte} {s t : State} (e : modify o f s = .next t) :
    (o = .acc ∧ t = (s.setA (f s.cpu.a s.cpu.p).1).setP (f s.cpu.a s.cpu.p).2) ∨
      ∃ a, effectiveAddress? o s = some a ∧
        t = (memWrite a (f (readOperand o s).1 s.cpu.p).1 (readOperand o s).2).setP
          (f (readOperand o s).1 s.cpu.p).2 := by
  rcases effectiveAddress?_cases o s with rfl | ⟨v, rfl⟩ | ⟨a, ha⟩
  · rw [modify_acc] at e
    cases e
    exact .inl ⟨rfl, rfl⟩
  · cases e
  · rw [modify_of_address ha] at e
    cases e
    exact .inr ⟨a, ha, rfl⟩

/-- RTI's return: P, then the high and the low byte of PC, from the three slots below SP (R241). -/
theorem trapReturn_eq (s : State) :
    trapReturn s =
      ((s.setSp (s.cpu.sp - 3)).setP (peek (stackSlot (s.cpu.sp - 1)) s)).setPc
        (wordOf (peek (stackSlot (s.cpu.sp - 2)) s) (peek (stackSlot (s.cpu.sp - 3)) s)) := by
  have h1 : s.cpu.sp - 1 - 1 = s.cpu.sp - 2 := by bv_omega
  have h2 : s.cpu.sp - 1 - 2 = s.cpu.sp - 3 := by bv_omega
  simp only [trapReturn, pop8_eq, pop16_eq, setP_cpu, setSp_cpu, peek_setP, peek_setSp, h1, h2]
  rfl

/-! ## The frame of each instruction -/

namespace CpuFrame

variable {regs : List Register} {flags : List Flag} {s t u : State}

/-- A meaning may start with accesses that leave the registers as they are. -/
theorem from_cpu (hu : u.cpu = s.cpu) (h : CpuFrame regs flags u.cpu t.cpu) : CpuFrame regs flags s.cpu t.cpu :=
  hu ▸ h

theorem storeByte {o : Operand} {v : Byte} (e : storeByte o v s = .next t) : CpuFrame [] [] s.cpu t.cpu := by
  obtain ⟨a, -, rfl⟩ := storeByte_cases e
  rw [memWrite_cpu, resolve_cpu]
  exact writeP (keepsFlags_refl _ _)

/-- A read-modify-write writes A in its accumulator form only, and the flags its function writes. -/
theorem modify {o : Operand} {f : Byte → Byte → Byte × Byte}
    (hf : ∀ m, KeepsFlags flags s.cpu.p (f m s.cpu.p).2) (e : modify o f s = .next t) :
    CpuFrame (if o.mode = .acc then [.a] else []) flags s.cpu t.cpu := by
  rcases modify_cases e with ⟨rfl, rfl⟩ | ⟨a, ha, rfl⟩
  · exact writeA _ (hf _)
  · have hmode : o.mode ≠ .acc := by
      intro hacc
      cases o <;> cases hacc
      cases ha
    rw [if_neg hmode, setP_cpu, memWrite_cpu, readOperand_cpu]
    exact writeP (hf _)

theorem shift {o : Operand} {g : Byte → Bool → Shifted} (e : Machine.modify o (shifting g) s = .next t) :
    CpuFrame (if o.mode = .acc then [.a] else []) [.n, .z, .c] s.cpu t.cpu :=
  modify (fun _ => keepsFlags_putShifted _ _) e

theorem branchIf (taken : Bool) (d : Byte) (s : State) : CpuFrame [.pc] [] s.cpu (branchIf taken d s).cpu := by
  cases taken <;> exact writePc _ (keepsFlags_refl _ _)

theorem setFlag (f : Flag) (v : Bool) (s : State) : CpuFrame [] [f] s.cpu (s.setFlag f v).cpu :=
  writeP (keepsFlags_putFlag f v _)

theorem push8 (v : Byte) (s : State) : CpuFrame [.sp] [] s.cpu (push8 v s).cpu := by
  rw [push8_cpu]
  exact writeSp _ (keepsFlags_refl _ _)

end CpuFrame

/-- Every instruction changes only the registers and flags of its row in the two tables. -/
theorem exec_cpuFrame {i : Instr} {s t : State} (e : exec i s = .next t) :
    CpuFrame (writtenRegisters i) (writtenFlags i.mnemonic) s.cpu t.cpu := by
  cases i with
  | lda o => cases e; exact .from_cpu (readOperand_cpu o s) (.writeA _ (keepsFlags_putNZ _ _))
  | ldx o => cases e; exact .from_cpu (readOperand_cpu o s) (.writeX _ (keepsFlags_putNZ _ _))
  | ldy o => cases e; exact .from_cpu (readOperand_cpu o s) (.writeY _ (keepsFlags_putNZ _ _))
  | sta o => exact .storeByte e
  | stx o => exact .storeByte e
  | sty o => exact .storeByte e
  | tax => cases e; exact .writeX _ (keepsFlags_putNZ _ _)
  | tay => cases e; exact .writeY _ (keepsFlags_putNZ _ _)
  | txa => cases e; exact .writeA _ (keepsFlags_putNZ _ _)
  | tya => cases e; exact .writeA _ (keepsFlags_putNZ _ _)
  | tsx => cases e; exact .writeX _ (keepsFlags_putNZ _ _)
  | txs => cases e; exact .writeSp _ (keepsFlags_refl _ _)
  | adc o => cases e; exact .from_cpu (readOperand_cpu o s) (.writeA _ (keepsFlags_putSum _ _))
  | sbc o => cases e; exact .from_cpu (readOperand_cpu o s) (.writeA _ (keepsFlags_putSum _ _))
  | and o => cases e; exact .from_cpu (readOperand_cpu o s) (.writeA _ (keepsFlags_putNZ _ _))
  | ora o => cases e; exact .from_cpu (readOperand_cpu o s) (.writeA _ (keepsFlags_putNZ _ _))
  | eor o => cases e; exact .from_cpu (readOperand_cpu o s) (.writeA _ (keepsFlags_putNZ _ _))
  | cmp o => cases e; exact .from_cpu (readOperand_cpu o s) (.writeP (keepsFlags_putCompare _ _ _))
  | cpx o => cases e; exact .from_cpu (readOperand_cpu o s) (.writeP (keepsFlags_putCompare _ _ _))
  | cpy o => cases e; exact .from_cpu (readOperand_cpu o s) (.writeP (keepsFlags_putCompare _ _ _))
  | bit o => cases e; exact .from_cpu (readOperand_cpu o s) (.writeP (keepsFlags_putBit _ _ _))
  | asl o => exact .shift e
  | lsr o => exact .shift e
  | rol o => exact .shift e
  | ror o => exact .shift e
  | inc o => exact .modify (f := fun m p => (m + 1, putNZ (m + 1) p)) (fun _ => keepsFlags_putNZ _ _) e
  | dec o => exact .modify (f := fun m p => (m - 1, putNZ (m - 1) p)) (fun _ => keepsFlags_putNZ _ _) e
  | inx => cases e; exact .writeX _ (keepsFlags_putNZ _ _)
  | iny => cases e; exact .writeY _ (keepsFlags_putNZ _ _)
  | dex => cases e; exact .writeX _ (keepsFlags_putNZ _ _)
  | dey => cases e; exact .writeY _ (keepsFlags_putNZ _ _)
  | pha => cases e; exact .push8 _ s
  | php => cases e; exact .push8 _ s
  | pla => cases e; rw [pop8_eq]; exact .writeASp _ _ (keepsFlags_putNZ _ _)
  | plp => cases e; rw [pop8_eq]; exact .writeSp _ (keepsFlags_all _ _)
  | clc => cases e; exact .setFlag .c false s
  | sec => cases e; exact .setFlag .c true s
  | cli => cases e; exact .setFlag .i false s
  | sei => cases e; exact .setFlag .i true s
  | cld => cases e; exact .setFlag .d false s
  | sed => cases e; exact .setFlag .d true s
  | clv => cases e; exact .setFlag .v false s
  | jmp o =>
    obtain ⟨a, -, rfl⟩ := execJmp_cases e
    exact .from_cpu (resolve_cpu o s) (.writePc a (keepsFlags_refl _ _))
  | jsr a => cases e; rw [setPc_cpu, push16_cpu]; exact .writeSpPc _ a (keepsFlags_refl _ _)
  | rts => cases e; rw [pop16_eq]; exact .writeSpPc _ _ (keepsFlags_refl _ _)
  | bcc d => cases e; exact .branchIf _ d s
  | bcs d => cases e; exact .branchIf _ d s
  | beq d => cases e; exact .branchIf _ d s
  | bne d => cases e; exact .branchIf _ d s
  | bmi d => cases e; exact .branchIf _ d s
  | bpl d => cases e; exact .branchIf _ d s
  | bvc d => cases e; exact .branchIf _ d s
  | bvs d => cases e; exact .branchIf _ d s
  | brk => cases e; exact .setFlag .b true s
  | rti => cases e; rw [trapReturn_eq]; exact .writeSpPc _ _ (keepsFlags_all _ _)
  | nop => cases e; exact .writeP (keepsFlags_refl _ _)
  | illegal b => cases e; exact .writePc _ (keepsFlags_refl _ _)

/-! ## The obligations over all instructions -/

/-- Settles O31: a flag that changes is in the instruction's row, and the rows agree with R23's column. -/
theorem onlyListedInstructionsWriteEachFlag : Obligations.OnlyListedInstructionsWriteEachFlag := by
  intro i s t f e hne
  by_cases hf : f ∈ writtenFlags i.mnemonic
  · exact mem_flagWriters _ f hf
  · exact absurd ((exec_cpuFrame e).flags f hf) hne

/-- A register that an instruction changes is in its row. -/
theorem mem_writtenRegisters {i : Instr} {s t : State} (e : exec i s = .next t) {r : Register}
    (h : ¬ SameRegister s.cpu t.cpu r) : r ∈ writtenRegisters i :=
  not_not.mp fun hr => h ((exec_cpuFrame e).same r hr)

/-- The instructions that exist and write A. INC and DEC have no accumulator form (R112). -/
theorem writes_a {i : Instr} (hwf : i.wf = true) (h : .a ∈ writtenRegisters i) :
    i.mnemonic ∈ [.lda, .txa, .tya, .pla, .adc, .sbc, .and, .ora, .eor] ∨
      i.mode = .acc ∧ i.mnemonic ∈ [.asl, .lsr, .rol, .ror] := by
  have hinc := mode_ne_of_wf (m := .acc) .inc hwf
  have hdec := mode_ne_of_wf (m := .acc) .dec hwf
  cases i <;> simp_all [writtenRegisters, Instr.mnemonic, Instr.mode, Instr.operand?, legalModes]

theorem writes_x {i : Instr} (h : .x ∈ writtenRegisters i) : i.mnemonic ∈ [.ldx, .tax, .tsx, .inx, .dex] := by
  cases i <;> simp_all [writtenRegisters, Instr.mnemonic]

theorem writes_y {i : Instr} (h : .y ∈ writtenRegisters i) : i.mnemonic ∈ [.ldy, .tay, .iny, .dey] := by
  cases i <;> simp_all [writtenRegisters, Instr.mnemonic]

theorem writes_sp {i : Instr} (h : .sp ∈ writtenRegisters i) :
    i.mnemonic ∈ [.txs, .pha, .php, .pla, .plp, .jsr, .rts, .rti] := by
  cases i <;> simp_all [writtenRegisters, Instr.mnemonic]

theorem writes_pc {i : Instr} (h : .pc ∈ writtenRegisters i) :
    i.mnemonic ∈ [.jmp, .jsr, .rts, .rti, .bcc, .bcs, .beq, .bne, .bmi, .bpl, .bvc, .bvs, .illegal] := by
  cases i <;> simp_all [writtenRegisters, Instr.mnemonic]

/-- Settles O32: a register that changes is in the instruction's row, and the rows agree with the statement's lists. -/
theorem onlyListedInstructionsWriteEachRegister : Obligations.OnlyListedInstructionsWriteEachRegister :=
  fun _ _ _ hwf e =>
    ⟨fun h => writes_a hwf (mem_writtenRegisters e h), fun h => writes_x (mem_writtenRegisters e h),
      fun h => writes_y (mem_writtenRegisters e h), fun h => writes_sp (mem_writtenRegisters e h)⟩

/-! ## PC over a step -/

/-- What the host does after a CPU step leaves the CPU's registers alone (R281, R282). -/
@[simp] theorem serveOamDma_cpu (s t : State) : (serveOamDma s t).cpu = t.cpu :=
  serveOamDma_kept (P := fun u => u.cpu = t.cpu) (fun v u i h => by simpa [oamDmaCopyByte] using h) rfl

/-- A CPU turn runs the instruction that the fetched bytes decode to, in the state after they have been fetched. -/
theorem cpuTurn_cases {s t : State} {i : Instr} {rest : List Byte}
    (hd : decode (fetchedBytes s) = .ok (i, rest)) (e : cpuTurn s = .next t) :
    ∃ u, exec i (afterFetch i.length s) = .next u ∧ t = serveOamDma s u := by
  obtain ⟨u, he, ht⟩ := cpuTurn_inv e
  rw [cpuStep, fetchInstr_of_decode hd] at he
  exact ⟨u, he, ht⟩

/-- Settles O26: the fetch moves PC past the instruction, and neither the instruction nor the host moves it again. -/
theorem stepAdvancesPcByTheLength : Obligations.StepAdvancesPcByTheLength := by
  intro s u t i rest hturn hd hi e
  rw [step_of_cpusTurn hturn] at e
  obtain ⟨w, he, rfl⟩ := cpuTurn_cases hd e
  obtain ⟨l, rfl⟩ := cpusTurn_state hturn
  have hpc : w.cpu.pc = (afterFetch i.length (s.withSchedule l)).cpu.pc :=
    (exec_cpuFrame he).same .pc fun h => hi (writes_pc h)
  rw [serveOamDma_cpu, hpc, afterFetch_cpu]
  rfl

end Sys2Proof.Machine

/-! SUPPORT. Who writes video and sprite memory (R39, R87), and who writes STATUS (R40, R272, R339). -/

namespace Sys2Proof.Machine

open Sys2Proof.Safety

/-! ## Video and sprite memory -/

theorem portWrite_vram_of_ne {p : Port} (h : p ≠ .vramData) (v : Byte) (u : Ppu) :
    (portWrite p v u).vram = u.vram := by
  cases p with
  | vramData => exact absurd rfl h
  | scroll => unfold portWrite; dsimp only; split <;> rfl
  | vramAddr => unfold portWrite; dsimp only; split <;> rfl
  | _ => rfl

theorem portWrite_oam_of_ne {p : Port} (h : p ≠ .oamData) (v : Byte) (u : Ppu) :
    (portWrite p v u).oam = u.oam := by
  cases p with
  | oamData => exact absurd rfl h
  | scroll => unfold portWrite; dsimp only; split <;> rfl
  | vramAddr => unfold portWrite; dsimp only; split <;> rfl
  | _ => rfl

/-- Video memory is written through port 0x2007 only (R277). -/
theorem memWrite_vram_of_ne {a : Word} (h : a ≠ 0x2007) (v : Byte) (s : State) :
    (memWrite a v s).ppu.vram = s.ppu.vram := by
  unfold memWrite
  split <;> try rfl
  next p hroute =>
    refine portWrite_vram_of_ne (fun hp => h ?_) v s.ppu
    subst hp
    exact address_of_port hroute

/-- Sprite memory is written through port 0x2004 only (R274). -/
theorem memWrite_oam_of_ne {a : Word} (h : a ≠ 0x2004) (v : Byte) (s : State) :
    (memWrite a v s).ppu.oam = s.ppu.oam := by
  unfold memWrite
  split <;> try rfl
  next p hroute =>
    refine portWrite_oam_of_ne (fun hp => h ?_) v s.ppu
    subst hp
    exact address_of_port hroute

@[simp] theorem push16_ppu (v : Word) (s : State) : (push16 v s).ppu = s.ppu := by simp [push16]

@[simp] theorem branchIf_ppu (taken : Bool) (d : Byte) (s : State) : (branchIf taken d s).ppu = s.ppu := by
  cases taken <;> rfl

/-- The instructions that store to their effective address. -/
def storers : List Mnemonic := [.sta, .stx, .sty, .asl, .lsr, .rol, .ror, .inc, .dec]

/-- The PPU of `t` is that of a state with the video and sprite memory of `s` after one write to the effective address
of `o` in `s`. -/
def StoresTo (o : Operand) (s t : State) : Prop :=
  ∃ (a : Word) (v : Byte) (u : State),
    effectiveAddress? o s = some a ∧ SameVideo s u ∧ t.ppu = (memWrite a v u).ppu

theorem storeByte_storesTo {o : Operand} {v : Byte} {s t : State} (e : storeByte o v s = .next t) :
    StoresTo o s t := by
  obtain ⟨a, ha, rfl⟩ := storeByte_cases e
  exact ⟨a, v, _, ha, ⟨resolve_vram o s, resolve_oam o s⟩, rfl⟩

theorem modify_storesTo {o : Operand} {f : Byte → Byte → Byte × Byte} {s t : State} (e : modify o f s = .next t) :
    SameVideo s t ∨ StoresTo o s t := by
  rcases modify_cases e with ⟨-, rfl⟩ | ⟨a, ha, rfl⟩
  · exact .inl ⟨rfl, rfl⟩
  · exact .inr ⟨a, _, _, ha, ⟨readOperand_vram o s, readOperand_oam o s⟩, rfl⟩

/-- What an instruction can do to video and sprite memory: nothing, or what one store to its effective address does.
Pushes write below the ports. -/
theorem exec_video {i : Instr} {s t : State} (e : exec i s = .next t) :
    SameVideo s t ∨ i.mnemonic ∈ storers ∧ ∃ o, i.operand? = some o ∧ StoresTo o s t := by
  cases i with
  | sta o => exact .inr ⟨(by decide : Mnemonic.sta ∈ storers), o, rfl, storeByte_storesTo e⟩
  | stx o => exact .inr ⟨(by decide : Mnemonic.stx ∈ storers), o, rfl, storeByte_storesTo e⟩
  | sty o => exact .inr ⟨(by decide : Mnemonic.sty ∈ storers), o, rfl, storeByte_storesTo e⟩
  | asl o => exact (modify_storesTo e).imp_right fun h => ⟨(by decide : Mnemonic.asl ∈ storers), o, rfl, h⟩
  | lsr o => exact (modify_storesTo e).imp_right fun h => ⟨(by decide : Mnemonic.lsr ∈ storers), o, rfl, h⟩
  | rol o => exact (modify_storesTo e).imp_right fun h => ⟨(by decide : Mnemonic.rol ∈ storers), o, rfl, h⟩
  | ror o => exact (modify_storesTo e).imp_right fun h => ⟨(by decide : Mnemonic.ror ∈ storers), o, rfl, h⟩
  | inc o =>
    exact (modify_storesTo (f := fun m p => (m + 1, putNZ (m + 1) p)) e).imp_right fun h =>
      ⟨(by decide : Mnemonic.inc ∈ storers), o, rfl, h⟩
  | dec o =>
    exact (modify_storesTo (f := fun m p => (m - 1, putNZ (m - 1) p)) e).imp_right fun h =>
      ⟨(by decide : Mnemonic.dec ∈ storers), o, rfl, h⟩
  | jmp o =>
    obtain ⟨a, -, rfl⟩ := execJmp_cases e
    exact .inl ⟨resolve_vram o s, resolve_oam o s⟩
  | rti => cases e; rw [trapReturn_eq]; exact .inl ⟨rfl, rfl⟩
  | illegal b => cases e; exact .inl ⟨rfl, rfl⟩
  | _ =>
    cases e
    left
    constructor <;> simp [pop8_eq, pop16_eq]

/-- Settles O33: a store to any other address than the port's leaves the memory as it was. -/
theorem videoMemoryChangesOnlyThroughItsPorts : Obligations.VideoMemoryChangesOnlyThroughItsPorts := by
  intro i s t e
  rcases exec_video e with ⟨hvram, hoam⟩ | ⟨hi, o, ho, a, v, u, ha, ⟨hvram, hoam⟩, ht⟩
  · exact ⟨fun h => absurd hvram h, fun h => absurd hoam h⟩
  · rw [ht, ← hvram, ← hoam]
    constructor
    · intro h
      obtain rfl : a = 0x2007 := by_contra fun hne => h (memWrite_vram_of_ne hne v u)
      exact ⟨o, ho, ha, hi⟩
    · intro h
      obtain rfl : a = 0x2004 := by_contra fun hne => h (memWrite_oam_of_ne hne v u)
      exact ⟨o, ho, ha, hi⟩

/-! ## STATUS -/

/-- From `p` to `q`, bits 6 to 0 are as they were and bit 7 is not raised. -/
def StatusFalls (p q : Byte) : Prop :=
  (∀ k, k < 7 → q.getLsbD k = p.getLsbD k) ∧ (q.getLsbD 7 = true → p.getLsbD 7 = true)

theorem StatusFalls.refl (p : Byte) : StatusFalls p p := ⟨fun _ _ => rfl, id⟩

/-- A read of the port clears bit 7 (R272). -/
theorem StatusFalls.clear {p q : Byte} (h : StatusFalls p q) : StatusFalls p (q &&& 0x7F) := by
  have hmask : ∀ k, k < 7 → (0x7F : Byte).getLsbD k = true := by decide
  refine ⟨fun k hk => ?_, fun h7 => ?_⟩
  · rw [BitVec.getLsbD_and, hmask k hk, Bool.and_true, h.1 k hk]
  · simp at h7

/-- `PpuStep` raises bit 7 and keeps the others (R262). -/
theorem status_raise_low (q : Byte) {k : Nat} (hk : k < 7) : (q ||| 0x80).getLsbD k = q.getLsbD k := by
  have hmask : ∀ k, k < 7 → (0x80 : Byte).getLsbD k = false := by decide
  rw [BitVec.getLsbD_or, hmask k hk, Bool.or_false]

theorem portRead_status (p : Port) (u : Ppu) :
    (portRead p u).2.status = if p = .status then u.status &&& 0x7F else u.status := by
  cases p <;> rfl

theorem memRead_statusFalls (a : Word) {p : Byte} {s : State} (h : StatusFalls p s.ppu.status) :
    StatusFalls p (memRead a s).2.ppu.status := by
  unfold memRead
  split <;> try exact h
  rw [setPpu_ppu, portRead_status]
  split
  · exact h.clear
  · exact h

/-- No port write reaches STATUS (R278). -/
@[simp] theorem portWrite_status (p : Port) (v : Byte) (u : Ppu) : (portWrite p v u).status = u.status := by
  cases p with
  | scroll => unfold portWrite; dsimp only; split <;> rfl
  | vramAddr => unfold portWrite; dsimp only; split <;> rfl
  | _ => rfl

@[simp] theorem memWrite_status (a : Word) (v : Byte) (s : State) :
    (memWrite a v s).ppu.status = s.ppu.status := by
  unfold memWrite
  split <;> simp

theorem kept_statusFalls (p : Byte) : Kept (fun s => StatusFalls p s.ppu.status) where
  cpu _ _ h := h
  read a _ h := memRead_statusFalls a h
  write a v s h := by rwa [memWrite_status]

/-- What register changes, bus accesses, recording a fault and one copied byte keep is kept by a CPU turn. -/
theorem Kept.cpuTurn {P : State → Prop} (h : Kept P) (hfault : ∀ s f, P s → P { s with fault := f })
    (hcopy : ∀ v s i, P s → P (oamDmaCopyByte v s i)) {s t : State} (hs : P s) (e : cpuTurn s = .next t) : P t := by
  obtain ⟨u, he, rfl⟩ := cpuTurn_inv e
  refine serveOamDma_kept hcopy ?_
  have hfetch := h.fetchInstr hs
  unfold cpuStep at he
  generalize (Machine.fetchInstr s).1 = i at he
  by_cases hi : i.mnemonic = .illegal
  · cases i <;> cases hi
    cases he
    exact hfault _ _ (h.setPc _ hfetch)
  · exact h.exec hi hfetch he

theorem cpuTurn_statusFalls {s t : State} (e : cpuTurn s = .next t) : StatusFalls s.ppu.status t.ppu.status :=
  (kept_statusFalls s.ppu.status).cpuTurn (fun _ _ h => h) (fun _ _ _ h => memRead_statusFalls _ h) (.refl _) e

theorem hostPresent_status (s : State) : (hostPresent s).ppu.status = s.ppu.status := by
  unfold hostPresent
  split <;> rfl

/-- No turn but `PpuStep` raises bit 7. -/
theorem runTurn_statusFalls {turn : Turn} (hturn : turn ≠ .ppuStep) {s t : State} (e : runTurn turn s = .next t) :
    StatusFalls s.ppu.status t.ppu.status := by
  cases turn with
  | cpu => exact cpuTurn_statusFalls e
  | ppuStep => exact absurd rfl hturn
  | renderFrame => cases e; exact .refl _
  | present => cases e; rw [hostPresent_status]; exact .refl _
  | reset => cases e; rw [applyReset_ppu]; exact .refl _

/-- A step that has a next state is a CPU turn at an empty schedule or the operation at the schedule's head. -/
theorem step_cases {s t : State} (e : step s = .next t) :
    s.host.schedule = [] ∧ cpuTurn s = .next t ∨
      ∃ turn rest, s.host.schedule = turn :: rest ∧ runTurn turn (s.withSchedule rest) = .next t := by
  cases hf : s.fault with
  | some f => simp [step, hf] at e
  | none =>
    cases hs : s.host.schedule with
    | nil => exact .inl ⟨rfl, step_of_no_turn hf hs ▸ e⟩
    | cons turn rest => exact .inr ⟨turn, rest, rfl, step_of_turn hf hs ▸ e⟩

/-- Settles O35: by whose turn the step is. -/
theorem statusLowBitsNeverChange : Obligations.StatusLowBitsNeverChange := by
  intro s t e
  rcases step_cases e with ⟨-, e⟩ | ⟨turn, rest, hs, e⟩
  · obtain ⟨hlow, hhigh⟩ := cpuTurn_statusFalls e
    exact ⟨hlow, fun h => .inl (hhigh h)⟩
  · by_cases hturn : turn = .ppuStep
    · subst hturn
      cases e
      exact ⟨fun k hk => status_raise_low _ hk, fun _ => .inr ⟨rest, hs⟩⟩
    · obtain ⟨hlow, hhigh⟩ := runTurn_statusFalls hturn e
      exact ⟨hlow, fun h => .inl (hhigh h)⟩

end Sys2Proof.Machine

/-! SUPPORT. The CPU's step and what it cannot read (R40, R44, R47, R48, R271): replacing the outputs commutes with
every operation of the CPU, port writes included, which may change the replacement but nothing else. -/

namespace Sys2Proof.Machine

open Sys2Proof.Safety

/-! ## The outputs and their replacement -/

/-- What no CPU instruction can read: the write-only CTRL, MASK and scroll values, `draw_now`, `oamdma_req` and the
host's side. -/
structure Outputs where
  ctrl : Byte
  mask : Byte
  scrollX : Byte
  scrollY : Byte
  drawNow : Bool
  oamdmaReq : List Byte
  host : HostSide

/-- The outputs of a state. -/
def State.outputs (s : State) : Outputs :=
  { ctrl := s.ppu.ctrl, mask := s.ppu.mask, scrollX := s.ppu.scrollX, scrollY := s.ppu.scrollY,
    drawNow := s.ppu.drawNow, oamdmaReq := s.ppu.oamdmaReq, host := s.host }

/-- The state with other outputs. -/
def State.withOutputs (x : Outputs) (s : State) : State :=
  { s with
    ppu := { s.ppu with ctrl := x.ctrl, mask := x.mask, scrollX := x.scrollX, scrollY := x.scrollY,
                        drawNow := x.drawNow, oamdmaReq := x.oamdmaReq }
    host := x.host }

theorem sameToTheCpu_withOutputs (x : Outputs) (s : State) : SameToTheCpu s (s.withOutputs x) :=
  ⟨rfl, rfl, rfl, rfl, rfl, rfl, rfl, rfl, rfl⟩

/-- States that are the same to the CPU differ in the outputs alone. -/
theorem eq_withOutputs_of_sameToTheCpu {s t : State} (h : SameToTheCpu s t) : t = s.withOutputs t.outputs := by
  obtain ⟨hcpu, hbus, hfault, hstatus, hvram, hoam, hoamAddr, hvramAddr, hw⟩ := h
  refine State.ext_parts hcpu.symm hbus.symm ?_ rfl hfault.symm
  simp only [State.withOutputs, State.outputs, hstatus, hvram, hoam, hoamAddr, hvramAddr, hw]

/-! ## Register changes and bus accesses -/

section Operations
variable (x : Outputs) (s : State)

@[simp] theorem withOutputs_cpu : (s.withOutputs x).cpu = s.cpu := rfl
@[simp] theorem withOutputs_bus : (s.withOutputs x).bus = s.bus := rfl
@[simp] theorem setA_withOutputs (v : Byte) : (s.withOutputs x).setA v = (s.setA v).withOutputs x := rfl
@[simp] theorem setX_withOutputs (v : Byte) : (s.withOutputs x).setX v = (s.setX v).withOutputs x := rfl
@[simp] theorem setY_withOutputs (v : Byte) : (s.withOutputs x).setY v = (s.setY v).withOutputs x := rfl
@[simp] theorem setSp_withOutputs (v : Byte) : (s.withOutputs x).setSp v = (s.setSp v).withOutputs x := rfl
@[simp] theorem setP_withOutputs (v : Byte) : (s.withOutputs x).setP v = (s.setP v).withOutputs x := rfl
@[simp] theorem setPc_withOutputs (v : Word) : (s.withOutputs x).setPc v = (s.setPc v).withOutputs x := rfl
@[simp] theorem setNZ_withOutputs (v : Byte) : (s.withOutputs x).setNZ v = (s.setNZ v).withOutputs x := rfl
@[simp] theorem setFlag_withOutputs (f : Flag) (v : Bool) :
    (s.withOutputs x).setFlag f v = (s.setFlag f v).withOutputs x := rfl
@[simp] theorem flag_withOutputs (f : Flag) : (s.withOutputs x).flag f = s.flag f := rfl

/-- A read neither depends on the outputs nor changes them. -/
@[simp] theorem memRead_withOutputs (a : Word) :
    memRead a (s.withOutputs x) = ((memRead a s).1, (memRead a s).2.withOutputs x) := by
  unfold memRead
  rw [withOutputs_bus]
  cases route s.bus.prgBanks a with
  | port p => cases p <;> rfl
  | _ => rfl

@[simp] theorem peek_withOutputs (a : Word) : peek a (s.withOutputs x) = peek a s := by
  simp only [peek, memRead_withOutputs]

/-- A port write may change an output, and what else it does does not depend on one. -/
theorem portWrite_withOutputs (p : Port) (v : Byte) :
    ∃ y : Outputs, (s.withOutputs x).setPpu (portWrite p v (s.withOutputs x).ppu) =
      (s.setPpu (portWrite p v s.ppu)).withOutputs y := by
  cases p with
  | ctrl => exact ⟨{ x with ctrl := v }, rfl⟩
  | mask => exact ⟨{ x with mask := v }, rfl⟩
  | scroll =>
    cases hw : s.ppu.w with
    | false => exact ⟨{ x with scrollX := v }, by simp [portWrite, State.withOutputs, State.setPpu, hw]⟩
    | true => exact ⟨{ x with scrollY := v }, by simp [portWrite, State.withOutputs, State.setPpu, hw]⟩
  | vramAddr =>
    cases hw : s.ppu.w <;> exact ⟨x, by simp [portWrite, State.withOutputs, State.setPpu, hw]⟩
  | oamDma => exact ⟨{ x with oamdmaReq := x.oamdmaReq ++ [v] }, rfl⟩
  | _ => exact ⟨x, rfl⟩

/-- A write may change an output, and what else it does does not depend on one. -/
theorem memWrite_withOutputs (a : Word) (v : Byte) :
    ∃ y, memWrite a v (s.withOutputs x) = (memWrite a v s).withOutputs y := by
  unfold memWrite
  rw [withOutputs_bus]
  cases route s.bus.prgBanks a with
  | port p => exact portWrite_withOutputs x s p v
  | _ => exact ⟨x, rfl⟩

/-- A write that is to no port leaves the outputs alone. -/
theorem memWrite_withOutputs_of_not_port {a : Word} (h : isPort a = false) (v : Byte) :
    memWrite a v (s.withOutputs x) = (memWrite a v s).withOutputs x := by
  unfold memWrite
  rw [withOutputs_bus]
  cases hroute : route s.bus.prgBanks a with
  | port p => simp [isPort_of_route hroute] at h
  | _ => rfl

/-! ## The shared operations -/

@[simp] theorem memReadWord_withOutputs (a : Word) :
    memReadWord a (s.withOutputs x) = ((memReadWord a s).1, (memReadWord a s).2.withOutputs x) := by
  simp [memReadWord]

@[simp] theorem fetch8_withOutputs :
    fetch8 (s.withOutputs x) = ((fetch8 s).1, (fetch8 s).2.withOutputs x) := by
  simp [fetch8]

@[simp] theorem fetchInstr_withOutputs :
    fetchInstr (s.withOutputs x) = ((fetchInstr s).1, (fetchInstr s).2.withOutputs x) := by
  simp only [fetchInstr, fetch8_withOutputs]
  split <;> rfl

@[simp] theorem push8_withOutputs (v : Byte) : push8 v (s.withOutputs x) = (push8 v s).withOutputs x := by
  simp [push8, memWrite_withOutputs_of_not_port x s (stackSlot_not_port _)]

@[simp] theorem push16_withOutputs (v : Word) : push16 v (s.withOutputs x) = (push16 v s).withOutputs x := by
  simp [push16]

@[simp] theorem pop8_withOutputs : pop8 (s.withOutputs x) = ((pop8 s).1, (pop8 s).2.withOutputs x) := by
  simp [pop8]

@[simp] theorem pop16_withOutputs : pop16 (s.withOutputs x) = ((pop16 s).1, (pop16 s).2.withOutputs x) := by
  simp [pop16]

@[simp] theorem resolve_withOutputs (o : Operand) :
    resolve o (s.withOutputs x) = ((resolve o s).1, (resolve o s).2.withOutputs x) := by
  cases o <;> simp [resolve, zeroPagePointer]

@[simp] theorem effectiveAddress?_withOutputs (o : Operand) :
    effectiveAddress? o (s.withOutputs x) = effectiveAddress? o s := by
  simp only [effectiveAddress?, resolve_withOutputs]

@[simp] theorem readOperand_withOutputs (o : Operand) :
    readOperand o (s.withOutputs x) = ((readOperand o s).1, (readOperand o s).2.withOutputs x) := by
  simp only [readOperand, resolve_withOutputs]
  cases (resolve o s).1 <;> simp [load]

@[simp] theorem branchIf_withOutputs (taken : Bool) (d : Byte) :
    branchIf taken d (s.withOutputs x) = (branchIf taken d s).withOutputs x := by
  cases taken <;> rfl

@[simp] theorem trapReturn_withOutputs : trapReturn (s.withOutputs x) = (trapReturn s).withOutputs x := by
  simp [trapReturn]

@[simp] theorem raiseUnimplemented_withOutputs (b : Byte) :
    raiseUnimplemented b (s.withOutputs x) = (raiseUnimplemented b s).withOutputs x := rfl

end Operations

/-! ## Instructions and the step -/

/-- The meaning `m` gives a next state under any outputs where it gives one, and the same one but for the outputs. -/
def IgnoresOutputs (m : State → Result) : Prop :=
  ∀ (x : Outputs) (s t : State), m s = .next t → ∃ y, m (s.withOutputs x) = .next (t.withOutputs y)

theorem storeByte_ignoresOutputs (o : Operand) (r : Cpu → Byte) :
    IgnoresOutputs fun s => storeByte o (r s.cpu) s := by
  intro x s t e
  obtain ⟨a, ha, rfl⟩ := storeByte_cases e
  obtain ⟨y, hy⟩ := memWrite_withOutputs x (resolve o s).2 a (r s.cpu)
  refine ⟨y, ?_⟩
  dsimp only
  rw [storeByte_of_address (by rwa [effectiveAddress?_withOutputs]), resolve_withOutputs, withOutputs_cpu, hy]

theorem modify_ignoresOutputs (o : Operand) (f : Byte → Byte → Byte × Byte) : IgnoresOutputs (modify o f) := by
  intro x s t e
  rcases modify_cases e with ⟨rfl, rfl⟩ | ⟨a, ha, rfl⟩
  · exact ⟨x, rfl⟩
  · obtain ⟨y, hy⟩ := memWrite_withOutputs x (readOperand o s).2 a (f (readOperand o s).1 s.cpu.p).1
    refine ⟨y, ?_⟩
    rw [modify_of_address (by rwa [effectiveAddress?_withOutputs]), readOperand_withOutputs, withOutputs_cpu, hy]
    rfl

theorem execJmp_ignoresOutputs (o : Operand) : IgnoresOutputs (execJmp o) := by
  intro x s t e
  obtain ⟨a, ha, rfl⟩ := execJmp_cases e
  exact ⟨x, by rw [execJmp_of_address (by rwa [effectiveAddress?_withOutputs]), resolve_withOutputs]; rfl⟩

/-- The other meanings are register changes, reads and pushes: the outputs stay as they were replaced. -/
theorem exec_ignoresOutputs (i : Instr) : IgnoresOutputs (exec i) := by
  cases i with
  | sta o => exact storeByte_ignoresOutputs o Cpu.a
  | stx o => exact storeByte_ignoresOutputs o Cpu.x
  | sty o => exact storeByte_ignoresOutputs o Cpu.y
  | asl o => exact modify_ignoresOutputs o _
  | lsr o => exact modify_ignoresOutputs o _
  | rol o => exact modify_ignoresOutputs o _
  | ror o => exact modify_ignoresOutputs o _
  | inc o => exact modify_ignoresOutputs o fun m p => (m + 1, putNZ (m + 1) p)
  | dec o => exact modify_ignoresOutputs o fun m p => (m - 1, putNZ (m - 1) p)
  | jmp o => exact execJmp_ignoresOutputs o
  | _ =>
    intro x s t e
    cases e
    refine ⟨x, congrArg Host.Outcome.next ?_⟩
    simp

/-- Settles O36: the other state is the first with other outputs, under which fetch and instruction do the same. -/
theorem outputsDoNotSteerTheCpu : Obligations.OutputsDoNotSteerTheCpu := by
  intro s s' t h e
  obtain ⟨y, hy⟩ := exec_ignoresOutputs (fetchInstr s).1 s'.outputs (fetchInstr s).2 t e
  refine ⟨t.withOutputs y, ?_, sameToTheCpu_withOutputs y t⟩
  rw [eq_withOutputs_of_sameToTheCpu h, cpuStep, fetchInstr_withOutputs]
  exact hy

end Sys2Proof.Machine

/-! SUPPORT. The address classes as the bus reads and writes them (R63 to R71), and the CPU's step at an unused address
(R85, R336). -/

namespace Sys2Proof.Machine

open Sys2Proof.Safety

/-! ## Away from the ports -/

theorem isPort_of_isRam {a : Word} (h : isRam a = true) : isPort a = false := by
  simp only [isRam, isPort, decide_eq_true_eq, decide_eq_false_iff_not] at h ⊢
  omega

theorem isPort_of_isRom {a : Word} (h : isRom a = true) : isPort a = false := by
  simp only [isRom, isPort, decide_eq_true_eq, decide_eq_false_iff_not] at h ⊢
  omega

/-! ## Unused addresses and ROM -/

theorem memRead_unused {a : Word} (h : isUnused a = true) (s : State) : memRead a s = (0, s) := by
  simp only [memRead, route_unused h]

/-- Settles O47: nothing is behind an unused address, a ROM address is no port, and a write to either is discarded. -/
theorem unusedAndRomDiscardWrites : Obligations.UnusedAndRomDiscardWrites := by
  intro a v s
  constructor
  · intro h
    exact ⟨memRead_unused h s, memWrite_discarded (.inr h) v s⟩
  · intro h
    exact ⟨memRead_of_not_port (isPort_of_isRom h) s, memWrite_discarded (.inl h) v s⟩

/-- With one bank the two windows are the same 16384 bytes (R70). -/
theorem prgIndex_one {a : Word} (h : isRom a = true) : prgIndex .one a.toNat = (a.toNat - 0x8000) % 16384 := by
  have hlt := a.isLt
  simp only [isRom, decide_eq_true_eq] at h
  rw [show prgIndex .one a.toNat = if a.toNat < 0xC000 then a.toNat - 0x8000 else a.toNat - 0xC000 from rfl]
  split <;> omega

/-- Settles O49: by the index the bus reads program ROM at. -/
theorem programRomIsMirrored : Obligations.ProgramRomIsMirrored := by
  intro a s h
  rw [peek_rom s h]
  constructor
  · intro hbanks
    rw [hbanks, prgIndex_one h]
  · intro hbanks
    rw [hbanks]
    rfl

/-! ## RAM -/

/-- What a port reads depends on the PPU alone. -/
theorem peek_port_congr {a : Word} (h : isPort a = true) {s t : State} (hbanks : s.bus.prgBanks = t.bus.prgBanks)
    (hppu : s.ppu = t.ppu) : peek a s = peek a t := by
  obtain ⟨p, hroute⟩ := route_port (k := t.bus.prgBanks) h
  simp only [peek, memRead, hbanks, hroute, hppu]

/-- A write to RAM leaves the byte at every other address as it was, the ports too. -/
theorem peek_memWrite_ram_other {a b : Word} (ha : isRam a = true) (hab : b ≠ a) (v : Byte) (s : State) :
    peek b (memWrite a v s) = peek b s := by
  cases hb : isPort b with
  | false => exact peek_memWrite_other hab hb v s
  | true =>
    exact peek_port_congr hb (memWrite_prgBanks a v s) (memWrite_ppu_of_not_port (isPort_of_isRam ha) v s)

/-- Settles O48: a RAM address is no port, so reads and writes of it leave the PPU alone, and no other address is routed
to its byte. -/
theorem ramHoldsWhatIsWritten : Obligations.RamHoldsWhatIsWritten := by
  intro a v s h
  have hport := isPort_of_isRam h
  exact ⟨peek_memWrite_same h v s, memRead_of_not_port hport s, memWrite_ppu_of_not_port hport v s,
    memWrite_cpu a v s, fun b hab => peek_memWrite_ram_other h hab v s⟩

/-! ## The step at an unused address -/

/-- The byte 0x00 is BRK's opcode, and BRK is one byte long (R104, R112). -/
theorem fetchInstr_zero {s : State} (h : (fetch8 s).1 = 0) : fetchInstr s = (.brk, (fetch8 s).2) := by
  obtain ⟨b1, b2, hfetch⟩ := fetchInstr_eq s
  rw [hfetch, h]
  rfl

theorem fetch8_unused {s : State} (h : isUnused s.cpu.pc = true) : fetch8 s = (0, s.setPc (s.cpu.pc + 1)) := by
  simp only [fetch8, memRead_unused h]

/-- A step that makes no request leaves the host nothing to copy (R282). -/
theorem serveOamDma_of_no_request {s t : State} (h : t.ppu.oamdmaReq = s.ppu.oamdmaReq) : serveOamDma s t = t := by
  unfold serveOamDma
  split
  · rfl
  · rw [h, List.drop_length]
    rfl

theorem cpuTurn_of_no_request {s t : State} (hstep : cpuStep s = .next t)
    (hreq : t.ppu.oamdmaReq = s.ppu.oamdmaReq) : cpuTurn s = .next t := by
  rw [cpuTurn_of_cpuStep hstep, serveOamDma_of_no_request hreq]

theorem cpuTurn_unused {s : State} (h : isUnused s.cpu.pc = true) :
    cpuTurn s = .next ((s.setPc (s.cpu.pc + 1)).setFlag .b true) := by
  have hfetch := fetch8_unused h
  refine cpuTurn_of_no_request ?_ rfl
  rw [cpuStep, fetchInstr_zero (congrArg Prod.fst hfetch), hfetch]
  rfl

/-- Settles O30: the byte fetched is 0x00, so the turn is BRK's, with PC moved past its one byte. -/
theorem unusedAddressesRunAsBrk : Obligations.UnusedAddressesRunAsBrk := by
  intro s u hturn h
  obtain ⟨l, rfl⟩ := cpusTurn_state hturn
  exact ⟨_, (step_of_cpusTurn hturn).trans (cpuTurn_unused h), rfl, getFlag_putFlag_same _ _ _,
    keepsFlags_putFlag _ _ _, onlyCpu_of rfl rfl rfl rfl⟩

end Sys2Proof.Machine

/-! SUPPORT. The encoder against the decoder (R103, R104, R112, R120, R122): an instruction is its opcode byte and its
operand bytes, read back and written out. -/

namespace Sys2Proof

open Sys2Proof.Machine (loByte_wordOf hiByte_wordOf wordOf_bytes)
open Sys2Proof.Laws.EncodedLength (mode_mem opcodeOf_isSome operand_length)

/-! ## Operands and their bytes -/

/-- An operand is what its mode makes of its bytes (R103). -/
theorem operandOf_bytes (o : Operand) : operandOf o.mode (o.bytes.getD 0 0) (o.bytes.getD 1 0) = o := by
  cases o with
  | abs a => exact congrArg Operand.abs (wordOf_bytes a)
  | abx a => exact congrArg Operand.abx (wordOf_bytes a)
  | aby a => exact congrArg Operand.aby (wordOf_bytes a)
  | ind a => exact congrArg Operand.ind (wordOf_bytes a)
  | _ => rfl

/-- The bytes of an operand are those its mode read (R103). -/
theorem bytes_operandOf {m : Mode} (h : m ≠ .rel) (b1 b2 : Byte) :
    (operandOf m b1 b2).bytes = [b1, b2].take (m.length - 1) := by
  cases m with
  | rel => exact absurd rfl h
  | abs | abx | aby | ind => simp [operandOf, Operand.bytes, Mode.length]
  | _ => rfl

theorem operandBytes_length (i : Instr) : i.operandBytes.length + 1 = i.length := by
  cases i with
  | lda o | ldx o | ldy o | sta o | stx o | sty o | adc o | sbc o | and o | ora o | eor o | cmp o | cpx o | cpy o
  | bit o | asl o | lsr o | rol o | ror o | inc o | dec o | jmp o => exact operand_length o
  | _ => rfl

/-! ## The two opcode tables -/

/-- The encoder's table (R112) agrees with the decoder's grid (R120). -/
theorem descriptor_of_mem_opcodes :
    ∀ c : Mnemonic, ∀ row ∈ opcodes c, (descriptor row.2).cls = c ∧ (descriptor row.2).mode = row.1 := by
  intro c
  cases c <;> decide

theorem descriptor_of_opcodeOf {c : Mnemonic} {m : Mode} {b : Byte} (h : opcodeOf c m = some b) :
    (descriptor b).cls = c ∧ (descriptor b).mode = m := by
  obtain ⟨l₁, l₂, hrows, -⟩ := List.lookup_eq_some_iff.mp h
  exact descriptor_of_mem_opcodes c (m, b) (by simp [hrows])

theorem opcode?_eq_opcodeOf {i : Instr} (h : i.mnemonic ≠ .illegal) : i.opcode? = opcodeOf i.mnemonic i.mode := by
  cases i with
  | illegal b => exact absurd rfl h
  | _ => rfl

theorem eq_illegal_of_mnemonic {i : Instr} (h : i.mnemonic = .illegal) : ∃ b, i = .illegal b := by
  cases i with
  | illegal b => exact ⟨b, rfl⟩
  | _ => cases h

theorem mem_illegalOpcodes_of_wf {b : Byte} (h : (Instr.illegal b).wf = true) : b ∈ illegalOpcodes := by
  simpa [Instr.wf, Instr.opcodeLegal] using (Bool.and_eq_true_iff.mp h).2

/-- An illegal byte's entry has the one mode of its class. -/
theorem descriptor_mode_of_illegal {b : Byte} (h : (descriptor b).cls = .illegal) : (descriptor b).mode = .imp :=
  List.mem_singleton.mp (show (descriptor b).mode ∈ legalModes .illegal from h ▸ descriptor_mode_legal b)

/-- An instruction that exists has an opcode byte, whose grid entry is its own mnemonic and mode. -/
theorem exists_opcode_of_wf {i : Instr} (h : i.wf = true) :
    ∃ b, i.opcode? = some b ∧ (descriptor b).cls = i.mnemonic ∧ (descriptor b).mode = i.mode := by
  by_cases hi : i.mnemonic = .illegal
  · obtain ⟨b, rfl⟩ := eq_illegal_of_mnemonic hi
    have hcls := (descriptor_illegal_iff b).2 (mem_illegalOpcodes_of_wf h)
    exact ⟨b, rfl, hcls, descriptor_mode_of_illegal hcls⟩
  · obtain ⟨b, hb⟩ := Option.isSome_iff_exists.mp (opcodeOf_isSome i.mnemonic i.mode (mode_mem h) hi)
    exact ⟨b, (opcode?_eq_opcodeOf hi).trans hb, descriptor_of_opcodeOf hb⟩

/-! ## An instruction from its bytes -/

/-- The instruction of an opcode byte and the operand bytes after it (R100, R103). -/
def instrOf (b : Byte) (bytes : List Byte) : Instr :=
  assemble (descriptor b) b (bytes.getD 0 0) (bytes.getD 1 0)

/-- No mode has more than two operand bytes (R104). -/
theorem operandBytes_cases {b : Byte} {bytes : List Byte} (h : bytes.length + 1 = (descriptor b).length) :
    bytes = [] ∨ (∃ b1, bytes = [b1]) ∨ ∃ b1 b2, bytes = [b1, b2] := by
  rcases bytes with _ | ⟨b1, _ | ⟨b2, _ | ⟨b3, more⟩⟩⟩
  · exact .inl rfl
  · exact .inr (.inl ⟨b1, rfl⟩)
  · exact .inr (.inr ⟨b1, b2, rfl⟩)
  · have hl := Machine.Mode.length_cases (descriptor b).mode
    simp only [Descriptor.length, List.length_cons] at h
    omega

/-- Decoding reads as many operand bytes as the opcode's mode has. -/
theorem decode_append {b : Byte} {bytes : List Byte} (h : bytes.length + 1 = (descriptor b).length)
    (rest : List Byte) : decode (b :: (bytes ++ rest)) = .ok (instrOf b bytes, rest) := by
  rcases operandBytes_cases h with rfl | ⟨b1, rfl⟩ | ⟨b1, b2, rfl⟩ <;>
    · simp only [decode, ← h]
      rfl

/-- What decodes is an opcode byte and its operand bytes. -/
theorem decode_eq_ok_iff {bs rest : List Byte} {i : Instr} :
    decode bs = .ok (i, rest) ↔
      ∃ b bytes, bytes.length + 1 = (descriptor b).length ∧ bs = b :: (bytes ++ rest) ∧ i = instrOf b bytes := by
  constructor
  · intro h
    rcases bs with _ | ⟨b, tail⟩
    · cases h
    · rcases decode_cons b tail with ⟨hl, e⟩ | ⟨hl, ⟨-, e⟩ | ⟨b1, r, rfl, e⟩⟩ | ⟨hl, ⟨-, e⟩ | ⟨b1, b2, r, rfl, e⟩⟩ <;>
        rw [e] at h <;> cases h
      · exact ⟨b, [], hl.symm, rfl, rfl⟩
      · exact ⟨b, [b1], hl.symm, rfl, rfl⟩
      · exact ⟨b, [b1, b2], hl.symm, rfl, rfl⟩
  · rintro ⟨b, bytes, hl, rfl, rfl⟩
    exact decode_append hl rest

/-- An entry with the mnemonic and the mode of an instruction assembles its operand bytes to it. -/
theorem assemble_operandBytes {i : Instr} {b : Byte} (h : i.opcode? = some b) (cycles : Option Nat) :
    assemble ⟨i.mnemonic, i.mode, cycles⟩ b (i.operandBytes.getD 0 0) (i.operandBytes.getD 1 0) = i := by
  cases i with
  | lda o | ldx o | ldy o | sta o | stx o | sty o | adc o | sbc o | and o | ora o | eor o | cmp o | cpx o | cpy o
  | bit o | asl o | lsr o | rol o | ror o | inc o | dec o | jmp o => exact congrArg _ (operandOf_bytes o)
  | jsr a => exact congrArg Instr.jsr (wordOf_bytes a)
  | illegal opcode => exact congrArg Instr.illegal (Option.some.inj h.symm)
  | _ => rfl

theorem instrOf_operandBytes {i : Instr} {b : Byte} (h : i.opcode? = some b) (hcls : (descriptor b).cls = i.mnemonic)
    (hmode : (descriptor b).mode = i.mode) : instrOf b i.operandBytes = i := by
  have hd : descriptor b = ⟨i.mnemonic, i.mode, (descriptor b).cycles⟩ := by rw [← hcls, ← hmode]
  rw [instrOf, hd]
  exact assemble_operandBytes h _

/-- Settles O42: the opcode byte's grid entry names the mnemonic and the mode back, and the mode's length of operand
bytes is the instruction's own. -/
theorem decodeOfEncode : Obligations.DecodeOfEncode := by
  intro i rest hwf
  obtain ⟨b, hb, hcls, hmode⟩ := exists_opcode_of_wf hwf
  have hlength : i.operandBytes.length + 1 = (descriptor b).length := by
    rw [operandBytes_length, Descriptor.length, hmode, Instr.length]
  calc decode (encode i ++ rest)
      = decode (b :: (i.operandBytes ++ rest)) := by simp only [encode, hb, List.cons_append]
    _ = .ok (instrOf b i.operandBytes, rest) := decode_append hlength rest
    _ = .ok (i, rest) := by rw [instrOf_operandBytes hb hcls hmode]

/-! ## The bytes of an assembled instruction -/

theorem assemble_illegal {d : Descriptor} (h : d.cls = .illegal) (b b1 b2 : Byte) :
    assemble d b b1 b2 = .illegal b := by
  unfold assemble
  rw [h]

/-- The opcode byte of an instruction assembled from a byte's own grid entry is that byte. -/
theorem opcode?_assemble (b b1 b2 : Byte) : (assemble (descriptor b) b b1 b2).opcode? = some b := by
  by_cases h : (descriptor b).cls = .illegal
  · rw [assemble_illegal h]
    rfl
  · rw [opcode?_eq_opcodeOf (by rwa [assemble_mnemonic]), assemble_mnemonic, assemble_mode _ (descriptor_mode_legal b)]
    exact opcodeOf_descriptor b h

/-- The operand bytes of an assembled instruction are as many of the bytes it was given as its mode has (R103, R104). -/
theorem operandBytes_assemble {d : Descriptor} (h : d.mode ∈ legalModes d.cls) (b b1 b2 : Byte) :
    (assemble d b b1 b2).operandBytes = [b1, b2].take (d.mode.length - 1) := by
  obtain ⟨c, m, cycles⟩ := d
  replace h : m ∈ legalModes c := h
  cases c with
  | lda | ldx | ldy | sta | stx | sty | adc | sbc | and | ora | eor | cmp | cpx | cpy | bit | asl | lsr | rol | ror
  | inc | dec | jmp => exact bytes_operandOf (ne_of_mem_of_not_mem h (by decide)) b1 b2
  | jsr =>
    cases List.mem_singleton.mp h
    exact bytes_operandOf (m := .abs) (by decide) b1 b2
  | _ =>
    cases List.mem_singleton.mp h
    rfl

theorem encode_instrOf {b : Byte} {bytes : List Byte} (h : bytes.length + 1 = (descriptor b).length) :
    encode (instrOf b bytes) = b :: bytes := by
  have hbytes : (instrOf b bytes).operandBytes = bytes := by
    rw [instrOf, operandBytes_assemble (descriptor_mode_legal b), ← Descriptor.length, ← h]
    rcases operandBytes_cases h with rfl | ⟨b1, rfl⟩ | ⟨b1, b2, rfl⟩ <;> rfl
  simp only [encode, show (instrOf b bytes).opcode? = some b from opcode?_assemble b _ _, hbytes]

/-- Settles O43: what decodes is assembled from an opcode byte's own grid entry and the mode's length of operand
bytes. -/
theorem encodeOfDecode : Obligations.EncodeOfDecode := by
  intro bs rest i h
  obtain ⟨b, bytes, hlength, rfl, rfl⟩ := decode_eq_ok_iff.mp h
  exact ⟨assemble_wf b _ _, by rw [encode_instrOf hlength, List.cons_append]⟩

/-! ## Words, lengths and the illegal bytes -/

/-- Settles O44: by evaluating the decoder. -/
theorem wordsOfTheSpecDecode : Obligations.WordsOfTheSpecDecode :=
  ⟨rfl, rfl, rfl, rfl, rfl, rfl, rfl, rfl, rfl, rfl⟩

/-- A byte decodes exactly when the rest of its mode's length is there. -/
theorem decode_isOk_iff (b : Byte) (rest : List Byte) :
    (∃ i r, decode (b :: rest) = .ok (i, r)) ↔ (descriptor b).mode.length ≤ rest.length + 1 := by
  constructor
  · rintro ⟨i, r, h⟩
    obtain ⟨_, bytes, hlength, hbs, -⟩ := decode_eq_ok_iff.mp h
    obtain ⟨rfl, rfl⟩ := List.cons.inj hbs
    rw [← Descriptor.length, ← hlength, List.length_append]
    omega
  · intro h
    have hpos := Machine.Mode.length_cases (descriptor b).mode
    have hlength : (rest.take ((descriptor b).mode.length - 1)).length + 1 = (descriptor b).length := by
      rw [List.length_take, Descriptor.length]
      omega
    have hdecode := decode_append hlength (rest.drop ((descriptor b).mode.length - 1))
    rw [List.take_append_drop] at hdecode
    exact ⟨_, _, hdecode⟩

/-- Settles O45: R122's list is the grid's entries without a body, and the length is the decoder's. -/
theorem illegalBytesAndLengths : Obligations.IllegalBytesAndLengths :=
  ⟨rfl, descriptor_illegal_iff, decode_isOk_iff, rfl, rfl, rfl, rfl, rfl, rfl, rfl, rfl, rfl, rfl, rfl, rfl, rfl⟩

end Sys2Proof

/-! SUPPORT. What each operand form resolves to, in closed arithmetic (R106 to R119), and the forms with no address
(log 13). -/

namespace Sys2Proof.Machine

open Sys2Proof.Safety

/-! ## Address arithmetic -/

@[simp] theorem zext_toNat (b : Byte) : (zext b).toNat = b.toNat := by
  simp only [zext, BitVec.toNat_setWidth]
  omega

theorem add_zext_toNat (a : Word) (b : Byte) : (a + zext b).toNat = (a.toNat + b.toNat) % 65536 := by
  rw [BitVec.toNat_add, zext_toNat]

/-! ## The pointer of the indirect mode -/

/-- Of two ports at adjacent addresses, the read of the first leaves what the second reads as it was: the ports whose
read has an effect are followed by OAMADDR, which always reads 0x00, and by no port (R272, R277, R278). -/
theorem peek_succ_memRead (a : Word) (s : State) : peek (a + 1) (memRead a s).2 = peek (a + 1) s := by
  cases ha : isPort a with
  | false => rw [memRead_of_not_port ha]
  | true =>
    obtain ⟨p, hroute⟩ := route_port (k := s.bus.prgBanks) ha
    cases p with
    | status =>
      obtain rfl : a = 0x2002 := address_of_port hroute
      rfl
    | vramData =>
      obtain rfl : a = 0x2007 := address_of_port hroute
      exact peek_congr (memRead_bus _ s) fun h => absurd h (by decide)
    | _ =>
      have hsame : (memRead a s).2 = s := by simp only [memRead, hroute]; rfl
      rw [hsame]

theorem memReadWord_fst (a : Word) (s : State) : (memReadWord a s).1 = wordOf (peek (a + 1) s) (peek a s) := by
  simp only [memReadWord, memRead_fst, peek_succ_memRead]

/-! ## Effective addresses and values -/

theorem effectiveAddress?_izx (d : Byte) (s : State) :
    effectiveAddress? (.izx d) s =
      some (wordOf (peek (zext (d + s.cpu.x + 1)) s) (peek (zext (d + s.cpu.x)) s)) := by
  simp only [effectiveAddress?, resolve, zeroPagePointer_eq]

theorem effectiveAddress?_izy (d : Byte) (s : State) :
    effectiveAddress? (.izy d) s =
      some (wordOf (peek (zext (d + 1)) s) (peek (zext d) s) + zext s.cpu.y) := by
  simp only [effectiveAddress?, resolve, zeroPagePointer_eq]

theorem effectiveAddress?_ind (a : Word) (s : State) :
    effectiveAddress? (.ind a) s = some (wordOf (peek (a + 1) s) (peek a s)) := by
  simp only [effectiveAddress?, resolve, memReadWord_fst]

/-- But for the indirect mode, an operand at an address is that address's byte, read once (R119). -/
theorem readOperand_of_address {o : Operand} {s : State} {a : Word} (h : effectiveAddress? o s = some a)
    (hmode : o.mode ≠ .ind) : readOperand o s = (peek a s, (memRead a s).2) := by
  simp only [readOperand, resolve_of_effectiveAddress h, resolve_state hmode, load]
  rfl

/-- Settles O46: by the address each mode resolves to. -/
theorem operandsResolveByMode : Obligations.OperandsResolveByMode := by
  refine ⟨fun d s => ⟨?zp, ?zpx, ?zpy, ?izx, ?izy⟩, fun w s => ⟨rfl, ?abx, ?aby, ?ind⟩, fun v s => ⟨rfl, rfl⟩,
    fun o s a h hmode => readOperand_of_address h hmode⟩
  case zp => exact ⟨_, rfl, zext_toNat d⟩
  case zpx => exact ⟨_, rfl, (zext_toNat _).trans (BitVec.toNat_add d s.cpu.x)⟩
  case zpy => exact ⟨_, rfl, (zext_toNat _).trans (BitVec.toNat_add d s.cpu.y)⟩
  case izx => exact ⟨_, effectiveAddress?_izx d s, wordOf_toNat _ _⟩
  case izy => exact ⟨_, effectiveAddress?_izy d s, by rw [add_zext_toNat, wordOf_toNat]⟩
  case abx => exact ⟨_, rfl, add_zext_toNat w s.cpu.x⟩
  case aby => exact ⟨_, rfl, add_zext_toNat w s.cpu.y⟩
  case ind => exact ⟨_, effectiveAddress?_ind w s, wordOf_toNat _ _⟩

/-! ## The forms with no address -/

theorem eq_acc_or_imm_of_no_address {o : Operand} {s : State} (h : effectiveAddress? o s = none) :
    o = .acc ∨ ∃ v, o = .imm v := by
  rcases effectiveAddress?_cases o s with hacc | himm | ⟨a, ha⟩
  · exact .inl hacc
  · exact .inr himm
  · exact absurd (h.symm.trans ha) (by simp)

/-- Settles O3: a form with no address is the accumulator or an immediate, and R112 lists neither for these mnemonics,
but for the accumulator of the shifts. -/
theorem formsWithoutAddressAreRefused : Obligations.FormsWithoutAddressAreRefused := by
  intro o s h
  rcases eq_acc_or_imm_of_no_address h with rfl | ⟨v, rfl⟩
  · exact ⟨rfl, rfl, rfl, rfl, fun hacc => absurd rfl hacc, rfl, rfl, rfl, rfl, fun hacc => absurd rfl hacc, rfl, rfl⟩
  · exact ⟨rfl, rfl, rfl, rfl, fun _ => ⟨rfl, rfl, rfl, rfl, rfl, rfl⟩, rfl, rfl, rfl, rfl,
      fun _ => ⟨rfl, rfl, rfl, rfl⟩, rfl, rfl⟩

end Sys2Proof.Machine

/-! SUPPORT. The CPU's turn through the decoder (R100 to R103), and the turn of an illegal byte (R250 to R252). -/

namespace Sys2Proof.Machine

open Sys2Proof.Safety

/-! ## The bytes a step fetches -/

theorem fetchedBytes_getElem? (s : State) {k : Nat} (hk : k < 3) :
    (fetchedBytes s)[k]? = some (peek (s.cpu.pc + BitVec.ofNat 16 k) (afterFetch k s)) := by
  have hfetch : (fetchedBytes s)[k]? = some (fetch8 (afterFetch k s)).1 := by
    match k, hk with
    | 0, _ => rfl
    | 1, _ => rfl
    | 2, _ => rfl
  rw [hfetch, fetch8_fst, afterFetch_cpu]

/-- Away from the ports the bytes fetched are those at PC (R101). -/
theorem fetchedBytes_plain {s : State} {n k : Nat} (h : PlainFetch s n) (hk : k < n) (hk3 : k < 3) :
    (fetchedBytes s)[k]? = some (peek (s.cpu.pc + BitVec.ofNat 16 k) s) := by
  rw [fetchedBytes_getElem? s hk3, afterFetch_plain s k fun j hj => h j (hj.trans hk), peek_setPc]

theorem instr_length_le (i : Instr) : i.length ≤ 3 := by
  have hl := Mode.length_cases i.mode
  rw [Instr.length]
  omega

/-! ## The turn -/

theorem serveOamDma_stub {s t : State} (h : t.host.oamDmaMode = .stub) : serveOamDma s t = t := by
  simp only [serveOamDma, h]

/-- In the normative mode a CPU turn is the CPU step alone (R281). -/
theorem cpuTurn_stub {s : State} (h : s.host.oamDmaMode = .stub) : cpuTurn s = cpuStep s := by
  obtain ⟨t, hstep⟩ := cpuStep_next s
  have hkept := keptByAll_sameLaunchData s
  obtain ⟨-, -, hmode⟩ := hkept.exec (hkept.fetchInstr (s := s) ⟨rfl, rfl, rfl⟩) hstep
  rw [cpuTurn_of_cpuStep hstep, hstep, serveOamDma_stub (hmode.trans h)]

theorem cpuStep_of_decode {s : State} {i : Instr} {rest : List Byte} (h : decode (fetchedBytes s) = .ok (i, rest)) :
    cpuStep s = exec i (afterFetch i.length s) := by
  rw [cpuStep, fetchInstr_of_decode h]

/-- Settles O24: the step's fetch is the decoder's reading of the bytes it fetches, and the host adds nothing to the
turn but in `copy` mode. -/
theorem stepRunsTheDecodedInstruction : Obligations.StepRunsTheDecodedInstruction := by
  intro s u i rest hturn hdecode
  have hstep := cpuStep_of_decode hdecode
  rw [step_of_cpusTurn hturn]
  refine ⟨(encodeOfDecode _ _ _ hdecode).1, fun hstub => ?_, fun t ht => ?_, afterFetch_cpu _ u, afterFetch_bus _ u,
    fun hplain => ⟨afterFetch_plain u _ hplain, fun k hk => ?_⟩⟩
  · rw [cpuTurn_stub hstub, hstep]
  · exact cpuTurn_of_cpuStep (hstep.trans ht)
  · exact fetchedBytes_plain hplain hk (hk.trans_le (instr_length_le i))

/-! ## The turn of an illegal byte -/

/-- An illegal byte is fetched alone. -/
theorem fetchInstr_illegal {s : State} (h : executedOpcode s ∈ illegalOpcodes) :
    fetchInstr s = (.illegal (executedOpcode s), (fetch8 s).2) := by
  have hcls := (descriptor_illegal_iff (executedOpcode s)).2 h
  have hlength : (descriptor (executedOpcode s)).length = 1 := by
    rw [Descriptor.length, descriptor_mode_of_illegal hcls]
    rfl
  obtain ⟨b1, b2, hfetch⟩ := fetchInstr_eq s
  rw [← executedOpcode, assemble_illegal hcls, hlength] at hfetch
  exact hfetch

theorem fetchInstr_mnemonic (s : State) : (fetchInstr s).1.mnemonic = (descriptor (executedOpcode s)).cls := by
  obtain ⟨b1, b2, hfetch⟩ := fetchInstr_eq s
  rw [hfetch]
  exact assemble_mnemonic _ _ _ _

@[simp] theorem portRead_oamdmaReq (p : Port) (u : Ppu) : (portRead p u).2.oamdmaReq = u.oamdmaReq := by cases p <;> rfl

/-- A read makes no request for a copy (R281). -/
@[simp] theorem memRead_oamdmaReq (a : Word) (s : State) : (memRead a s).2.ppu.oamdmaReq = s.ppu.oamdmaReq := by
  unfold memRead
  split <;> simp

/-- At an illegal byte the turn is the opcode fetch and the exception. -/
theorem cpuTurn_illegal {s : State} (h : executedOpcode s ∈ illegalOpcodes) :
    cpuTurn s = .next (raiseUnimplemented (executedOpcode s) (fetch8 s).2) := by
  refine cpuTurn_of_no_request ?_ (memRead_oamdmaReq s.cpu.pc s)
  rw [cpuStep, fetchInstr_illegal h]
  rfl

/-- The exception after an opcode fetch: PC back at the opcode, the fault recorded, what the read did (R250, R251). -/
theorem raiseUnimplemented_fetch8 (b : Byte) (s : State) :
    raiseUnimplemented b (fetch8 s).2 =
      { s with ppu := (memRead s.cpu.pc s).2.ppu, fault := some ⟨b, s.cpu.pc⟩ } := by
  refine State.ext_parts ?_ ?_ ?_ ?_ ?_ <;> simp [raiseUnimplemented, fetch8]

@[simp] theorem serveOamDma_fault (s t : State) : (serveOamDma s t).fault = t.fault :=
  serveOamDma_kept (P := fun u => u.fault = t.fault) (fun v u i h => by simpa [oamDmaCopyByte] using h) rfl

/-- At any other byte the turn records no fault. -/
theorem cpuTurn_fault_of_legal {s t : State} (h : executedOpcode s ∉ illegalOpcodes) (e : cpuTurn s = .next t) :
    t.fault = s.fault := by
  obtain ⟨u, hstep, rfl⟩ := cpuTurn_inv e
  have hlegal : (fetchInstr s).1.mnemonic ≠ .illegal := by
    rwa [fetchInstr_mnemonic, ne_eq, descriptor_illegal_iff]
  obtain ⟨-, hfault⟩ := exec_rest hlegal hstep
  obtain ⟨-, -, hfetch, -, -⟩ := fetchInstr_frame s
  rw [serveOamDma_fault, hfault, hfetch]

/-- A faulted state has no successor (R251). -/
theorem step_of_fault {s : State} {f : UnimplementedInstruction} (h : s.fault = some f) :
    step s = .fault (.unimplementedInstruction f.opcode f.pc) := by
  simp only [step, h]

/-- Settles O29: an illegal byte's turn is the opcode fetch and the exception, and no other turn records a fault. -/
theorem exactlyTheIllegalBytesFault : Obligations.ExactlyTheIllegalBytesFault := by
  intro s u hturn
  rw [step_of_cpusTurn hturn]
  obtain ⟨l, rfl⟩ := cpusTurn_state hturn
  by_cases h : executedOpcode (s.withSchedule l) ∈ illegalOpcodes
  · refine ⟨_, cpuTurn_illegal h, ?_⟩
    rw [raiseUnimplemented_fetch8]
    exact ⟨iff_of_true (Option.some_ne_none _) h,
      fun _ => ⟨rfl, rfl, rfl, rfl, rfl, rfl, step_of_fault (f := ⟨_, _⟩) rfl⟩⟩
  · obtain ⟨t, e⟩ := cpuTurn_next (s.withSchedule l)
    have hfault : t.fault = none := (cpuTurn_fault_of_legal h e).trans hturn.1
    exact ⟨t, e, iff_of_false (not_not_intro hfault) h, fun h' => absurd h' h⟩

end Sys2Proof.Machine

/-! SUPPORT. Loads, stores and transfers (R140 to R151): a mnemonic's encodings, a register written together with N and
Z, one write of a register. -/

namespace Sys2Proof

open Sys2Proof.Safety

/-- R112's row of a mnemonic is all its encodings: the grid says nothing the table does not, and the other way. -/
theorem encodings_opcodes (c : Mnemonic) (h : c ≠ .illegal) : Encodings c (opcodes c) := by
  intro b m
  constructor
  · rintro ⟨rfl, rfl⟩
    obtain ⟨l₁, l₂, hrows, -⟩ := List.lookup_eq_some_iff.mp (opcodeOf_descriptor b h)
    simp [hrows]
  · exact descriptor_of_mem_opcodes c (m, b)

end Sys2Proof

namespace Sys2Proof.Machine

open Sys2Proof.Safety

/-! ## Register writes and their frames -/

theorem hasNZ_putNZ (v p : Byte) : HasNZ v (putNZ v p) := ⟨getFlag_n_putNZ v p, getFlag_z_putNZ v p⟩

theorem onlyReads_withCpu (o : Operand) (s : State) (c : Cpu) : OnlyReads o s { (readOperand o s).2 with cpu := c } :=
  onlyReads_of (readOperand_bus o s) rfl (readOperand_host o s) (readOperand_fault o s)

theorem onlyCpu_withCpu (s : State) (c : Cpu) : OnlyCpu s { s with cpu := c } := onlyCpu_of rfl rfl rfl rfl

/-- An instruction that ends with `SetNZ(v)` after writing registers other than P: `c` is the CPU after those writes,
`Frame` what else is known of the last state. -/
theorem exec_setNZ {i : Instr} {s u : State} {v : Byte} {Frame : State → Prop} (c : Cpu)
    (e : exec i s = .next (u.setNZ v)) (hcpu : u.cpu = c) (hp : c.p = s.cpu.p) (hframe : Frame (u.setNZ v)) :
    ∃ t, exec i s = .next t ∧ t.cpu = { c with p := t.cpu.p } ∧ HasNZ v t.cpu.p ∧
      KeepsFlags [.n, .z] s.cpu.p t.cpu.p ∧ Frame t := by
  subst hcpu
  exact ⟨_, e, rfl, hasNZ_putNZ _ _, hp ▸ keepsFlags_putNZ _ _, hframe⟩

/-! ## One write of a register -/

/-- A store instruction is one write in the state resolving leaves. -/
theorem storeByte_oneStore {o : Operand} {s : State} {a : Word} (h : effectiveAddress? o s = some a) (v : Byte) :
    ∃ t, storeByte o v s = .next t ∧ t.cpu = s.cpu ∧ OneStore a v s (resolve o s).2 t :=
  ⟨_, storeByte_of_address h v, by simp, oneStore_of (resolve_bus o s) rfl rfl (by simp) (by simp)⟩

/-! ## The obligations -/

/-- Settles O1: reading the operand leaves the registers, and a load then writes one of them and sets N and Z. -/
theorem loadsTakeTheOperand : Obligations.LoadsTakeTheOperand := by
  refine ⟨encodings_opcodes .lda nofun, encodings_opcodes .ldx nofun, encodings_opcodes .ldy nofun,
    fun o s => ⟨?lda, ?ldx, ?ldy⟩⟩
  case lda =>
    exact exec_setNZ { s.cpu with a := (readOperand o s).1 } rfl (by rw [setA_cpu, readOperand_cpu]) rfl
      (onlyReads_withCpu o s _)
  case ldx =>
    exact exec_setNZ { s.cpu with x := (readOperand o s).1 } rfl (by rw [setX_cpu, readOperand_cpu]) rfl
      (onlyReads_withCpu o s _)
  case ldy =>
    exact exec_setNZ { s.cpu with y := (readOperand o s).1 } rfl (by rw [setY_cpu, readOperand_cpu]) rfl
      (onlyReads_withCpu o s _)

/-- Settles O2: the three meanings are the one store of their register. -/
theorem storesWriteTheRegister : Obligations.StoresWriteTheRegister :=
  ⟨encodings_opcodes .sta nofun, encodings_opcodes .stx nofun, encodings_opcodes .sty nofun,
    fun _ s _ h => ⟨storeByte_oneStore h s.cpu.a, storeByte_oneStore h s.cpu.x, storeByte_oneStore h s.cpu.y⟩⟩

/-- Settles O4: each transfer writes one register from another; all but TXS set N and Z after it. -/
theorem transfersCopyOneRegister : Obligations.TransfersCopyOneRegister := by
  refine ⟨encodings_opcodes .tax nofun, encodings_opcodes .tay nofun, encodings_opcodes .txa nofun,
    encodings_opcodes .tya nofun, encodings_opcodes .tsx nofun, encodings_opcodes .txs nofun,
    fun s => ⟨?tax, ?tay, ?txa, ?tya, ?tsx, ?txs⟩⟩
  case tax => exact exec_setNZ { s.cpu with x := s.cpu.a } rfl rfl rfl (onlyCpu_withCpu s _)
  case tay => exact exec_setNZ { s.cpu with y := s.cpu.a } rfl rfl rfl (onlyCpu_withCpu s _)
  case txa => exact exec_setNZ { s.cpu with a := s.cpu.x } rfl rfl rfl (onlyCpu_withCpu s _)
  case tya => exact exec_setNZ { s.cpu with a := s.cpu.y } rfl rfl rfl (onlyCpu_withCpu s _)
  case tsx => exact exec_setNZ { s.cpu with x := s.cpu.sp } rfl rfl rfl (onlyCpu_withCpu s _)
  case txs => exact ⟨_, rfl, rfl, onlyCpu_withCpu s _⟩

end Sys2Proof.Machine

/-! SUPPORT. Arithmetic, logic, compares and the bit test (R160 to R168): SBC in closed form, the equation of each
meaning over the registers the instruction starts with, and what writing a sum, a bitwise combination or a compare does. -/

namespace Sys2Proof.Machine

open Sys2Proof.Safety

/-! ## The subtraction in closed form -/

/-- The carry in is one minus the borrow of R161. -/
theorem toNat_eq_one_sub_borrow (c : Bool) : (c.toNat : Int) = 1 - if c then 0 else 1 := by cases c <;> rfl

theorem subWithCarry_toNat (a m : Byte) (c : Bool) :
    ((subWithCarry a m c).res.toNat : Int) = ((a.toNat : Int) - m.toNat - if c then 0 else 1) % 256 := by
  have hm := m.isLt
  rw [subWithCarry, addWithCarry_toNat, xor_ff_toNat]
  have hc := toNat_eq_one_sub_borrow c
  omega

/-- The ninth bit of the addition of the complement is set exactly when there is no borrow. -/
theorem subWithCarry_carry (a m : Byte) (c : Bool) :
    (subWithCarry a m c).carry = decide (0 ≤ (a.toNat : Int) - m.toNat - if c then 0 else 1) := by
  have hm := m.isLt
  rw [subWithCarry, addWithCarry_carry, xor_ff_toNat, decide_eq_decide]
  have hc := toNat_eq_one_sub_borrow c
  omega

theorem subWithCarry_overflow (a m : Byte) (c : Bool) :
    (subWithCarry a m c).overflow =
      decide (a.toInt - m.toInt - (if c then 0 else 1) < -128 ∨ 127 < a.toInt - m.toInt - if c then 0 else 1) := by
  rw [subWithCarry, addWithCarry_overflow, xor_ff_toInt, decide_eq_decide]
  have hc := toNat_eq_one_sub_borrow c
  omega

/-- Bit 7 of a difference, by the wrapped value (R165). -/
theorem getLsbD_seven_sub (a m : Byte) :
    (a - m).getLsbD 7 = decide (128 ≤ (a.toNat + 256 - m.toNat) % 256) := by
  have hm := m.isLt
  have sign : (a - m).getLsbD 7 = decide (128 ≤ (a - m).toNat) :=
    (BitVec.msb_eq_getLsbD_last _).symm.trans (BitVec.msb_eq_decide _)
  rw [sign, BitVec.toNat_sub, decide_eq_decide]
  omega

/-! ## The meanings over the registers before the read -/

section Meanings
variable (o : Operand) (s : State)

theorem exec_adc : exec (.adc o) s =
    .next (((readOperand o s).2.setA (addWithCarry s.cpu.a (readOperand o s).1 (getFlag .c s.cpu.p)).res).setP
      (putSum (addWithCarry s.cpu.a (readOperand o s).1 (getFlag .c s.cpu.p)) s.cpu.p)) := by
  simp only [exec, execAdc, State.flag, readOperand_cpu]

theorem exec_sbc : exec (.sbc o) s =
    .next (((readOperand o s).2.setA (subWithCarry s.cpu.a (readOperand o s).1 (getFlag .c s.cpu.p)).res).setP
      (putSum (subWithCarry s.cpu.a (readOperand o s).1 (getFlag .c s.cpu.p)) s.cpu.p)) := by
  simp only [exec, execSbc, State.flag, readOperand_cpu]

theorem exec_and : exec (.and o) s =
    .next (((readOperand o s).2.setA (s.cpu.a &&& (readOperand o s).1)).setNZ (s.cpu.a &&& (readOperand o s).1)) := by
  simp only [exec, execAnd, readOperand_cpu]

theorem exec_ora : exec (.ora o) s =
    .next (((readOperand o s).2.setA (s.cpu.a ||| (readOperand o s).1)).setNZ (s.cpu.a ||| (readOperand o s).1)) := by
  simp only [exec, execOra, readOperand_cpu]

theorem exec_eor : exec (.eor o) s =
    .next (((readOperand o s).2.setA (s.cpu.a ^^^ (readOperand o s).1)).setNZ (s.cpu.a ^^^ (readOperand o s).1)) := by
  simp only [exec, execEor, readOperand_cpu]

theorem exec_cmp : exec (.cmp o) s =
    .next ((readOperand o s).2.setP (putCompare s.cpu.a (readOperand o s).1 s.cpu.p)) := by
  simp only [exec, execCmp, readOperand_cpu]

theorem exec_cpx : exec (.cpx o) s =
    .next ((readOperand o s).2.setP (putCompare s.cpu.x (readOperand o s).1 s.cpu.p)) := by
  simp only [exec, execCpx, readOperand_cpu]

theorem exec_cpy : exec (.cpy o) s =
    .next ((readOperand o s).2.setP (putCompare s.cpu.y (readOperand o s).1 s.cpu.p)) := by
  simp only [exec, execCpy, readOperand_cpu]

theorem exec_bit : exec (.bit o) s =
    .next ((readOperand o s).2.setP (putBit s.cpu.a (readOperand o s).1 s.cpu.p)) := by
  simp only [exec, execBit, readOperand_cpu]

end Meanings

/-! ## What the shared shapes do -/

section Shapes
variable {i : Instr} {o : Operand} {s : State}

/-- An instruction that writes a sum to A and the sum's flags to P. -/
theorem exec_putSum {q : Sum}
    (e : exec i s = .next (((readOperand o s).2.setA q.res).setP (putSum q s.cpu.p))) :
    ∃ t, exec i s = .next t ∧ t.cpu = { s.cpu with a := t.cpu.a, p := t.cpu.p } ∧ t.cpu.a = q.res ∧
      getFlag .c t.cpu.p = q.carry ∧ getFlag .v t.cpu.p = q.overflow ∧ HasNZ t.cpu.a t.cpu.p ∧
      KeepsFlags [.n, .v, .z, .c] s.cpu.p t.cpu.p ∧ OnlyReads o s t := by
  refine ⟨_, e, ?registers, rfl, getFlag_putSum q _ .c, getFlag_putSum q _ .v, ?nz, keepsFlags_putSum q _,
    onlyReads_withCpu o s _⟩
  case registers => rw [setP_cpu, setA_cpu, readOperand_cpu]
  case nz => exact ⟨getFlag_putSum q _ .n, getFlag_putSum q _ .z⟩

/-- An instruction that writes to A its bits combined by `op` with the operand's, and sets N and Z from the result. -/
theorem exec_bitwise (op : Bool → Bool → Bool) {v : Byte}
    (e : exec i s = .next (((readOperand o s).2.setA v).setNZ v))
    (hv : ∀ k, v.getLsbD k = op (s.cpu.a.getLsbD k) ((readOperand o s).1.getLsbD k)) :
    ∃ t, exec i s = .next t ∧ t.cpu = { s.cpu with a := t.cpu.a, p := t.cpu.p } ∧
      (∀ k, t.cpu.a.getLsbD k = op (s.cpu.a.getLsbD k) ((readOperand o s).1.getLsbD k)) ∧
      HasNZ t.cpu.a t.cpu.p ∧ KeepsFlags [.n, .z] s.cpu.p t.cpu.p ∧ OnlyReads o s t := by
  obtain ⟨t, ht, hcpu, hframe⟩ := exec_setNZ { s.cpu with a := v } e (by rw [setA_cpu, readOperand_cpu]) rfl
    (onlyReads_withCpu o s _)
  obtain rfl : t.cpu.a = v := by rw [hcpu]
  exact ⟨t, ht, hcpu, hv, hframe⟩

/-- An instruction that writes the flags of a compare, and no register. -/
theorem comparesWith_of_putCompare {reg : Byte}
    (e : exec i s = .next ((readOperand o s).2.setP (putCompare reg (readOperand o s).1 s.cpu.p))) :
    ComparesWith i reg o s := by
  refine ⟨_, e, ?registers, getFlag_putCompare reg _ _ .c, ?zero, ?negative, keepsFlags_putCompare reg _ _,
    onlyReads_withCpu o s _⟩
  case registers => rw [setP_cpu, readOperand_cpu]
  case zero => exact (getFlag_putCompare reg _ _ .z).trans (by rw [decide_eq_decide, sub_eq_zero])
  case negative => exact (getFlag_putCompare reg _ _ .n).trans (getLsbD_seven_sub _ _)

end Shapes

/-! ## The obligations -/

/-- Settles O5: ADC writes the nine-bit sum, whose closed forms are those of `addWithCarry`. -/
theorem adcAddsInNineBits : Obligations.AdcAddsInNineBits := by
  refine ⟨encodings_opcodes .adc nofun, fun o s => ?_⟩
  obtain ⟨t, e, hcpu, ha, hc, hv, hframe⟩ := exec_putSum (exec_adc o s)
  exact ⟨t, e, hcpu, ha ▸ addWithCarry_toNat _ _ _, hc.trans (addWithCarry_carry _ _ _),
    hv.trans (addWithCarry_overflow _ _ _), hframe⟩

/-- Settles O6: SBC writes the sum of A and the operand's complement, which is the difference with borrow. -/
theorem sbcSubtractsWithBorrow : Obligations.SbcSubtractsWithBorrow := by
  refine ⟨encodings_opcodes .sbc nofun, fun o s => ?_⟩
  obtain ⟨t, e, hcpu, ha, hc, hv, hframe⟩ := exec_putSum (exec_sbc o s)
  exact ⟨t, e, hcpu, ha ▸ subWithCarry_toNat _ _ _, hc.trans (subWithCarry_carry _ _ _),
    hv.trans (subWithCarry_overflow _ _ _), hframe⟩

/-- Settles O7: each of the three writes A once, with the bitwise combination, and sets N and Z from it. -/
theorem logicCombinesBits : Obligations.LogicCombinesBits := by
  refine ⟨encodings_opcodes .and nofun, encodings_opcodes .ora nofun, encodings_opcodes .eor nofun,
    fun o s => ⟨?and, ?ora, ?eor⟩⟩
  case and => exact exec_bitwise and (exec_and o s) fun _ => BitVec.getLsbD_and
  case ora => exact exec_bitwise or (exec_ora o s) fun _ => BitVec.getLsbD_or
  case eor => exact exec_bitwise xor (exec_eor o s) fun _ => BitVec.getLsbD_xor

/-- Settles O8: the three compares differ in the register only. -/
theorem comparesSetFlagsOnly : Obligations.ComparesSetFlagsOnly :=
  ⟨encodings_opcodes .cmp nofun, encodings_opcodes .cpx nofun, encodings_opcodes .cpy nofun,
    fun o s => ⟨comparesWith_of_putCompare (exec_cmp o s), comparesWith_of_putCompare (exec_cpx o s),
      comparesWith_of_putCompare (exec_cpy o s)⟩⟩

/-- Settles O9: BIT writes P once, in the state reading the operand leaves. -/
theorem bitTestsTheOperand : Obligations.BitTestsTheOperand := by
  refine ⟨encodings_opcodes .bit nofun, fun o s => ⟨_, exec_bit o s, ?registers, getFlag_putBit _ _ _ .n,
    getFlag_putBit _ _ _ .v, getFlag_putBit _ _ _ .z, keepsFlags_putBit _ _ _, onlyReads_withCpu o s _⟩⟩
  case registers => rw [setP_cpu, readOperand_cpu]

end Sys2Proof.Machine

/-! SUPPORT. Shifts, rotates, increments and decrements (R180 to R189): the shifted byte and the bit shifted out in
closed form, and what a read-modify-write does in its accumulator and its memory form. -/

namespace Sys2Proof.Machine

open Sys2Proof.Safety

/-! ## One bit to the left or to the right -/

theorem getLsbD_seven_eq_decide (m : Byte) : m.getLsbD 7 = decide (128 ≤ m.toNat) :=
  (BitVec.msb_eq_getLsbD_last m).symm.trans (BitVec.msb_eq_decide m)

theorem getLsbD_zero_eq_decide (m : Byte) : m.getLsbD 0 = decide (m.toNat % 2 = 1) := Nat.testBit_zero _

/-- The parts of a concatenation are the digits of its value. -/
theorem append_toNat {k n : Nat} (x : BitVec k) (y : BitVec n) : (x ++ y).toNat = 2 ^ n * x.toNat + y.toNat := by
  rw [BitVec.toNat_append, Nat.shiftLeft_eq, Nat.mul_comm, ← Nat.two_pow_add_eq_or_of_lt y.isLt]

theorem shiftLeft_eq (m : Byte) (c : Bool) :
    shiftLeft m c = ⟨BitVec.ofNat 8 (2 * m.toNat), decide (128 ≤ m.toNat)⟩ := by
  have hres : m <<< 1 = BitVec.ofNat 8 (2 * m.toNat) := by
    apply BitVec.eq_of_toNat_eq
    rw [BitVec.toNat_shiftLeft, BitVec.toNat_ofNat, Nat.shiftLeft_eq, Nat.mul_comm]
  rw [shiftLeft, hres, getLsbD_seven_eq_decide]

theorem shiftRight_eq (m : Byte) (c : Bool) :
    shiftRight m c = ⟨BitVec.ofNat 8 (m.toNat / 2), decide (m.toNat % 2 = 1)⟩ := by
  have hres : m >>> 1 = BitVec.ofNat 8 (m.toNat / 2) := by
    have hm := m.isLt
    apply BitVec.eq_of_toNat_eq
    rw [BitVec.toNat_ushiftRight, BitVec.toNat_ofNat, Nat.shiftRight_eq_div_pow]
    omega
  rw [shiftRight, hres, getLsbD_zero_eq_decide]

/-- The carry enters as the lowest digit, and the highest bit leaves. -/
theorem rotateLeft_eq (m : Byte) (c : Bool) :
    rotateLeft m c = ⟨BitVec.ofNat 8 (2 * m.toNat + c.toNat), decide (128 ≤ m.toNat)⟩ := by
  have hres : m.extractLsb' 0 7 ++ BitVec.ofBool c = BitVec.ofNat 8 (2 * m.toNat + c.toNat) := by
    have hc := c.toNat_lt
    apply BitVec.eq_of_toNat_eq
    rw [append_toNat, BitVec.extractLsb'_toNat, BitVec.toNat_ofBool, BitVec.toNat_ofNat, Nat.shiftRight_zero]
    omega
  rw [rotateLeft, hres, getLsbD_seven_eq_decide]

/-- The carry enters as the highest digit, and the lowest bit leaves. -/
theorem rotateRight_eq (m : Byte) (c : Bool) :
    rotateRight m c = ⟨BitVec.ofNat 8 (128 * c.toNat + m.toNat / 2), decide (m.toNat % 2 = 1)⟩ := by
  have hres : BitVec.ofBool c ++ m.extractLsb' 1 7 = BitVec.ofNat 8 (128 * c.toNat + m.toNat / 2) := by
    have hm := m.isLt
    have hc := c.toNat_lt
    apply BitVec.eq_of_toNat_eq
    rw [append_toNat, BitVec.extractLsb'_toNat, BitVec.toNat_ofBool, BitVec.toNat_ofNat, Nat.shiftRight_eq_div_pow]
    omega
  rw [rotateRight, hres, getLsbD_zero_eq_decide]

theorem ofNat_toNat_add_one (m : Byte) : BitVec.ofNat 8 (m.toNat + 1) = m + 1 := by
  rw [BitVec.ofNat_add, BitVec.ofNat_toNat, BitVec.setWidth_eq]
  rfl

/-- Modulo 256, to add 255 is to take one away. -/
theorem ofNat_toNat_add_255 (m : Byte) : BitVec.ofNat 8 (m.toNat + 255) = m - 1 := by
  rw [BitVec.ofNat_add, BitVec.ofNat_toNat, BitVec.setWidth_eq, BitVec.sub_eq_add_neg]
  rfl

/-! ## The read-modify-write in both forms -/

section ReadModifyWrite
variable {i : Instr} {o : Operand} {s : State} {res : Byte}

/-- What `modify` is given decides the byte written and the flags; the two forms differ in the place written only. -/
theorem modifiesOperand_of_modify {f : Byte → Byte → Byte × Byte} {p : Byte} {written : List Flag}
    {carry : Option Bool} (e : exec i s = modify o f s) (hf : f (readOperand o s).1 s.cpu.p = (res, p))
    (hnz : HasNZ res p) (hcarry : ∀ c, carry = some c → getFlag .c p = c) (hkeeps : KeepsFlags written s.cpu.p p) :
    ModifiesOperand i o s written res carry := by
  constructor
  · rintro rfl
    change f s.cpu.a s.cpu.p = (res, p) at hf
    rw [modify_acc, hf] at e
    exact ⟨_, e, rfl, hnz, hcarry, hkeeps, onlyCpu_withCpu s _⟩
  · intro a ha
    rw [modify_of_address ha, hf] at e
    refine ⟨_, e, ?registers, hnz, hcarry, hkeeps, ?store⟩
    case registers => rw [setP_cpu, memWrite_cpu, readOperand_cpu]
    case store => exact oneStore_of (readOperand_bus o s) rfl rfl (by simp) (by simp)

/-- A shift or rotate writes C too, with the bit shifted out. -/
theorem modifiesOperand_of_shifting {g : Byte → Bool → Shifted} {carry : Bool}
    (e : exec i s = modify o (shifting g) s) (hg : g (readOperand o s).1 (getFlag .c s.cpu.p) = ⟨res, carry⟩) :
    ModifiesOperand i o s [.n, .z, .c] res (some carry) := by
  refine modifiesOperand_of_modify (p := putShifted ⟨res, carry⟩ s.cpu.p) e ?given ?nz ?carry
    (keepsFlags_putShifted _ _)
  case given => rw [shifting, hg]
  case nz => exact ⟨getFlag_putShifted _ _ .n, getFlag_putShifted _ _ .z⟩
  case carry =>
    rintro c ⟨⟩
    exact getFlag_putShifted _ _ .c

/-- An increment or decrement writes N and Z only. -/
theorem modifiesOperand_of_putNZ {g : Byte → Byte} (e : exec i s = modify o (fun m p => (g m, putNZ (g m) p)) s)
    (hg : g (readOperand o s).1 = res) : ModifiesOperand i o s [.n, .z] res none := by
  subst hg
  exact modifiesOperand_of_modify e rfl (hasNZ_putNZ _ _) nofun (keepsFlags_putNZ _ _)

end ReadModifyWrite

/-! ## The obligations -/

/-- Settles O10: the four are one read-modify-write, each with the closed form of its byte and its carry. -/
theorem shiftsMoveOneBit : Obligations.ShiftsMoveOneBit :=
  ⟨encodings_opcodes .asl nofun, encodings_opcodes .lsr nofun, encodings_opcodes .rol nofun,
    encodings_opcodes .ror nofun, fun _ _ =>
      ⟨modifiesOperand_of_shifting rfl (shiftLeft_eq _ _), modifiesOperand_of_shifting rfl (shiftRight_eq _ _),
        modifiesOperand_of_shifting rfl (rotateLeft_eq _ _), modifiesOperand_of_shifting rfl (rotateRight_eq _ _)⟩⟩

/-- Settles O11: INC and DEC are one read-modify-write, whose byte wraps modulo 256. -/
theorem incDecMemory : Obligations.IncDecMemory :=
  ⟨encodings_opcodes .inc nofun, encodings_opcodes .dec nofun, fun _ _ _ _ =>
    ⟨modifiesOperand_of_putNZ (g := (· + 1)) rfl (ofNat_toNat_add_one _).symm,
      modifiesOperand_of_putNZ (g := (· - 1)) rfl (ofNat_toNat_add_255 _).symm⟩⟩

/-- Settles O12: each of the four writes its index register once, and N and Z from the byte written. -/
theorem indexRegistersCount : Obligations.IndexRegistersCount := by
  refine ⟨encodings_opcodes .inx nofun, encodings_opcodes .iny nofun, encodings_opcodes .dex nofun,
    encodings_opcodes .dey nofun, fun s => ?_⟩
  rw [ofNat_toNat_add_one, ofNat_toNat_add_one, ofNat_toNat_add_255, ofNat_toNat_add_255]
  refine ⟨?inx, ?iny, ?dex, ?dey⟩
  case inx => exact ⟨_, rfl, rfl, hasNZ_putNZ (s.cpu.x + 1) _, keepsFlags_putNZ _ _, onlyCpu_withCpu s _⟩
  case iny => exact ⟨_, rfl, rfl, hasNZ_putNZ (s.cpu.y + 1) _, keepsFlags_putNZ _ _, onlyCpu_withCpu s _⟩
  case dex => exact ⟨_, rfl, rfl, hasNZ_putNZ (s.cpu.x - 1) _, keepsFlags_putNZ _ _, onlyCpu_withCpu s _⟩
  case dey => exact ⟨_, rfl, rfl, hasNZ_putNZ (s.cpu.y - 1) _, keepsFlags_putNZ _ _, onlyCpu_withCpu s _⟩

end Sys2Proof.Machine

/-! SUPPORT. Stack and flag instructions (R200 to R210): what one push does, the pulls over the registers the
instruction starts with, and one write of a flag. -/

namespace Sys2Proof.Machine

open Sys2Proof.Safety

/-! ## One push, one pull, one flag -/

/-- A push writes its slot, which is in RAM, and moves SP. -/
theorem pushes_of_push8 {i : Instr} {v : Byte} {s : State} (e : exec i s = .next (push8 v s)) : Pushes i v s := by
  unfold Pushes
  rw [← stackSlot_eq]
  refine ⟨_, e, push8_cpu v s, ?slot, ?others, push8_ppu v s, push8_host v s, push8_fault v s⟩
  case slot => rw [peek_push8 _ _ _ (stackSlot_not_port _), if_pos rfl]
  case others =>
    intro b hport hslot
    rw [peek_push8 _ _ _ hport, if_neg hslot]

theorem exec_pla (s : State) : exec .pla s =
    .next (((s.setSp (s.cpu.sp - 1)).setA (peek (stackSlot (s.cpu.sp - 1)) s)).setNZ
      (peek (stackSlot (s.cpu.sp - 1)) s)) := by
  simp only [exec, execPla, pop8_eq]

theorem exec_plp (s : State) : exec .plp s =
    .next ((s.setSp (s.cpu.sp - 1)).setP (peek (stackSlot (s.cpu.sp - 1)) s)) := by
  simp only [exec, execPlp, pop8_eq]

theorem writesFlagOnly_of_setFlag {i : Instr} {f : Flag} {v : Bool} (e : ∀ s, exec i s = .next (s.setFlag f v)) :
    WritesFlagOnly i f v :=
  fun s => ⟨_, e s, rfl, getFlag_putFlag_same f v _, keepsFlags_putFlag f v _, onlyCpu_withCpu s _⟩

/-! ## The obligations -/

/-- Settles O13: the two meanings are one push, of A and of the whole of P. -/
theorem pushesGrowUpward : Obligations.PushesGrowUpward :=
  ⟨encodings_opcodes .pha nofun, encodings_opcodes .php nofun, fun _ => ⟨pushes_of_push8 rfl, pushes_of_push8 rfl⟩⟩

/-- Settles O14: a pull reads its slot with no side effect, so both leave everything but the registers alone. -/
theorem pullsReadTheSlotBelow : Obligations.PullsReadTheSlotBelow := by
  refine ⟨encodings_opcodes .pla nofun, encodings_opcodes .plp nofun, fun s => ?_⟩
  rw [← stackSlot_eq]
  constructor
  · exact exec_setNZ { s.cpu with a := peek (stackSlot (s.cpu.sp - 1)) s, sp := s.cpu.sp - 1 } (exec_pla s) rfl rfl
      (onlyCpu_withCpu s _)
  · exact ⟨_, exec_plp s, rfl, onlyCpu_withCpu s _⟩

/-- Settles O15: the seven meanings are one write of a flag. -/
theorem flagInstructionsWriteOneFlag : Obligations.FlagInstructionsWriteOneFlag :=
  ⟨encodings_opcodes .clc nofun, encodings_opcodes .sec nofun, encodings_opcodes .cli nofun,
    encodings_opcodes .sei nofun, encodings_opcodes .cld nofun, encodings_opcodes .sed nofun,
    encodings_opcodes .clv nofun,
    writesFlagOnly_of_setFlag fun _ => rfl, writesFlagOnly_of_setFlag fun _ => rfl,
    writesFlagOnly_of_setFlag fun _ => rfl, writesFlagOnly_of_setFlag fun _ => rfl,
    writesFlagOnly_of_setFlag fun _ => rfl, writesFlagOnly_of_setFlag fun _ => rfl,
    writesFlagOnly_of_setFlag fun _ => rfl⟩

end Sys2Proof.Machine

/-! SUPPORT. Control transfer (R220 to R230): a word pushed and popped with PC moved in between, and the one shape of
the eight branches. -/

namespace Sys2Proof.Machine

open Sys2Proof.Safety

/-! ## Words on the stack -/

@[simp] theorem push16_host (v : Word) (s : State) : (push16 v s).host = s.host := by simp [push16]
@[simp] theorem push16_fault (v : Word) (s : State) : (push16 v s).fault = s.fault := by simp [push16]

/-- A pushed word changes no byte outside the ports but those of its two slots. -/
theorem peek_push16_other (v : Word) (s : State) {b : Word} (hport : isPort b = false)
    (hlow : b ≠ stackSlot s.cpu.sp) (hhigh : b ≠ stackSlot (s.cpu.sp + 1)) :
    peek b (push16 v s) = peek b s := by
  rw [push16, peek_push8 _ _ _ hport, push8_cpu, if_neg hhigh, peek_push8 _ _ _ hport, if_neg hlow]

/-- Popping a word takes no notice of PC. -/
theorem pop16_setPc (a : Word) (s : State) : pop16 (s.setPc a) = ((pop16 s).1, (pop16 s).2.setPc a) := by
  simp only [pop16_eq, setPc_cpu, peek_setPc]
  rfl

theorem ofNat_eq_wordOf (hi lo : Byte) : BitVec.ofNat 16 (256 * hi.toNat + lo.toNat) = wordOf hi lo := by
  rw [← wordOf_toNat, BitVec.ofNat_toNat, BitVec.setWidth_eq]

theorem exec_rts (s : State) : exec .rts s =
    .next ((s.setSp (s.cpu.sp - 2)).setPc
      (wordOf (peek (stackSlot (s.cpu.sp - 1)) s) (peek (stackSlot (s.cpu.sp - 2)) s) + 1)) := by
  simp only [exec, execRts, pop16_eq]

/-! ## Branches -/

theorem branchIf_cpu (taken : Bool) (d : Byte) (s : State) :
    (branchIf taken d s).cpu = { s.cpu with pc := if taken then s.cpu.pc + sext d else s.cpu.pc } := by
  cases taken <;> rfl

theorem onlyCpu_branchIf (taken : Bool) (d : Byte) (s : State) : OnlyCpu s (branchIf taken d s) := by
  cases taken <;> exact onlyCpu_of rfl rfl rfl rfl

/-- Adding the sign-extended offset is adding its signed value, modulo 65536 (R118). -/
theorem add_sext_eq_ofInt (a : Word) (d : Byte) : a + sext d = BitVec.ofInt 16 ((a.toNat : Int) + d.toInt) := by
  rw [BitVec.ofInt_add, BitVec.ofInt_natCast, BitVec.ofNat_toNat, BitVec.setWidth_eq]
  rfl

/-- The eight branches differ in the flag and in the value of it on which they are taken. -/
theorem branchesOn_of_branchIf {mk : Byte → Instr} {f : Flag} {v : Bool}
    (e : ∀ d s, exec (mk d) s = .next (branchIf (bif v then s.flag f else !s.flag f) d s)) : BranchesOn mk f v := by
  intro d s
  have htaken : (bif v then s.flag f else !s.flag f) = decide (getFlag f s.cpu.p = v) := by
    cases v <;> simp [State.flag]
  refine ⟨_, e d s, ?_⟩
  rw [htaken, branchIf_cpu]
  refine ⟨rfl, fun h => ?jumps, fun h => ?continues, onlyCpu_branchIf _ d s⟩
  case jumps => rw [if_pos (decide_eq_true h), add_sext_eq_ofInt]
  case continues => rw [if_neg (by simpa using h)]

/-! ## The obligations -/

/-- Settles O16: a jump is what resolving its operand does, with PC then written once. -/
theorem jmpGoesToTheAddress : Obligations.JmpGoesToTheAddress := by
  refine ⟨encodings_opcodes .jmp nofun, fun o s a h => ?_⟩
  refine ⟨(resolve o s).2.setPc a, execJmp_of_address h, by simp, resolve_bus o s, sameBytes_of_bus (resolve_bus o s),
    ⟨resolve_vram o s, resolve_oam o s⟩, ⟨resolve_host o s, resolve_fault o s⟩, ?abs, ?ind⟩
  case abs =>
    rintro d rfl
    exact ⟨(Option.some.inj h).symm, rfl⟩
  case ind =>
    rintro p rfl
    obtain rfl := Option.some.inj h
    exact ⟨wordOf_toNat _ _, rfl⟩

/-- Settles O17: a word pushed, with its frame, and PC written once. -/
theorem jsrPushesTheReturnWord : Obligations.JsrPushesTheReturnWord := by
  refine ⟨encodings_opcodes .jsr nofun, fun a s => ?_⟩
  simp only [← stackSlot_eq]
  obtain ⟨hlow, hhigh⟩ := peek_push16 s.cpu.pc s
  refine ⟨(push16 s.cpu.pc s).setPc a, rfl, by simp, ?low, ?high, fun b hport hb0 hb1 => ?others, push16_ppu _ s,
    push16_host _ s, push16_fault _ s⟩
  case low => rw [peek_setPc, hlow, loByte_toNat]
  case high => rw [peek_setPc, hhigh, hiByte_toNat]
  case others => rw [peek_setPc, peek_push16_other _ s hport hb0 hb1]

/-- Settles O18: popping a word moves SP only, and PC is then written once. -/
theorem rtsReturnsPastTheWord : Obligations.RtsReturnsPastTheWord := by
  refine ⟨encodings_opcodes .rts nofun, fun s => ?_⟩
  simp only [← stackSlot_eq]
  rw [BitVec.ofNat_add, ofNat_eq_wordOf]
  exact ⟨_, exec_rts s, rfl, onlyCpu_withCpu s _⟩

/-- Settles O19: RTS pops the word JSR pushed, whatever PC is in between, and takes SP back. -/
theorem jsrThenRtsSkipsOneByte : Obligations.JsrThenRtsSkipsOneByte := by
  intro a s
  obtain ⟨hword, hcpu⟩ := pop16_push16 s.cpu.pc s
  refine ⟨(push16 s.cpu.pc s).setPc a, (pop16 (push16 s.cpu.pc s)).2.setPc (s.cpu.pc + 1), rfl, ?rts, ?cpu,
    ?ppu, ?rest⟩
  case rts =>
    simp only [exec, execRts, pop16_setPc, hword]
    rfl
  case cpu => rw [setPc_cpu, hcpu]
  case ppu => rw [setPc_ppu, pop16_eq, setSp_ppu, push16_ppu]
  case rest =>
    rw [pop16_eq]
    exact ⟨push16_host _ s, push16_fault _ s⟩

/-- Settles O20: the eight meanings are one conditional addition to PC, each on its flag. -/
theorem branchesTestTheirFlag : Obligations.BranchesTestTheirFlag :=
  ⟨encodings_opcodes .bcc nofun, encodings_opcodes .bcs nofun, encodings_opcodes .beq nofun,
    encodings_opcodes .bne nofun, encodings_opcodes .bmi nofun, encodings_opcodes .bpl nofun,
    encodings_opcodes .bvc nofun, encodings_opcodes .bvs nofun,
    branchesOn_of_branchIf fun _ _ => rfl, branchesOn_of_branchIf fun _ _ => rfl,
    branchesOn_of_branchIf fun _ _ => rfl, branchesOn_of_branchIf fun _ _ => rfl,
    branchesOn_of_branchIf fun _ _ => rfl, branchesOn_of_branchIf fun _ _ => rfl,
    branchesOn_of_branchIf fun _ _ => rfl, branchesOn_of_branchIf fun _ _ => rfl⟩

end Sys2Proof.Machine

/-! SUPPORT. System instructions (R240 to R242): BRK is one more write of a flag, and RTI a pull of P and a word. -/

namespace Sys2Proof.Machine

open Sys2Proof.Safety

/-! ## The return -/

theorem exec_rti (s : State) : exec .rti s =
    .next (((s.setSp (s.cpu.sp - 3)).setP (peek (stackSlot (s.cpu.sp - 1)) s)).setPc
      (wordOf (peek (stackSlot (s.cpu.sp - 2)) s) (peek (stackSlot (s.cpu.sp - 3)) s))) := by
  simp only [exec, execRti, trapReturn_eq]

/-! ## The obligations -/

/-- Settles O21: BRK is one write of a flag, as CLC and SEC are, and NOP answers the state it is given. -/
theorem brkSetsBreakAndNopNothing : Obligations.BrkSetsBreakAndNopNothing :=
  ⟨encodings_opcodes .brk nofun, encodings_opcodes .nop nofun, writesFlagOnly_of_setFlag fun _ => rfl, fun _ => rfl⟩

/-- Settles O22: the three slots are read in the state RTI starts in, and only registers are then written. -/
theorem rtiPopsStatusThenPc : Obligations.RtiPopsStatusThenPc := by
  refine ⟨encodings_opcodes .rti nofun, fun s => ?_⟩
  simp only [← stackSlot_eq, ofNat_eq_wordOf]
  exact ⟨_, exec_rti s, rfl, onlyCpu_withCpu s _⟩

end Sys2Proof.Machine

/-! SUPPORT. The exception of an illegal opcode (R250, R251) and the turns of the schedule (R258 to R263). -/

namespace Sys2Proof.Machine

open Sys2Proof.Safety

/-- Settles O23: the one effect of an illegal opcode moves PC back and records the fault; no memory is touched. -/
theorem illegalInstructionTakesTheException : Obligations.IllegalInstructionTakesTheException := by
  intro b s
  exact ⟨raiseUnimplemented b s, exec_illegal b s, rfl, rfl, rfl, rfl, rfl, sameBytes_of_bus rfl⟩

theorem hostPresent_of_drawNow {s : State} (h : s.ppu.drawNow = true) : hostPresent s = hostRender s := if_pos h

theorem hostPresent_of_not_drawNow {s : State} (h : s.ppu.drawNow = false) : hostPresent s = s :=
  if_neg (Bool.eq_false_iff.mp h)

/-- Settles O25: a running machine takes the turn at the head, and only `present` looks at `draw_now`. -/
theorem stepTakesTheScheduledTurn : Obligations.StepTakesTheScheduledTurn := by
  intro s hr
  refine ⟨step_of_no_turn hr, fun _ => step_of_turn hr, fun _ => step_of_turn hr, fun _ => step_of_turn hr,
    fun rest h hdraw => ?draws, fun rest h hdraw => ?skips, fun _ => step_of_turn hr⟩
  all_goals refine (step_of_turn hr h).trans (congrArg Host.Outcome.next ?_)
  case draws => exact hostPresent_of_drawNow hdraw
  case skips => exact hostPresent_of_not_drawNow hdraw

/-- Settles O28: the stop is read off the record of the fault. -/
theorem faultedStateHasNoStep : Obligations.FaultedStateHasNoStep := fun _ _ h => step_of_fault h

end Sys2Proof.Machine

/-! SUPPORT. The nine PPU ports on the bus (R270 to R281): where each port is, what an access of it is, and which
accesses touch the write toggle. -/

namespace Sys2Proof.Machine

open Sys2Proof.Safety

/-! ## A port's address -/

/-- The bus address of a port (R280). -/
def Port.address : Port → Word
  | .ctrl => 0x2000
  | .mask => 0x2001
  | .status => 0x2002
  | .oamAddr => 0x2003
  | .oamData => 0x2004
  | .scroll => 0x2005
  | .vramAddr => 0x2006
  | .vramData => 0x2007
  | .oamDma => 0x4014

theorem route_portAddress (k : PrgBanks) (p : Port) : route k p.address = .port p := by cases p <;> rfl

theorem memRead_portAddress (p : Port) (s : State) :
    memRead p.address s = ((portRead p s.ppu).1, s.setPpu (portRead p s.ppu).2) := by
  simp only [memRead, route_portAddress]

theorem memWrite_portAddress (p : Port) (v : Byte) (s : State) :
    memWrite p.address v s = s.setPpu (portWrite p v s.ppu) := by
  simp only [memWrite, route_portAddress]

/-! ## STATUS, the data ports and the plain ports -/

/-- Settles O51: the read's mask drops bit 7 and keeps the others. -/
theorem statusReadClearsVblankAndToggle : Obligations.StatusReadClearsVblankAndToggle := by
  intro s
  have hcleared : (s.ppu.status &&& 0x7F).getLsbD 7 = false := by simp
  obtain ⟨hlow, -⟩ := (StatusFalls.refl s.ppu.status).clear
  exact ⟨s.ppu.status &&& 0x7F, memRead_portAddress .status s, hcleared, hlow⟩

/-- Settles O53: an access of a data port is one read or one write of its memory, and a write changes one index. -/
theorem dataPortsReachVideoAndSpriteMemory : Obligations.DataPortsReachVideoAndSpriteMemory := by
  intro v s
  exact ⟨memRead_portAddress .vramData s, memRead_portAddress .oamData s, memWrite_portAddress .oamAddr v s,
    ⟨_, memWrite_portAddress .vramData v s, Memory.read_write _ _ v⟩,
    ⟨_, memWrite_portAddress .oamData v s, Memory.read_write _ _ v⟩⟩

/-- Settles O54: by port, in the one direction it is written and the one it is not read in. -/
theorem remainingPortAccesses : Obligations.RemainingPortAccesses := by
  intro v s
  exact ⟨memWrite_portAddress .ctrl v s, memWrite_portAddress .mask v s, memWrite_portAddress .status v s,
    memWrite_portAddress .oamDma v s, memRead_portAddress .ctrl s, memRead_portAddress .mask s,
    memRead_portAddress .oamAddr s, memRead_portAddress .scroll s, memRead_portAddress .vramAddr s,
    memRead_portAddress .oamDma s⟩

/-! ## The write toggle -/

section Toggle
variable {u : Ppu} (v : Byte)

theorem portWrite_scroll_first (h : u.w = false) : portWrite .scroll v u = { u with scrollX := v, w := true } :=
  if_neg (Bool.eq_false_iff.mp h)

theorem portWrite_scroll_second (h : u.w = true) : portWrite .scroll v u = { u with scrollY := v, w := false } :=
  if_pos h

theorem portWrite_vramAddr_first (h : u.w = false) :
    portWrite .vramAddr v u = { u with vramAddr := wordOf v (loByte u.vramAddr), w := true } :=
  if_neg (Bool.eq_false_iff.mp h)

theorem portWrite_vramAddr_second (h : u.w = true) :
    portWrite .vramAddr v u = { u with vramAddr := wordOf (hiByte u.vramAddr) v, w := false } :=
  if_pos h

end Toggle

theorem portRead_w_of_ne {p : Port} (h : p ≠ .status) (u : Ppu) : (portRead p u).2.w = u.w := by
  cases p with
  | status => exact absurd rfl h
  | _ => rfl

theorem portWrite_w_of_ne {p : Port} (hscroll : p ≠ .scroll) (haddr : p ≠ .vramAddr) (v : Byte) (u : Ppu) :
    (portWrite p v u).w = u.w := by
  cases p with
  | scroll => exact absurd rfl hscroll
  | vramAddr => exact absurd rfl haddr
  | _ => rfl

/-- Of the reads only that of 0x2002 touches the toggle (R279). -/
theorem memRead_w_of_ne {a : Word} (h : a ≠ 0x2002) (s : State) : (memRead a s).2.ppu.w = s.ppu.w := by
  unfold memRead
  split <;> try rfl
  next p hroute =>
    refine portRead_w_of_ne (fun hp => h ?_) s.ppu
    subst hp
    exact address_of_port hroute

/-- Of the writes only those to 0x2005 and 0x2006 touch the toggle (R279). -/
theorem memWrite_w_of_ne {a : Word} (hscroll : a ≠ 0x2005) (haddr : a ≠ 0x2006) (v : Byte) (s : State) :
    (memWrite a v s).ppu.w = s.ppu.w := by
  unfold memWrite
  split <;> try rfl
  next p hroute =>
    refine portWrite_w_of_ne (fun hp => hscroll ?_) (fun hp => haddr ?_) v s.ppu <;>
      (subst hp; exact address_of_port hroute)

/-- Settles O52: the two ports by the toggle's value, and every other access by the port its address is routed to. -/
theorem writeToggleLaw : Obligations.WriteToggleLaw := by
  refine ⟨fun v s => ⟨fun h => ?scrollX, fun h => ?scrollY, fun h => ?high, fun h => ?low, ?status⟩,
    fun a v s => ⟨fun h => memRead_w_of_ne h s, fun h1 h2 => memWrite_w_of_ne h1 h2 v s⟩⟩
  case scrollX => rw [← portWrite_scroll_first v h]; exact memWrite_portAddress .scroll v s
  case scrollY => rw [← portWrite_scroll_second v h]; exact memWrite_portAddress .scroll v s
  case high =>
    refine ⟨wordOf v (loByte s.ppu.vramAddr), ?_, ?_⟩
    · rw [wordOf_toNat, loByte_toNat]
    · rw [← portWrite_vramAddr_first v h]; exact memWrite_portAddress .vramAddr v s
  case low =>
    refine ⟨wordOf (hiByte s.ppu.vramAddr) v, ?_, ?_⟩
    · rw [wordOf_toNat, hiByte_toNat]
    · rw [← portWrite_vramAddr_second v h]; exact memWrite_portAddress .vramAddr v s
  case status => exact congrArg (fun r => r.2.ppu.w) (memRead_portAddress .status s)

end Sys2Proof.Machine

/-! SUPPORT. `PpuStep` (R262): what it does to the PPU, where the simulator's schedule brings it, and when a run under
the open schedule raises the vertical-blank flag (R339). -/

namespace Sys2Proof.Machine

open Sys2Proof.Safety

theorem ppuStep_status_seven (s : State) : (ppuStep s).ppu.status.getLsbD 7 = true := by
  change (s.ppu.status ||| 0x80).getLsbD 7 = true
  simp

/-! ## The simulator's schedule -/

/-- The turns the simulator takes for the CPU step number `k`, counted from 0 (R262). -/
def simulatorTurns (ratio k : Nat) : List Turn := if (k + 1) % ratio = 0 then [.cpu, .ppuStep] else [.cpu]

theorem simulatorTurns_add_ratio (ratio k : Nat) : simulatorTurns ratio (ratio + k) = simulatorTurns ratio k := by
  simp only [simulatorTurns, Nat.add_assoc, Nat.add_mod_left]

theorem simulatorSchedule_eq (ratio n : Nat) :
    simulatorSchedule ratio n = (List.range n).flatMap (simulatorTurns ratio) := rfl

theorem simulatorSchedule_succ (ratio n : Nat) :
    simulatorSchedule ratio (n + 1) = simulatorSchedule ratio n ++ simulatorTurns ratio n := by
  simp only [simulatorSchedule_eq, List.range_succ, List.flatMap_append, List.flatMap_singleton]

/-- Before the ratio is reached every turn is the CPU's. -/
theorem simulatorSchedule_of_lt {ratio n : Nat} (h : n < ratio) : simulatorSchedule ratio n = List.replicate n .cpu := by
  induction n with
  | zero => rfl
  | succ n ih =>
    have hturn : simulatorTurns ratio n = [.cpu] := if_neg (by rw [Nat.mod_eq_of_lt h]; omega)
    rw [simulatorSchedule_succ, ih (by omega), hturn, List.replicate_succ']

/-- The `PpuStep` comes after the CPU step that reaches the ratio. -/
theorem simulatorSchedule_ratio {ratio : Nat} (h : 0 < ratio) :
    simulatorSchedule ratio ratio = List.replicate ratio .cpu ++ [.ppuStep] := by
  obtain ⟨m, rfl⟩ := Nat.exists_eq_add_one.mpr h
  have hturn : simulatorTurns (m + 1) m = [.cpu, .ppuStep] := if_pos (Nat.mod_self _)
  rw [simulatorSchedule_succ, simulatorSchedule_of_lt (Nat.lt_succ_self m), hturn, List.replicate_succ',
    List.append_assoc]
  rfl

/-- After the first `PpuStep` the schedule begins again. -/
theorem simulatorSchedule_ratio_add {ratio : Nat} (h : 0 < ratio) (n : Nat) :
    simulatorSchedule ratio (ratio + n) = List.replicate ratio .cpu ++ .ppuStep :: simulatorSchedule ratio n := by
  calc simulatorSchedule ratio (ratio + n)
      = simulatorSchedule ratio ratio ++ (List.range n).flatMap fun k => simulatorTurns ratio (ratio + k) := by
        simp only [simulatorSchedule_eq, List.range_add, List.flatMap_append, List.flatMap_map]
    _ = List.replicate ratio .cpu ++ .ppuStep :: simulatorSchedule ratio n := by
        simp only [simulatorTurns_add_ratio, ← simulatorSchedule_eq, simulatorSchedule_ratio h,
          List.append_assoc, List.singleton_append]

/-! ## The open schedule -/

section Run
variable {turn : Nat → Turn} {run : Nat → State} (hrun : RunsUnder turn run)
include hrun

/-- Every state of a run is followed by the one its turn answers. -/
theorem runTurn_of_runsUnder (n : Nat) : runTurn (turn n) ((run n).withSchedule []) = .next (run (n + 1)) := by
  rcases step_cases (hrun n) with ⟨hs, -⟩ | ⟨t, rest, hs, e⟩
  · cases hs
  · cases hs
    exact e

theorem vblank_after_ppuStep {n : Nat} (h : turn n = .ppuStep) : (run (n + 1)).ppu.status.getLsbD 7 = true := by
  have e := runTurn_of_runsUnder hrun n
  rw [h] at e
  rw [← Host.Outcome.next.inj e]
  exact ppuStep_status_seven _

/-- A turn that is no `PpuStep` does not raise the flag. -/
theorem vblank_stays_clear {n : Nat} (h : turn n ≠ .ppuStep) (hclear : (run n).ppu.status.getLsbD 7 = false) :
    (run (n + 1)).ppu.status.getLsbD 7 = false := by
  obtain ⟨-, hfalls⟩ := runTurn_statusFalls h (runTurn_of_runsUnder hrun n)
  exact Bool.eq_false_iff.mpr fun hset => Bool.eq_false_iff.mp hclear (hfalls hset)

end Run

/-- Settles O55: the mask of `PpuStep`, the schedule's recurrence, and for the open schedule the turns that raise the
flag and those that do not. -/
theorem ppuStepRaisesVblankAndDrawNow : Obligations.PpuStepRaisesVblankAndDrawNow := by
  refine ⟨fun s => ?mask, fun ratio n h => ⟨simulatorSchedule_of_lt, simulatorSchedule_ratio_add h n⟩,
    fun turn run hrun => ⟨fun hfair n => ?fair, fun n hnone hclear m hm => ?unfair⟩⟩
  case mask => exact ⟨s.ppu.status ||| 0x80, rfl, ppuStep_status_seven s, fun k hk => status_raise_low _ hk⟩
  case fair =>
    obtain ⟨m, hm, hturn⟩ := hfair n
    exact ⟨m + 1, by omega, vblank_after_ppuStep hrun hturn⟩
  case unfair =>
    induction m, hm using Nat.le_induction with
    | base => exact hclear
    | succ m hm ih => exact vblank_stays_clear hrun (hnone m hm) ih

end Sys2Proof.Machine

/-! SUPPORT. The OAM DMA port and the copy of the extension (R281, R282): an instruction stores at most once outside the
stack page, so it makes at most one request; the copy writes one byte of sprite memory after another. -/

namespace Sys2Proof.Machine

open Sys2Proof.Safety

/-! ## At most one request -/

/-- Between `s` and `t` no request for a copy was made, or one (R48, R281). -/
def AtMostOneRequest (s t : State) : Prop :=
  t.ppu.oamdmaReq = s.ppu.oamdmaReq ∨ ∃ v, t.ppu.oamdmaReq = s.ppu.oamdmaReq ++ [v]

theorem portWrite_oamdmaReq_of_ne {p : Port} (h : p ≠ .oamDma) (v : Byte) (u : Ppu) :
    (portWrite p v u).oamdmaReq = u.oamdmaReq := by
  cases p with
  | oamDma => exact absurd rfl h
  | scroll => unfold portWrite; dsimp only; split <;> rfl
  | vramAddr => unfold portWrite; dsimp only; split <;> rfl
  | _ => rfl

theorem memWrite_atMostOneRequest (a : Word) (v : Byte) (s : State) : AtMostOneRequest s (memWrite a v s) := by
  unfold memWrite
  cases route s.bus.prgBanks a with
  | port p =>
    by_cases hp : p = .oamDma
    · subst hp
      exact .inr ⟨v, rfl⟩
    · exact .inl (portWrite_oamdmaReq_of_ne hp v s.ppu)
  | _ => exact .inl rfl

@[simp] theorem memReadWord_oamdmaReq (a : Word) (s : State) :
    (memReadWord a s).2.ppu.oamdmaReq = s.ppu.oamdmaReq := by
  simp [memReadWord]

@[simp] theorem resolve_oamdmaReq (o : Operand) (s : State) : (resolve o s).2.ppu.oamdmaReq = s.ppu.oamdmaReq := by
  cases o <;> simp [resolve, zeroPagePointer_eq]

@[simp] theorem load_oamdmaReq (r : Resolved) (s : State) : (load r s).2.ppu.oamdmaReq = s.ppu.oamdmaReq := by
  cases r <;> simp [load]

@[simp] theorem readOperand_oamdmaReq (o : Operand) (s : State) :
    (readOperand o s).2.ppu.oamdmaReq = s.ppu.oamdmaReq := by
  simp [readOperand]

theorem storeByte_atMostOneRequest {o : Operand} {v : Byte} {s t : State} (e : storeByte o v s = .next t) :
    AtMostOneRequest s t := by
  obtain ⟨a, -, rfl⟩ := storeByte_cases e
  simpa [AtMostOneRequest] using memWrite_atMostOneRequest a v (resolve o s).2

theorem modify_atMostOneRequest {o : Operand} {f : Byte → Byte → Byte × Byte} {s t : State}
    (e : modify o f s = .next t) : AtMostOneRequest s t := by
  rcases modify_cases e with ⟨-, rfl⟩ | ⟨a, -, rfl⟩
  · exact .inl rfl
  · simpa [AtMostOneRequest] using memWrite_atMostOneRequest a _ (readOperand o s).2

/-- Reads and pushes make no request, and no instruction has more than one store. -/
theorem exec_atMostOneRequest {i : Instr} {s t : State} (e : exec i s = .next t) : AtMostOneRequest s t := by
  cases i with
  | sta o => exact storeByte_atMostOneRequest e
  | stx o => exact storeByte_atMostOneRequest e
  | sty o => exact storeByte_atMostOneRequest e
  | asl o => exact modify_atMostOneRequest e
  | lsr o => exact modify_atMostOneRequest e
  | rol o => exact modify_atMostOneRequest e
  | ror o => exact modify_atMostOneRequest e
  | inc o => exact modify_atMostOneRequest (f := fun m p => (m + 1, putNZ (m + 1) p)) e
  | dec o => exact modify_atMostOneRequest (f := fun m p => (m - 1, putNZ (m - 1) p)) e
  | jmp o =>
    obtain ⟨a, -, rfl⟩ := execJmp_cases e
    exact .inl (resolve_oamdmaReq o s)
  | rti => cases e; rw [trapReturn_eq]; exact .inl rfl
  | illegal b => cases e; exact .inl rfl
  | _ =>
    cases e
    left
    simp [pop8_eq, pop16_eq]

theorem afterFetch_oamdmaReq (n : Nat) (s : State) : (afterFetch n s).ppu.oamdmaReq = s.ppu.oamdmaReq := by
  induction n with
  | zero => rfl
  | succ n ih => simp [afterFetch, fetch8, ih]

theorem cpuStep_atMostOneRequest {s u : State} (e : cpuStep s = .next u) : AtMostOneRequest s u := by
  obtain ⟨b1, b2, hfetch⟩ := fetchInstr_eq s
  have h := exec_atMostOneRequest e
  rwa [AtMostOneRequest, hfetch, afterFetch_oamdmaReq] at h

theorem cpuStep_oamDmaMode {s u : State} (e : cpuStep s = .next u) : u.host.oamDmaMode = s.host.oamDmaMode := by
  have hkept := keptByAll_sameLaunchData s
  obtain ⟨-, -, hmode⟩ := hkept.exec (hkept.fetchInstr (s := s) ⟨rfl, rfl, rfl⟩) e
  exact hmode

/-- In `copy` mode the host answers the one request of a step with one copy (log 11). -/
theorem serveOamDma_copy {s u : State} {v : Byte} (hmode : u.host.oamDmaMode = .copy)
    (hreq : u.ppu.oamdmaReq = s.ppu.oamdmaReq ++ [v]) : serveOamDma s u = oamDmaCopy v u := by
  simp only [serveOamDma, hmode, hreq, List.drop_left, List.foldl_cons, List.foldl_nil]

/-! ## The copy -/

/-- What the copy of the first `n` bytes of page `v` leaves: those bytes in sprite memory from the cursor on, and
nothing else changed. -/
structure CopiedUpTo (v : Byte) (s : State) (n : Nat) (t : State) : Prop where
  frame : t = s.setPpu { s.ppu with oam := t.ppu.oam }
  bytes : ∀ i : Byte, i.toNat < n → t.ppu.oam.read (s.ppu.oamAddr + i).toNat = peek (wordOf v i) s

section Copy
variable {v : Byte} (hpage : ∀ i : Byte, isPort (wordOf v i) = false) (s : State)
include hpage

/-- Away from the ports one copied byte is one read and one write of sprite memory. -/
theorem oamDmaCopyByte_eq (i : Nat) :
    oamDmaCopyByte v s i = s.setPpu { s.ppu with
      oam := s.ppu.oam.write (s.ppu.oamAddr + BitVec.ofNat 8 i).toNat (peek (wordOf v (BitVec.ofNat 8 i)) s) } := by
  simp only [oamDmaCopyByte, memRead_of_not_port (hpage _), memRead_fst]

/-- The next byte goes to an index no earlier one went to: the offsets below 256 are apart modulo 256. -/
theorem copiedUpTo_succ {n : Nat} (hn : n < 256) {t : State} (h : CopiedUpTo v s n t) :
    CopiedUpTo v s (n + 1) (oamDmaCopyByte v t n) := by
  obtain ⟨hframe, hbytes⟩ := h
  have hpeek : ∀ i, peek (wordOf v i) t = peek (wordOf v i) s := fun i => by
    rw [hframe]
    exact peek_congr rfl (by simp [hpage i])
  have haddr : t.ppu.oamAddr = s.ppu.oamAddr := by rw [hframe]; rfl
  rw [oamDmaCopyByte_eq hpage, hpeek, haddr]
  refine ⟨?_, fun i hi => ?_⟩
  · rw [hframe]
    rfl
  · rw [setPpu_ppu, Memory.read_write]
    by_cases hin : i = BitVec.ofNat 8 n
    · rw [hin, if_pos rfl]
    · have hlt : i.toNat < n := by bv_omega
      have hne : (s.ppu.oamAddr + i).toNat ≠ (s.ppu.oamAddr + BitVec.ofNat 8 n).toNat := fun h =>
        hin (add_left_cancel (BitVec.eq_of_toNat_eq h))
      rw [if_neg hne, hbytes i hlt]

theorem copiedUpTo_foldl {n : Nat} (hn : n ≤ 256) : CopiedUpTo v s n ((List.range n).foldl (oamDmaCopyByte v) s) := by
  induction n with
  | zero => exact ⟨rfl, fun i hi => absurd hi (Nat.not_lt_zero _)⟩
  | succ n ih =>
    rw [List.range_succ, List.foldl_append]
    exact copiedUpTo_succ hpage s hn (ih (Nat.le_of_succ_le hn))

end Copy

/-- Settles O56: a CPU step makes at most one request, the host serves it by its mode, and the copy is followed byte by
byte. -/
theorem oamDmaCopyFillsSpriteMemory : Obligations.OamDmaCopyFillsSpriteMemory := by
  refine ⟨fun s u e => ?_, fun v s hpage => ?_⟩
  · refine (cpuStep_atMostOneRequest e).imp (fun hreq => ⟨hreq, cpuTurn_of_no_request e hreq⟩) ?_
    rintro ⟨v, hreq⟩
    refine ⟨v, hreq, fun hstub => (cpuTurn_stub hstub).trans e, fun hcopy => ?_⟩
    rw [cpuTurn_of_cpuStep e, serveOamDma_copy ((cpuStep_oamDmaMode e).trans hcopy) hreq]
  · obtain ⟨hframe, hbytes⟩ := copiedUpTo_foldl hpage s (Nat.le_refl 256)
    exact ⟨fun i => hbytes i i.isLt, hframe⟩

end Sys2Proof.Machine

/-! SUPPORT. Rendering (R285 to R292): addresses and tiles in closed arithmetic, the frame pixel by pixel, and the
sprites painted over the background in index order. -/

namespace Sys2Proof.Machine

open Sys2Proof.Safety

/-! ## Palette and tiles -/

theorem paletteAddr_toNat (sel : BitVec 3) (px : BitVec 2) :
    (paletteAddr sel px).toNat = if px = 0 then 0x3F00 else 0x3F00 + sel.toNat * 4 + px.toNat := by
  unfold paletteAddr
  split
  · rfl
  · bv_omega

theorem colourIndex_toNat (u : Ppu) (sel : BitVec 3) (px : BitVec 2) :
    (colourIndex u sel px).toNat = (u.vram.read (paletteAddr sel px).toNat).toNat % 64 :=
  BitVec.toNat_setWidth 6 _

/-- The two bit planes of a tile give the low and the high bit of its pixels (R287). -/
theorem tilePixel_toNat (u : Ppu) {tile : Word} {r : Nat} (c : Nat) (hr : r < 8) (htile : tile.toNat + 15 < 65536) :
    (tilePixel u tile r c).toNat =
      ((u.vram.read (tile.toNat + r)).getLsbD (7 - c)).toNat +
        2 * ((u.vram.read (tile.toNat + 8 + r)).getLsbD (7 - c)).toNat := by
  have hlow : (tile + BitVec.ofNat 16 r).toNat = tile.toNat + r := by bv_omega
  have hhigh : (tile + 8 + BitVec.ofNat 16 r).toNat = tile.toNat + 8 + r := by bv_omega
  simp only [tilePixel, Ppu.vramAt, hlow, hhigh, append_toNat, BitVec.toNat_ofBool]
  omega

theorem bgBase_toNat (u : Ppu) : (bgBase u).toNat = if u.ctrl.getLsbD 4 then 0x1000 else 0 := by
  unfold bgBase
  split <;> rfl

theorem spriteBase_toNat (u : Ppu) : (spriteBase u).toNat = if u.ctrl.getLsbD 3 then 0x1000 else 0 := by
  unfold spriteBase
  split <;> rfl

/-- Both banks lie below 0x2000, so a tile's base does not wrap (R288). -/
theorem tileBase_toNat {base : Word} (h : base.toNat ≤ 0x1000) (n : Byte) :
    (tileBase base n).toNat = base.toNat + n.toNat * 16 := by
  have hz := zext_toNat n
  unfold tileBase
  bv_omega

/-- Settles O57: each value in closed arithmetic; no address of the four wraps. -/
theorem paletteAndTileDecode : Obligations.PaletteAndTileDecode := by
  refine ⟨paletteAddr_toNat, fun u sel px => ⟨colourIndex_toNat u sel px, rfl⟩,
    fun u _ _ c hr _ htile => tilePixel_toNat u c hr htile, fun u n => ⟨?bg, ?sprite⟩⟩
  case bg => rw [← bgBase_toNat]; exact tileBase_toNat (by rw [bgBase_toNat]; split <;> decide) n
  case sprite => rw [← spriteBase_toNat]; exact tileBase_toNat (by rw [spriteBase_toNat]; split <;> decide) n

/-! ## The frame -/

theorem renderFrame_ne_nil (u : Ppu) : renderFrame u ≠ [] :=
  List.ne_nil_of_length_pos (by simp [renderFrame])

theorem renderFrame_pixel (u : Ppu) {x y : Nat} (hx : x < 256) (hy : y < 240) :
    ((renderFrame u)[y]?.bind fun row => row[x]?) = some (Config.paletteRgb (pixelIndex u x y)) := by
  simp [renderFrame, pixel, hx, hy]

/-- Settles O58: the turn is `hostRender` with the turn taken off the schedule, and the frame is two nested maps. -/
theorem renderFrameWritesOnlyTheBuffer : Obligations.RenderFrameWritesOnlyTheBuffer := by
  refine ⟨fun s rest hr hs => ?_, fun u => ⟨renderFrame_wf u, renderFrame_ne_nil u, fun _ _ => renderFrame_pixel u⟩⟩
  exact ⟨hostRender (s.withSchedule rest), step_of_turn hr hs, rfl, rfl, rfl, hr, rfl⟩

/-! ## The passes -/

/-- The pixel at row `r`, column `c` of a name-table entry is that tile's pixel in palette 0 (R291). -/
theorem backgroundIndex_tile (u : Ppu) {ty tx r c : Nat} (hty : ty < 30) (htx : tx < 32) (hr : r < 8) (hc : c < 8) :
    backgroundIndex u (tx * 8 + c) (ty * 8 + r) =
      colourIndex u 0 (tilePixel u (tileBase (bgBase u) (u.vram.read (0x2000 + ty * 32 + tx))) r c) := by
  have hcol : (tx * 8 + c) / 8 = tx ∧ (tx * 8 + c) % 8 = c := by omega
  have hrow : (ty * 8 + r) / 8 = ty ∧ (ty * 8 + r) % 8 = r := by omega
  have haddr : (BitVec.ofNat 16 (0x2000 + ty * 32 + tx)).toNat = 0x2000 + ty * 32 + tx :=
    Nat.mod_eq_of_lt (by omega)
  simp only [backgroundIndex, Ppu.vramAt, hcol, hrow, haddr]

/-- Sprite `i` covers the pixel `(x, y)`: it is within eight columns of the sprite's X and eight rows of its Y (R292). -/
def SpriteCovers (u : Ppu) (i x y : Nat) : Prop :=
  (u.oam.read (4 * i + 3)).toNat ≤ x ∧ x < (u.oam.read (4 * i + 3)).toNat + 8 ∧
    (u.oam.read (4 * i)).toNat ≤ y ∧ y < (u.oam.read (4 * i)).toNat + 8

theorem spriteIndex?_of_not_covers {u : Ppu} {i x y : Nat} (h : ¬SpriteCovers u i x y) : spriteIndex? u i x y = none :=
  if_neg h

/-- Palette-select of a sprite: 4 plus the low two bits of its third byte (R292). -/
theorem spriteSelect_eq (attr : Byte) :
    4 + (attr.setWidth 2).setWidth 3 = BitVec.ofNat 3 (4 + attr.toNat % 4) := by
  bv_omega

/-- A sprite paints the pixel `(r, c)` of its tile at its X plus `c`, its Y plus `r` (R292). -/
theorem spriteIndex?_tile (u : Ppu) (i : Nat) {r c : Nat} (hr : r < 8) (hc : c < 8) :
    spriteIndex? u i ((u.oam.read (4 * i + 3)).toNat + c) ((u.oam.read (4 * i)).toNat + r) =
      some (colourIndex u (BitVec.ofNat 3 (4 + (u.oam.read (4 * i + 2)).toNat % 4))
        (tilePixel u (tileBase (spriteBase u) (u.oam.read (4 * i + 1))) r c)) := by
  have hcovers : SpriteCovers u i ((u.oam.read (4 * i + 3)).toNat + c) ((u.oam.read (4 * i)).toNat + r) := by
    unfold SpriteCovers
    omega
  rw [← spriteSelect_eq]
  refine (if_pos hcovers).trans ?_
  simp only [Ppu.oamAt, Nat.add_sub_cancel_left]

/-- Settles O60: a pixel of a tile is found again from its coordinates by division and by subtraction. -/
theorem renderPassesFollowTheLoops : Obligations.RenderPassesFollowTheLoops := by
  refine fun u => ⟨fun _ _ _ _ => backgroundIndex_tile u, fun i _ _ _ => spriteIndex?_tile u i, fun i x y _ h => ?_⟩
  have hcovers : SpriteCovers u i x y := by_contra fun hn => h (spriteIndex?_of_not_covers hn)
  obtain ⟨hx, hx8, hy, hy8⟩ := hcovers
  exact ⟨y - (u.oam.read (4 * i)).toNat, x - (u.oam.read (4 * i + 3)).toNat, by omega, by omega, by omega, by omega⟩

/-! ## One sprite over another -/

/-- The layers 0 to `n - 1`, where they paint, over what is under them. -/
def paintLayers (layer : Nat → Option (BitVec 6)) (under : BitVec 6) (n : Nat) : BitVec 6 :=
  (List.range n).foldl (fun below i => (layer i).getD below) under

theorem pixelIndex_eq (u : Ppu) (x y : Nat) :
    pixelIndex u x y = paintLayers (fun i => spriteIndex? u i x y) (backgroundIndex u x y) 64 := rfl

section Layers
variable {layer : Nat → Option (BitVec 6)} {under : BitVec 6}

theorem paintLayers_succ (n : Nat) :
    paintLayers layer under (n + 1) = (layer n).getD (paintLayers layer under n) := by
  simp only [paintLayers, List.range_succ, List.foldl_append, List.foldl_cons, List.foldl_nil]

theorem paintLayers_of_none {n : Nat} (h : ∀ i, i < n → layer i = none) : paintLayers layer under n = under := by
  induction n with
  | zero => rfl
  | succ n ih =>
    rw [paintLayers_succ, h n (Nat.lt_succ_self n), Option.getD_none, ih fun i hi => h i (Nat.lt_succ_of_lt hi)]

/-- The highest layer that paints shows. -/
theorem paintLayers_of_highest {n i : Nat} {c : BitVec 6} (hi : i < n) (hc : layer i = some c)
    (habove : ∀ j, i < j → j < n → layer j = none) : paintLayers layer under n = c := by
  induction n with
  | zero => exact absurd hi (Nat.not_lt_zero i)
  | succ n ih =>
    rw [paintLayers_succ]
    rcases Nat.lt_succ_iff_lt_or_eq.mp hi with hlt | rfl
    · rw [habove n hlt (Nat.lt_succ_self n), Option.getD_none,
        ih hlt fun j hij hj => habove j hij (Nat.lt_succ_of_lt hj)]
    · rw [hc, Option.getD_some]

end Layers

/-- A sprite whose Y byte is 240 or more covers no row of the frame (R292). -/
theorem not_covers_of_hidden {u : Ppu} {i x y : Nat} (hy : y < 240) (h : 240 ≤ (u.oam.read (4 * i)).toNat) :
    ¬SpriteCovers u i x y := by
  unfold SpriteCovers
  omega

/-- Settles O59: the sprites are 64 layers over the background. -/
theorem laterSpritesPaintOver : Obligations.LaterSpritesPaintOver := by
  intro u x y _ hy
  rw [pixelIndex_eq]
  exact ⟨paintLayers_of_none, fun _ _ => paintLayers_of_highest (layer := fun j => spriteIndex? u j x y),
    fun _ _ h => spriteIndex?_of_not_covers (not_covers_of_hidden hy h)⟩

end Sys2Proof.Machine

/-! SUPPORT. `Reset` on its own (R320), in every state. -/

namespace Sys2Proof.Machine

/-- Settles O40: `Reset` is two register writes, so the registers are read off `applyReset_cpu` and the rest is kept. -/
theorem resetSetsPcAndIOnly : Obligations.ResetSetsPcAndIOnly := by
  intro s
  have hp : (applyReset s).cpu.p = putFlag .i true s.cpu.p := by rw [applyReset_cpu]
  refine ⟨by simp only [applyReset_cpu], applyReset_pc_toNat s, ?_, ?_, applyReset_bus s, applyReset_ppu s,
    applyReset_host s, applyReset_fault s⟩
  · rw [hp]
    exact getFlag_putFlag_same .i true s.cpu.p
  · rw [hp]
    exact keepsFlags_putFlag .i true s.cpu.p

end Sys2Proof.Machine
